-- ==== Sys2Proof/Word.lean ====
section
/-! DEFINITION. The word types of the core (R10 `00_scope.md`: XLEN 64, 32 registers, ILEN 32, 12-bit CSR addresses). -/

namespace Sys2Proof

/-- A 64-bit value: a general register, the pc, a CSR, an address (R10, XLEN). -/
abbrev Word := BitVec 64

/-- One byte of memory (R39). -/
abbrev Byte := BitVec 8

/-- A register index: the 5-bit value of an `rd`, `rs1` or `rs2` field (R21). -/
abbrev RegId := BitVec 5

/-- A CSR address: the 12-bit id of R30. -/
abbrev CsrAddr := BitVec 12

end Sys2Proof
end

