-- ==== Sys2Proof/Config.lean ====
section
/-! DEFINITION. The constants the spec fixes for this hardware (R10 `00_scope.md`) and the bounds it puts on the open
parameter `MEM_SIZE` (R11). The open parameters themselves are launch data: they stand in `State` and their values at
`State.reset` in `Machine/Launch.lean`. The spec leaves no value undefined after an instruction that goes on, so there is no
free value here. -/

namespace Sys2Proof.Config

/-- `MEM_BASE`: the lowest physical address that maps to Memory (R10, R56). -/
def memBase : Nat := 0x80000000

/-- `NCSR`: the number of CSR bank entries (R10, R30). -/
def ncsr : Nat := 4096

/-- The largest `MEM_SIZE` R11 admits: `2^64 - 2^31`, so that the RAM window never wraps. -/
def memSizeMax : Nat := 2 ^ 64 - 2 ^ 31

end Sys2Proof.Config
end

