-- ==== Sys2Proof/Syntax.lean ====
section
/-! DEFINITION. The decoded Instruction (R100 `30_encoding.md`): a closed set of 71 variants, one per row of
spec/opcode_table.json, each with only the operand fields it needs. An immediate is kept at the width of its field (12-bit I and
S, 13-bit B, 32-bit U, 21-bit J) and extended to 64 bits where it is used; R100 calls that choice unobservable
(assumption log 11). -/

namespace Sys2Proof

/-- The 71 instructions of R92, in the order of the family files of spec/. -/
inductive Instr where
  -- Integer computational (`41_integer_computational.md`).
  | lui (rd : RegId) (imm : BitVec 32)
  | auipc (rd : RegId) (imm : BitVec 32)
  | addi (rd rs1 : RegId) (imm : BitVec 12)
  | slti (rd rs1 : RegId) (imm : BitVec 12)
  | sltiu (rd rs1 : RegId) (imm : BitVec 12)
  | xori (rd rs1 : RegId) (imm : BitVec 12)
  | ori (rd rs1 : RegId) (imm : BitVec 12)
  | andi (rd rs1 : RegId) (imm : BitVec 12)
  | slli (rd rs1 : RegId) (shamt : BitVec 6)
  | srli (rd rs1 : RegId) (shamt : BitVec 6)
  | srai (rd rs1 : RegId) (shamt : BitVec 6)
  | add (rd rs1 rs2 : RegId)
  | sub (rd rs1 rs2 : RegId)
  | sll (rd rs1 rs2 : RegId)
  | slt (rd rs1 rs2 : RegId)
  | sltu (rd rs1 rs2 : RegId)
  | xor (rd rs1 rs2 : RegId)
  | srl (rd rs1 rs2 : RegId)
  | sra (rd rs1 rs2 : RegId)
  | or (rd rs1 rs2 : RegId)
  | and (rd rs1 rs2 : RegId)
  | addiw (rd rs1 : RegId) (imm : BitVec 12)
  | slliw (rd rs1 : RegId) (shamt : BitVec 5)
  | srliw (rd rs1 : RegId) (shamt : BitVec 5)
  | sraiw (rd rs1 : RegId) (shamt : BitVec 5)
  | addw (rd rs1 rs2 : RegId)
  | subw (rd rs1 rs2 : RegId)
  | sllw (rd rs1 rs2 : RegId)
  | srlw (rd rs1 rs2 : RegId)
  | sraw (rd rs1 rs2 : RegId)
  -- Control transfer (`42_control_transfer.md`).
  | jal (rd : RegId) (imm : BitVec 21)
  | jalr (rd rs1 : RegId) (imm : BitVec 12)
  | beq (rs1 rs2 : RegId) (imm : BitVec 13)
  | bne (rs1 rs2 : RegId) (imm : BitVec 13)
  | blt (rs1 rs2 : RegId) (imm : BitVec 13)
  | bge (rs1 rs2 : RegId) (imm : BitVec 13)
  | bltu (rs1 rs2 : RegId) (imm : BitVec 13)
  | bgeu (rs1 rs2 : RegId) (imm : BitVec 13)
  -- Loads and stores (`43_loads_stores.md`).
  | lb (rd rs1 : RegId) (imm : BitVec 12)
  | lh (rd rs1 : RegId) (imm : BitVec 12)
  | lw (rd rs1 : RegId) (imm : BitVec 12)
  | ld (rd rs1 : RegId) (imm : BitVec 12)
  | lbu (rd rs1 : RegId) (imm : BitVec 12)
  | lhu (rd rs1 : RegId) (imm : BitVec 12)
  | lwu (rd rs1 : RegId) (imm : BitVec 12)
  | sb (rs1 rs2 : RegId) (imm : BitVec 12)
  | sh (rs1 rs2 : RegId) (imm : BitVec 12)
  | sw (rs1 rs2 : RegId) (imm : BitVec 12)
  | sd (rs1 rs2 : RegId) (imm : BitVec 12)
  -- Multiply, divide, remainder (`44_muldiv.md`).
  | mul (rd rs1 rs2 : RegId)
  | mulh (rd rs1 rs2 : RegId)
  | mulhsu (rd rs1 rs2 : RegId)
  | mulhu (rd rs1 rs2 : RegId)
  | div (rd rs1 rs2 : RegId)
  | divu (rd rs1 rs2 : RegId)
  | rem (rd rs1 rs2 : RegId)
  | remu (rd rs1 rs2 : RegId)
  | mulw (rd rs1 rs2 : RegId)
  | divw (rd rs1 rs2 : RegId)
  | divuw (rd rs1 rs2 : RegId)
  | remw (rd rs1 rs2 : RegId)
  | remuw (rd rs1 rs2 : RegId)
  -- CSR access, fence and environment (`45_csr_system.md`).
  | csrrw (rd rs1 : RegId) (csr : CsrAddr)
  | csrrs (rd rs1 : RegId) (csr : CsrAddr)
  | csrrc (rd rs1 : RegId) (csr : CsrAddr)
  | csrrwi (rd : RegId) (uimm : BitVec 5) (csr : CsrAddr)
  | csrrsi (rd : RegId) (uimm : BitVec 5) (csr : CsrAddr)
  | csrrci (rd : RegId) (uimm : BitVec 5) (csr : CsrAddr)
  | fence
  | ecall
  | ebreak
deriving DecidableEq, Repr

/-- The name of an instruction, as spec/opcode_table.json spells it. -/
def Instr.mnemonic : Instr → String
  | .lui _ _ => "LUI"
  | .auipc _ _ => "AUIPC"
  | .addi _ _ _ => "ADDI"
  | .slti _ _ _ => "SLTI"
  | .sltiu _ _ _ => "SLTIU"
  | .xori _ _ _ => "XORI"
  | .ori _ _ _ => "ORI"
  | .andi _ _ _ => "ANDI"
  | .slli _ _ _ => "SLLI"
  | .srli _ _ _ => "SRLI"
  | .srai _ _ _ => "SRAI"
  | .add _ _ _ => "ADD"
  | .sub _ _ _ => "SUB"
  | .sll _ _ _ => "SLL"
  | .slt _ _ _ => "SLT"
  | .sltu _ _ _ => "SLTU"
  | .xor _ _ _ => "XOR"
  | .srl _ _ _ => "SRL"
  | .sra _ _ _ => "SRA"
  | .or _ _ _ => "OR"
  | .and _ _ _ => "AND"
  | .addiw _ _ _ => "ADDIW"
  | .slliw _ _ _ => "SLLIW"
  | .srliw _ _ _ => "SRLIW"
  | .sraiw _ _ _ => "SRAIW"
  | .addw _ _ _ => "ADDW"
  | .subw _ _ _ => "SUBW"
  | .sllw _ _ _ => "SLLW"
  | .srlw _ _ _ => "SRLW"
  | .sraw _ _ _ => "SRAW"
  | .jal _ _ => "JAL"
  | .jalr _ _ _ => "JALR"
  | .beq _ _ _ => "BEQ"
  | .bne _ _ _ => "BNE"
  | .blt _ _ _ => "BLT"
  | .bge _ _ _ => "BGE"
  | .bltu _ _ _ => "BLTU"
  | .bgeu _ _ _ => "BGEU"
  | .lb _ _ _ => "LB"
  | .lh _ _ _ => "LH"
  | .lw _ _ _ => "LW"
  | .ld _ _ _ => "LD"
  | .lbu _ _ _ => "LBU"
  | .lhu _ _ _ => "LHU"
  | .lwu _ _ _ => "LWU"
  | .sb _ _ _ => "SB"
  | .sh _ _ _ => "SH"
  | .sw _ _ _ => "SW"
  | .sd _ _ _ => "SD"
  | .mul _ _ _ => "MUL"
  | .mulh _ _ _ => "MULH"
  | .mulhsu _ _ _ => "MULHSU"
  | .mulhu _ _ _ => "MULHU"
  | .div _ _ _ => "DIV"
  | .divu _ _ _ => "DIVU"
  | .rem _ _ _ => "REM"
  | .remu _ _ _ => "REMU"
  | .mulw _ _ _ => "MULW"
  | .divw _ _ _ => "DIVW"
  | .divuw _ _ _ => "DIVUW"
  | .remw _ _ _ => "REMW"
  | .remuw _ _ _ => "REMUW"
  | .csrrw _ _ _ => "CSRRW"
  | .csrrs _ _ _ => "CSRRS"
  | .csrrc _ _ _ => "CSRRC"
  | .csrrwi _ _ _ => "CSRRWI"
  | .csrrsi _ _ _ => "CSRRSI"
  | .csrrci _ _ _ => "CSRRCI"
  | .fence => "FENCE"
  | .ecall => "ECALL"
  | .ebreak => "EBREAK"

end Sys2Proof
end

