-- ==== Sys2Proof/WellFormed.lean ====
section
/-! DEFINITION. Well-formed instructions: the operand values an encoding of `30_encoding.md` can hold (R118 `40_fetch_and_step.md`:
"a variant of rule R100 with in-range fields"). Register indexes, I and S immediates, shift amounts, CSR addresses and `uimm` are
in range by their types. Three checks remain: a B offset is even (R86), a J offset is even (R88), and the low 12 bits of a U
value are zero (R87). -/

namespace Sys2Proof

/-- R86: bit 0 of a B-type offset is 0. -/
def wfB (imm : BitVec 13) : Bool := imm.extractLsb' 0 1 == 0#1

/-- R88: bit 0 of a J-type offset is 0. -/
def wfJ (imm : BitVec 21) : Bool := imm.extractLsb' 0 1 == 0#1

/-- R87: the low 12 bits of a U-type value are 0. -/
def wfU (imm : BitVec 32) : Bool := imm.extractLsb' 0 12 == 0#12

/-- The instruction's operands are values its encoding can hold. -/
def Instr.wf : Instr → Bool
  | .lui _ imm => wfU imm
  | .auipc _ imm => wfU imm
  | .addi _ _ _ => true
  | .slti _ _ _ => true
  | .sltiu _ _ _ => true
  | .xori _ _ _ => true
  | .ori _ _ _ => true
  | .andi _ _ _ => true
  | .slli _ _ _ => true
  | .srli _ _ _ => true
  | .srai _ _ _ => true
  | .add _ _ _ => true
  | .sub _ _ _ => true
  | .sll _ _ _ => true
  | .slt _ _ _ => true
  | .sltu _ _ _ => true
  | .xor _ _ _ => true
  | .srl _ _ _ => true
  | .sra _ _ _ => true
  | .or _ _ _ => true
  | .and _ _ _ => true
  | .addiw _ _ _ => true
  | .slliw _ _ _ => true
  | .srliw _ _ _ => true
  | .sraiw _ _ _ => true
  | .addw _ _ _ => true
  | .subw _ _ _ => true
  | .sllw _ _ _ => true
  | .srlw _ _ _ => true
  | .sraw _ _ _ => true
  | .jal _ imm => wfJ imm
  | .jalr _ _ _ => true
  | .beq _ _ imm => wfB imm
  | .bne _ _ imm => wfB imm
  | .blt _ _ imm => wfB imm
  | .bge _ _ imm => wfB imm
  | .bltu _ _ imm => wfB imm
  | .bgeu _ _ imm => wfB imm
  | .lb _ _ _ => true
  | .lh _ _ _ => true
  | .lw _ _ _ => true
  | .ld _ _ _ => true
  | .lbu _ _ _ => true
  | .lhu _ _ _ => true
  | .lwu _ _ _ => true
  | .sb _ _ _ => true
  | .sh _ _ _ => true
  | .sw _ _ _ => true
  | .sd _ _ _ => true
  | .mul _ _ _ => true
  | .mulh _ _ _ => true
  | .mulhsu _ _ _ => true
  | .mulhu _ _ _ => true
  | .div _ _ _ => true
  | .divu _ _ _ => true
  | .rem _ _ _ => true
  | .remu _ _ _ => true
  | .mulw _ _ _ => true
  | .divw _ _ _ => true
  | .divuw _ _ _ => true
  | .remw _ _ _ => true
  | .remuw _ _ _ => true
  | .csrrw _ _ _ => true
  | .csrrs _ _ _ => true
  | .csrrc _ _ _ => true
  | .csrrwi _ _ _ => true
  | .csrrsi _ _ _ => true
  | .csrrci _ _ _ => true
  | .fence => true
  | .ecall => true
  | .ebreak => true

end Sys2Proof
end

