-- ==== Sys2Proof/Decode.lean ====
section
/-! DEFINITION. `instruction_decoder` (`30_encoding.md`): field extraction (R82), immediates (R84 to R90), the dispatch (R91 to
R97), the opcode table as data, and AFTER them an encoder written from the same tables. The document prints no opcode numbers:
they are the spec's own supply of the standard values (`93_implementation_defined.md` G1). -/

namespace Sys2Proof

/-! ## Fields (R82) -/

/-- `opcode = bits[6:0]`. -/
def opcodeOf (w : BitVec 32) : BitVec 7 := w.extractLsb' 0 7

/-- `rd = bits[11:7]`. -/
def rdOf (w : BitVec 32) : RegId := w.extractLsb' 7 5

/-- `funct3 = bits[14:12]`. -/
def funct3Of (w : BitVec 32) : BitVec 3 := w.extractLsb' 12 3

/-- `rs1 = bits[19:15]`. -/
def rs1Of (w : BitVec 32) : RegId := w.extractLsb' 15 5

/-- `rs2 = bits[24:20]`. -/
def rs2Of (w : BitVec 32) : RegId := w.extractLsb' 20 5

/-- `funct7 = bits[31:25]`. -/
def funct7Of (w : BitVec 32) : BitVec 7 := w.extractLsb' 25 7

/-- `funct6 = bits[31:26]`. -/
def funct6Of (w : BitVec 32) : BitVec 6 := w.extractLsb' 26 6

/-- `imm12 = bits[31:20]`: the I-type immediate (R84), the CSR address (R90), the funct12 of ECALL and EBREAK (R97). -/
def imm12Of (w : BitVec 32) : BitVec 12 := w.extractLsb' 20 12

/-- `shamt6 = bits[25:20]` (R89). -/
def shamt6Of (w : BitVec 32) : BitVec 6 := w.extractLsb' 20 6

/-- `shamt5 = bits[24:20]` (R89). -/
def shamt5Of (w : BitVec 32) : BitVec 5 := w.extractLsb' 20 5

/-- R85: the S-type immediate `{bits[31:25], bits[11:7]}`. -/
def immSOf (w : BitVec 32) : BitVec 12 := w.extractLsb' 25 7 ++ w.extractLsb' 7 5

/-- R86: the B-type offset `{bits[31], bits[7], bits[30:25], bits[11:8], 0}`. -/
def immBOf (w : BitVec 32) : BitVec 13 :=
  w.extractLsb' 31 1 ++ w.extractLsb' 7 1 ++ w.extractLsb' 25 6 ++ w.extractLsb' 8 4 ++ 0#1

/-- R87: the U-type value `{bits[31:12], 12 zeros}`. -/
def immUOf (w : BitVec 32) : BitVec 32 := w.extractLsb' 12 20 ++ 0#12

/-- R88: the J-type offset `{bits[31], bits[19:12], bits[20], bits[30:21], 0}`. -/
def immJOf (w : BitVec 32) : BitVec 21 :=
  w.extractLsb' 31 1 ++ w.extractLsb' 12 8 ++ w.extractLsb' 20 1 ++ w.extractLsb' 21 10 ++ 0#1

/-! ## The decoder (R80, R91) -/

/-- The one way decoding fails: `UndecodableInstruction(raw)` with the whole word (R80, R98). Safe: it is the spec's own
exception. -/
inductive DecodeError where
  /-- Raised by `decode` for a word that matches no row of the opcode table. -/
  | undecodableInstruction (raw : BitVec 32)
deriving DecidableEq, Repr

/-- R98: everything not enumerated is undecodable. -/
def undecodable (w : BitVec 32) : Except DecodeError Instr := .error (.undecodableInstruction w)

/-- LOAD (R96). -/
def decodeLoad (w : BitVec 32) : Except DecodeError Instr :=
  match funct3Of w with
  | 0b000#3 => .ok (.lb (rdOf w) (rs1Of w) (imm12Of w))
  | 0b001#3 => .ok (.lh (rdOf w) (rs1Of w) (imm12Of w))
  | 0b010#3 => .ok (.lw (rdOf w) (rs1Of w) (imm12Of w))
  | 0b011#3 => .ok (.ld (rdOf w) (rs1Of w) (imm12Of w))
  | 0b100#3 => .ok (.lbu (rdOf w) (rs1Of w) (imm12Of w))
  | 0b101#3 => .ok (.lhu (rdOf w) (rs1Of w) (imm12Of w))
  | 0b110#3 => .ok (.lwu (rdOf w) (rs1Of w) (imm12Of w))
  | _ => undecodable w

/-- STORE (R96). -/
def decodeStore (w : BitVec 32) : Except DecodeError Instr :=
  match funct3Of w with
  | 0b000#3 => .ok (.sb (rs1Of w) (rs2Of w) (immSOf w))
  | 0b001#3 => .ok (.sh (rs1Of w) (rs2Of w) (immSOf w))
  | 0b010#3 => .ok (.sw (rs1Of w) (rs2Of w) (immSOf w))
  | 0b011#3 => .ok (.sd (rs1Of w) (rs2Of w) (immSOf w))
  | _ => undecodable w

/-- BRANCH (R96). -/
def decodeBranch (w : BitVec 32) : Except DecodeError Instr :=
  match funct3Of w with
  | 0b000#3 => .ok (.beq (rs1Of w) (rs2Of w) (immBOf w))
  | 0b001#3 => .ok (.bne (rs1Of w) (rs2Of w) (immBOf w))
  | 0b100#3 => .ok (.blt (rs1Of w) (rs2Of w) (immBOf w))
  | 0b101#3 => .ok (.bge (rs1Of w) (rs2Of w) (immBOf w))
  | 0b110#3 => .ok (.bltu (rs1Of w) (rs2Of w) (immBOf w))
  | 0b111#3 => .ok (.bgeu (rs1Of w) (rs2Of w) (immBOf w))
  | _ => undecodable w

/-- JALR (R96): funct3 must be `000`. -/
def decodeJalr (w : BitVec 32) : Except DecodeError Instr :=
  match funct3Of w with
  | 0b000#3 => .ok (.jalr (rdOf w) (rs1Of w) (imm12Of w))
  | _ => undecodable w

/-- OP-IMM (R94): for funct3 `001` and `101` the upper bits `bits[31:26]` are validated (R89). -/
def decodeOpImm (w : BitVec 32) : Except DecodeError Instr :=
  match funct3Of w with
  | 0b000#3 => .ok (.addi (rdOf w) (rs1Of w) (imm12Of w))
  | 0b001#3 =>
    if funct6Of w = 0b000000#6 then .ok (.slli (rdOf w) (rs1Of w) (shamt6Of w))
    else undecodable w
  | 0b010#3 => .ok (.slti (rdOf w) (rs1Of w) (imm12Of w))
  | 0b011#3 => .ok (.sltiu (rdOf w) (rs1Of w) (imm12Of w))
  | 0b100#3 => .ok (.xori (rdOf w) (rs1Of w) (imm12Of w))
  | 0b101#3 =>
    if funct6Of w = 0b000000#6 then .ok (.srli (rdOf w) (rs1Of w) (shamt6Of w))
    else if funct6Of w = 0b010000#6 then .ok (.srai (rdOf w) (rs1Of w) (shamt6Of w))
    else undecodable w
  | 0b110#3 => .ok (.ori (rdOf w) (rs1Of w) (imm12Of w))
  | 0b111#3 => .ok (.andi (rdOf w) (rs1Of w) (imm12Of w))

/-- OP-IMM-32 (R94): for funct3 `001` and `101` the upper bits `bits[31:25]` are validated (R89). -/
def decodeOpImm32 (w : BitVec 32) : Except DecodeError Instr :=
  match funct3Of w with
  | 0b000#3 => .ok (.addiw (rdOf w) (rs1Of w) (imm12Of w))
  | 0b001#3 =>
    if funct7Of w = 0b0000000#7 then .ok (.slliw (rdOf w) (rs1Of w) (shamt5Of w))
    else undecodable w
  | 0b101#3 =>
    if funct7Of w = 0b0000000#7 then .ok (.srliw (rdOf w) (rs1Of w) (shamt5Of w))
    else if funct7Of w = 0b0100000#7 then .ok (.sraiw (rdOf w) (rs1Of w) (shamt5Of w))
    else undecodable w
  | _ => undecodable w

/-- MISC-MEM (R97): FENCE; its other fields are not examined. -/
def decodeMiscMem (w : BitVec 32) : Except DecodeError Instr :=
  match funct3Of w with
  | 0b000#3 => .ok .fence
  | _ => undecodable w

/-- SYSTEM (R97): with funct3 `000` only `bits[31:20]` tells ECALL and EBREAK apart; rd and rs1 are not examined. -/
def decodeSystem (w : BitVec 32) : Except DecodeError Instr :=
  match funct3Of w with
  | 0b000#3 =>
    if imm12Of w = 0x0#12 then .ok .ecall
    else if imm12Of w = 0x1#12 then .ok .ebreak
    else undecodable w
  | 0b001#3 => .ok (.csrrw (rdOf w) (rs1Of w) (imm12Of w))
  | 0b010#3 => .ok (.csrrs (rdOf w) (rs1Of w) (imm12Of w))
  | 0b011#3 => .ok (.csrrc (rdOf w) (rs1Of w) (imm12Of w))
  | 0b101#3 => .ok (.csrrwi (rdOf w) (rs1Of w) (imm12Of w))
  | 0b110#3 => .ok (.csrrsi (rdOf w) (rs1Of w) (imm12Of w))
  | 0b111#3 => .ok (.csrrci (rdOf w) (rs1Of w) (imm12Of w))
  | _ => undecodable w

/-- OP (R95), by funct3 and then funct7. -/
def decodeOp (w : BitVec 32) : Except DecodeError Instr :=
  match funct3Of w with
  | 0b000#3 =>
    if funct7Of w = 0b0000000#7 then .ok (.add (rdOf w) (rs1Of w) (rs2Of w))
    else if funct7Of w = 0b0100000#7 then .ok (.sub (rdOf w) (rs1Of w) (rs2Of w))
    else if funct7Of w = 0b0000001#7 then .ok (.mul (rdOf w) (rs1Of w) (rs2Of w))
    else undecodable w
  | 0b001#3 =>
    if funct7Of w = 0b0000000#7 then .ok (.sll (rdOf w) (rs1Of w) (rs2Of w))
    else if funct7Of w = 0b0000001#7 then .ok (.mulh (rdOf w) (rs1Of w) (rs2Of w))
    else undecodable w
  | 0b010#3 =>
    if funct7Of w = 0b0000000#7 then .ok (.slt (rdOf w) (rs1Of w) (rs2Of w))
    else if funct7Of w = 0b0000001#7 then .ok (.mulhsu (rdOf w) (rs1Of w) (rs2Of w))
    else undecodable w
  | 0b011#3 =>
    if funct7Of w = 0b0000000#7 then .ok (.sltu (rdOf w) (rs1Of w) (rs2Of w))
    else if funct7Of w = 0b0000001#7 then .ok (.mulhu (rdOf w) (rs1Of w) (rs2Of w))
    else undecodable w
  | 0b100#3 =>
    if funct7Of w = 0b0000000#7 then .ok (.xor (rdOf w) (rs1Of w) (rs2Of w))
    else if funct7Of w = 0b0000001#7 then .ok (.div (rdOf w) (rs1Of w) (rs2Of w))
    else undecodable w
  | 0b101#3 =>
    if funct7Of w = 0b0000000#7 then .ok (.srl (rdOf w) (rs1Of w) (rs2Of w))
    else if funct7Of w = 0b0100000#7 then .ok (.sra (rdOf w) (rs1Of w) (rs2Of w))
    else if funct7Of w = 0b0000001#7 then .ok (.divu (rdOf w) (rs1Of w) (rs2Of w))
    else undecodable w
  | 0b110#3 =>
    if funct7Of w = 0b0000000#7 then .ok (.or (rdOf w) (rs1Of w) (rs2Of w))
    else if funct7Of w = 0b0000001#7 then .ok (.rem (rdOf w) (rs1Of w) (rs2Of w))
    else undecodable w
  | 0b111#3 =>
    if funct7Of w = 0b0000000#7 then .ok (.and (rdOf w) (rs1Of w) (rs2Of w))
    else if funct7Of w = 0b0000001#7 then .ok (.remu (rdOf w) (rs1Of w) (rs2Of w))
    else undecodable w

/-- OP-32 (R95), by funct3 and then funct7. -/
def decodeOp32 (w : BitVec 32) : Except DecodeError Instr :=
  match funct3Of w with
  | 0b000#3 =>
    if funct7Of w = 0b0000000#7 then .ok (.addw (rdOf w) (rs1Of w) (rs2Of w))
    else if funct7Of w = 0b0100000#7 then .ok (.subw (rdOf w) (rs1Of w) (rs2Of w))
    else if funct7Of w = 0b0000001#7 then .ok (.mulw (rdOf w) (rs1Of w) (rs2Of w))
    else undecodable w
  | 0b001#3 =>
    if funct7Of w = 0b0000000#7 then .ok (.sllw (rdOf w) (rs1Of w) (rs2Of w))
    else undecodable w
  | 0b100#3 =>
    if funct7Of w = 0b0000001#7 then .ok (.divw (rdOf w) (rs1Of w) (rs2Of w))
    else undecodable w
  | 0b101#3 =>
    if funct7Of w = 0b0000000#7 then .ok (.srlw (rdOf w) (rs1Of w) (rs2Of w))
    else if funct7Of w = 0b0100000#7 then .ok (.sraw (rdOf w) (rs1Of w) (rs2Of w))
    else if funct7Of w = 0b0000001#7 then .ok (.divuw (rdOf w) (rs1Of w) (rs2Of w))
    else undecodable w
  | 0b110#3 =>
    if funct7Of w = 0b0000001#7 then .ok (.remw (rdOf w) (rs1Of w) (rs2Of w))
    else undecodable w
  | 0b111#3 =>
    if funct7Of w = 0b0000001#7 then .ok (.remuw (rdOf w) (rs1Of w) (rs2Of w))
    else undecodable w
  | _ => undecodable w

/-- R91: `decode(raw)`, total on all 2^32 words: opcode first, then funct3, then the upper bits where the format requires. -/
def decode (w : BitVec 32) : Except DecodeError Instr :=
  match opcodeOf w with
  | 0b0110111#7 => .ok (.lui (rdOf w) (immUOf w))
  | 0b0010111#7 => .ok (.auipc (rdOf w) (immUOf w))
  | 0b1101111#7 => .ok (.jal (rdOf w) (immJOf w))
  | 0b1100111#7 => decodeJalr w
  | 0b1100011#7 => decodeBranch w
  | 0b0000011#7 => decodeLoad w
  | 0b0100011#7 => decodeStore w
  | 0b0010011#7 => decodeOpImm w
  | 0b0011011#7 => decodeOpImm32 w
  | 0b0110011#7 => decodeOp w
  | 0b0111011#7 => decodeOp32 w
  | 0b0001111#7 => decodeMiscMem w
  | 0b1110011#7 => decodeSystem w
  | _ => undecodable w

/-- The instruction the decoder reads from an instruction whose bits are `w`, numbered as spec/opcode_table.json numbers them;
every bit from `nbits` up is 0. All instructions are one 32-bit word (R81), so the word goes to the decoder as Fetch assembles
it. -/
def decodeTableWord (nbits w : Nat) : Option Instr :=
  match decode (BitVec.ofNat 32 (w % 2 ^ nbits)) with
  | .ok i => some i
  | .error _ => none

/-! ## The opcode table as data -/

/-- One row of spec/opcode_table.json. -/
structure OpcodeRow where
  mnemonic : String
  pattern : BitVec 32
  mask : BitVec 32
deriving DecidableEq, Repr

/-- The word `w` matches the row: `w & mask == match` (R91). -/
def OpcodeRow.matches (r : OpcodeRow) (w : BitVec 32) : Bool := w &&& r.mask == r.pattern

/-- The rows of `41_integer_computational.md`. -/
def integerRows : List OpcodeRow := [
  ⟨"LUI", 0x00000037, 0x0000007f⟩,
  ⟨"AUIPC", 0x00000017, 0x0000007f⟩,
  ⟨"ADDI", 0x00000013, 0x0000707f⟩,
  ⟨"SLTI", 0x00002013, 0x0000707f⟩,
  ⟨"SLTIU", 0x00003013, 0x0000707f⟩,
  ⟨"XORI", 0x00004013, 0x0000707f⟩,
  ⟨"ORI", 0x00006013, 0x0000707f⟩,
  ⟨"ANDI", 0x00007013, 0x0000707f⟩,
  ⟨"SLLI", 0x00001013, 0xfc00707f⟩,
  ⟨"SRLI", 0x00005013, 0xfc00707f⟩,
  ⟨"SRAI", 0x40005013, 0xfc00707f⟩,
  ⟨"ADD", 0x00000033, 0xfe00707f⟩,
  ⟨"SUB", 0x40000033, 0xfe00707f⟩,
  ⟨"SLL", 0x00001033, 0xfe00707f⟩,
  ⟨"SLT", 0x00002033, 0xfe00707f⟩,
  ⟨"SLTU", 0x00003033, 0xfe00707f⟩,
  ⟨"XOR", 0x00004033, 0xfe00707f⟩,
  ⟨"SRL", 0x00005033, 0xfe00707f⟩,
  ⟨"SRA", 0x40005033, 0xfe00707f⟩,
  ⟨"OR", 0x00006033, 0xfe00707f⟩,
  ⟨"AND", 0x00007033, 0xfe00707f⟩,
  ⟨"ADDIW", 0x0000001b, 0x0000707f⟩,
  ⟨"SLLIW", 0x0000101b, 0xfe00707f⟩,
  ⟨"SRLIW", 0x0000501b, 0xfe00707f⟩,
  ⟨"SRAIW", 0x4000501b, 0xfe00707f⟩,
  ⟨"ADDW", 0x0000003b, 0xfe00707f⟩,
  ⟨"SUBW", 0x4000003b, 0xfe00707f⟩,
  ⟨"SLLW", 0x0000103b, 0xfe00707f⟩,
  ⟨"SRLW", 0x0000503b, 0xfe00707f⟩,
  ⟨"SRAW", 0x4000503b, 0xfe00707f⟩]

/-- The rows of `42_control_transfer.md`. -/
def controlRows : List OpcodeRow := [
  ⟨"JAL", 0x0000006f, 0x0000007f⟩,
  ⟨"JALR", 0x00000067, 0x0000707f⟩,
  ⟨"BEQ", 0x00000063, 0x0000707f⟩,
  ⟨"BNE", 0x00001063, 0x0000707f⟩,
  ⟨"BLT", 0x00004063, 0x0000707f⟩,
  ⟨"BGE", 0x00005063, 0x0000707f⟩,
  ⟨"BLTU", 0x00006063, 0x0000707f⟩,
  ⟨"BGEU", 0x00007063, 0x0000707f⟩]

/-- The rows of `43_loads_stores.md`. -/
def loadStoreRows : List OpcodeRow := [
  ⟨"LB", 0x00000003, 0x0000707f⟩,
  ⟨"LH", 0x00001003, 0x0000707f⟩,
  ⟨"LW", 0x00002003, 0x0000707f⟩,
  ⟨"LD", 0x00003003, 0x0000707f⟩,
  ⟨"LBU", 0x00004003, 0x0000707f⟩,
  ⟨"LHU", 0x00005003, 0x0000707f⟩,
  ⟨"LWU", 0x00006003, 0x0000707f⟩,
  ⟨"SB", 0x00000023, 0x0000707f⟩,
  ⟨"SH", 0x00001023, 0x0000707f⟩,
  ⟨"SW", 0x00002023, 0x0000707f⟩,
  ⟨"SD", 0x00003023, 0x0000707f⟩]

/-- The rows of `44_muldiv.md`. -/
def mulDivRows : List OpcodeRow := [
  ⟨"MUL", 0x02000033, 0xfe00707f⟩,
  ⟨"MULH", 0x02001033, 0xfe00707f⟩,
  ⟨"MULHSU", 0x02002033, 0xfe00707f⟩,
  ⟨"MULHU", 0x02003033, 0xfe00707f⟩,
  ⟨"DIV", 0x02004033, 0xfe00707f⟩,
  ⟨"DIVU", 0x02005033, 0xfe00707f⟩,
  ⟨"REM", 0x02006033, 0xfe00707f⟩,
  ⟨"REMU", 0x02007033, 0xfe00707f⟩,
  ⟨"MULW", 0x0200003b, 0xfe00707f⟩,
  ⟨"DIVW", 0x0200403b, 0xfe00707f⟩,
  ⟨"DIVUW", 0x0200503b, 0xfe00707f⟩,
  ⟨"REMW", 0x0200603b, 0xfe00707f⟩,
  ⟨"REMUW", 0x0200703b, 0xfe00707f⟩]

/-- The rows of `45_csr_system.md`. -/
def systemRows : List OpcodeRow := [
  ⟨"CSRRW", 0x00001073, 0x0000707f⟩,
  ⟨"CSRRS", 0x00002073, 0x0000707f⟩,
  ⟨"CSRRC", 0x00003073, 0x0000707f⟩,
  ⟨"CSRRWI", 0x00005073, 0x0000707f⟩,
  ⟨"CSRRSI", 0x00006073, 0x0000707f⟩,
  ⟨"CSRRCI", 0x00007073, 0x0000707f⟩,
  ⟨"FENCE", 0x0000000f, 0x0000707f⟩,
  ⟨"ECALL", 0x00000073, 0xfff0707f⟩,
  ⟨"EBREAK", 0x00100073, 0xfff0707f⟩]

/-- spec/opcode_table.json: 71 rows. -/
def opcodeTable : List OpcodeRow := integerRows ++ controlRows ++ loadStoreRows ++ mulDivRows ++ systemRows

/-! ## The encoder -/

/-- R-type word (R83). -/
def encR (funct7 : BitVec 7) (rs2 rs1 : RegId) (funct3 : BitVec 3) (rd : RegId) (opcode : BitVec 7) : BitVec 32 :=
  funct7 ++ rs2 ++ rs1 ++ funct3 ++ rd ++ opcode

/-- I-type word (R83). -/
def encI (imm : BitVec 12) (rs1 : RegId) (funct3 : BitVec 3) (rd : RegId) (opcode : BitVec 7) : BitVec 32 :=
  imm ++ rs1 ++ funct3 ++ rd ++ opcode

/-- I-type word of a 64-bit shift-immediate: `funct6` over a 6-bit amount (R89). -/
def encSh6 (funct6 : BitVec 6) (shamt : BitVec 6) (rs1 : RegId) (funct3 : BitVec 3) (rd : RegId) (opcode : BitVec 7) :
    BitVec 32 :=
  funct6 ++ shamt ++ rs1 ++ funct3 ++ rd ++ opcode

/-- S-type word (R83). -/
def encS (imm : BitVec 12) (rs2 rs1 : RegId) (funct3 : BitVec 3) (opcode : BitVec 7) : BitVec 32 :=
  imm.extractLsb' 5 7 ++ rs2 ++ rs1 ++ funct3 ++ imm.extractLsb' 0 5 ++ opcode

/-- B-type word (R83); bit 0 of the offset has no place in it. -/
def encB (imm : BitVec 13) (rs2 rs1 : RegId) (funct3 : BitVec 3) (opcode : BitVec 7) : BitVec 32 :=
  imm.extractLsb' 12 1 ++ imm.extractLsb' 5 6 ++ rs2 ++ rs1 ++ funct3 ++ imm.extractLsb' 1 4 ++ imm.extractLsb' 11 1 ++ opcode

/-- U-type word (R83); the low 12 bits of the value have no place in it. -/
def encU (imm : BitVec 32) (rd : RegId) (opcode : BitVec 7) : BitVec 32 := imm.extractLsb' 12 20 ++ rd ++ opcode

/-- J-type word (R83); bit 0 of the offset has no place in it. -/
def encJ (imm : BitVec 21) (rd : RegId) (opcode : BitVec 7) : BitVec 32 :=
  imm.extractLsb' 20 1 ++ imm.extractLsb' 1 10 ++ imm.extractLsb' 11 1 ++ imm.extractLsb' 12 8 ++ rd ++ opcode

/-- The word of a well-formed instruction (R93 to R97). FENCE, ECALL and EBREAK get zeros in the fields the decoder does not
examine (assumption log 11). -/
def encode : Instr → BitVec 32
  | .lui rd imm => encU imm rd 0b0110111#7
  | .auipc rd imm => encU imm rd 0b0010111#7
  | .addi rd rs1 imm => encI imm rs1 0b000#3 rd 0b0010011#7
  | .slti rd rs1 imm => encI imm rs1 0b010#3 rd 0b0010011#7
  | .sltiu rd rs1 imm => encI imm rs1 0b011#3 rd 0b0010011#7
  | .xori rd rs1 imm => encI imm rs1 0b100#3 rd 0b0010011#7
  | .ori rd rs1 imm => encI imm rs1 0b110#3 rd 0b0010011#7
  | .andi rd rs1 imm => encI imm rs1 0b111#3 rd 0b0010011#7
  | .slli rd rs1 shamt => encSh6 0b000000#6 shamt rs1 0b001#3 rd 0b0010011#7
  | .srli rd rs1 shamt => encSh6 0b000000#6 shamt rs1 0b101#3 rd 0b0010011#7
  | .srai rd rs1 shamt => encSh6 0b010000#6 shamt rs1 0b101#3 rd 0b0010011#7
  | .add rd rs1 rs2 => encR 0b0000000#7 rs2 rs1 0b000#3 rd 0b0110011#7
  | .sub rd rs1 rs2 => encR 0b0100000#7 rs2 rs1 0b000#3 rd 0b0110011#7
  | .sll rd rs1 rs2 => encR 0b0000000#7 rs2 rs1 0b001#3 rd 0b0110011#7
  | .slt rd rs1 rs2 => encR 0b0000000#7 rs2 rs1 0b010#3 rd 0b0110011#7
  | .sltu rd rs1 rs2 => encR 0b0000000#7 rs2 rs1 0b011#3 rd 0b0110011#7
  | .xor rd rs1 rs2 => encR 0b0000000#7 rs2 rs1 0b100#3 rd 0b0110011#7
  | .srl rd rs1 rs2 => encR 0b0000000#7 rs2 rs1 0b101#3 rd 0b0110011#7
  | .sra rd rs1 rs2 => encR 0b0100000#7 rs2 rs1 0b101#3 rd 0b0110011#7
  | .or rd rs1 rs2 => encR 0b0000000#7 rs2 rs1 0b110#3 rd 0b0110011#7
  | .and rd rs1 rs2 => encR 0b0000000#7 rs2 rs1 0b111#3 rd 0b0110011#7
  | .addiw rd rs1 imm => encI imm rs1 0b000#3 rd 0b0011011#7
  | .slliw rd rs1 shamt => encR 0b0000000#7 shamt rs1 0b001#3 rd 0b0011011#7
  | .srliw rd rs1 shamt => encR 0b0000000#7 shamt rs1 0b101#3 rd 0b0011011#7
  | .sraiw rd rs1 shamt => encR 0b0100000#7 shamt rs1 0b101#3 rd 0b0011011#7
  | .addw rd rs1 rs2 => encR 0b0000000#7 rs2 rs1 0b000#3 rd 0b0111011#7
  | .subw rd rs1 rs2 => encR 0b0100000#7 rs2 rs1 0b000#3 rd 0b0111011#7
  | .sllw rd rs1 rs2 => encR 0b0000000#7 rs2 rs1 0b001#3 rd 0b0111011#7
  | .srlw rd rs1 rs2 => encR 0b0000000#7 rs2 rs1 0b101#3 rd 0b0111011#7
  | .sraw rd rs1 rs2 => encR 0b0100000#7 rs2 rs1 0b101#3 rd 0b0111011#7
  | .jal rd imm => encJ imm rd 0b1101111#7
  | .jalr rd rs1 imm => encI imm rs1 0b000#3 rd 0b1100111#7
  | .beq rs1 rs2 imm => encB imm rs2 rs1 0b000#3 0b1100011#7
  | .bne rs1 rs2 imm => encB imm rs2 rs1 0b001#3 0b1100011#7
  | .blt rs1 rs2 imm => encB imm rs2 rs1 0b100#3 0b1100011#7
  | .bge rs1 rs2 imm => encB imm rs2 rs1 0b101#3 0b1100011#7
  | .bltu rs1 rs2 imm => encB imm rs2 rs1 0b110#3 0b1100011#7
  | .bgeu rs1 rs2 imm => encB imm rs2 rs1 0b111#3 0b1100011#7
  | .lb rd rs1 imm => encI imm rs1 0b000#3 rd 0b0000011#7
  | .lh rd rs1 imm => encI imm rs1 0b001#3 rd 0b0000011#7
  | .lw rd rs1 imm => encI imm rs1 0b010#3 rd 0b0000011#7
  | .ld rd rs1 imm => encI imm rs1 0b011#3 rd 0b0000011#7
  | .lbu rd rs1 imm => encI imm rs1 0b100#3 rd 0b0000011#7
  | .lhu rd rs1 imm => encI imm rs1 0b101#3 rd 0b0000011#7
  | .lwu rd rs1 imm => encI imm rs1 0b110#3 rd 0b0000011#7
  | .sb rs1 rs2 imm => encS imm rs2 rs1 0b000#3 0b0100011#7
  | .sh rs1 rs2 imm => encS imm rs2 rs1 0b001#3 0b0100011#7
  | .sw rs1 rs2 imm => encS imm rs2 rs1 0b010#3 0b0100011#7
  | .sd rs1 rs2 imm => encS imm rs2 rs1 0b011#3 0b0100011#7
  | .mul rd rs1 rs2 => encR 0b0000001#7 rs2 rs1 0b000#3 rd 0b0110011#7
  | .mulh rd rs1 rs2 => encR 0b0000001#7 rs2 rs1 0b001#3 rd 0b0110011#7
  | .mulhsu rd rs1 rs2 => encR 0b0000001#7 rs2 rs1 0b010#3 rd 0b0110011#7
  | .mulhu rd rs1 rs2 => encR 0b0000001#7 rs2 rs1 0b011#3 rd 0b0110011#7
  | .div rd rs1 rs2 => encR 0b0000001#7 rs2 rs1 0b100#3 rd 0b0110011#7
  | .divu rd rs1 rs2 => encR 0b0000001#7 rs2 rs1 0b101#3 rd 0b0110011#7
  | .rem rd rs1 rs2 => encR 0b0000001#7 rs2 rs1 0b110#3 rd 0b0110011#7
  | .remu rd rs1 rs2 => encR 0b0000001#7 rs2 rs1 0b111#3 rd 0b0110011#7
  | .mulw rd rs1 rs2 => encR 0b0000001#7 rs2 rs1 0b000#3 rd 0b0111011#7
  | .divw rd rs1 rs2 => encR 0b0000001#7 rs2 rs1 0b100#3 rd 0b0111011#7
  | .divuw rd rs1 rs2 => encR 0b0000001#7 rs2 rs1 0b101#3 rd 0b0111011#7
  | .remw rd rs1 rs2 => encR 0b0000001#7 rs2 rs1 0b110#3 rd 0b0111011#7
  | .remuw rd rs1 rs2 => encR 0b0000001#7 rs2 rs1 0b111#3 rd 0b0111011#7
  | .csrrw rd rs1 csr => encI csr rs1 0b001#3 rd 0b1110011#7
  | .csrrs rd rs1 csr => encI csr rs1 0b010#3 rd 0b1110011#7
  | .csrrc rd rs1 csr => encI csr rs1 0b011#3 rd 0b1110011#7
  | .csrrwi rd uimm csr => encI csr uimm 0b101#3 rd 0b1110011#7
  | .csrrsi rd uimm csr => encI csr uimm 0b110#3 rd 0b1110011#7
  | .csrrci rd uimm csr => encI csr uimm 0b111#3 rd 0b1110011#7
  | .fence => encI 0x0#12 0#5 0b000#3 0#5 0b0001111#7
  | .ecall => encI 0x0#12 0#5 0b000#3 0#5 0b1110011#7
  | .ebreak => encI 0x1#12 0#5 0b000#3 0#5 0b1110011#7

end Sys2Proof
end

