-- ==== Sys2Proof/Machine/Launch.lean ====
section
/-! DEFINITION. The values `State.reset` gives to the parameters R11 (`00_scope.md`) and R282 (`70_reset_and_hazards.md`) leave
open. Every one is the MODEL'S choice, named in the assumption log; a launch with other values is another `State` (the fields
hold any). -/

namespace Sys2Proof.Machine

/-- `MEM_SIZE` at reset: `0x1000` bytes, the size of the spec's own examples (DESIGN CHOICE, assumption log 1, unsafe). -/
def launchMemSize : Nat := 0x1000

/-- `INIT_PC` at reset: `0x8000_0000`, the start of the spec's own examples (DESIGN CHOICE, assumption log 2, unsafe). -/
def launchPc : Word := 0x80000000

/-- `INIT_X` at reset: `x[1] .. x[31]` are 0 (DESIGN CHOICE, assumption log 3, unsafe). -/
def launchX : Vector Word 31 := Vector.replicate 31 0

/-- `INIT_CSR` at reset: every storage CSR is 0 (DESIGN CHOICE, assumption log 4, unsafe). -/
def launchCsrs : List (Nat × Word) := []

end Sys2Proof.Machine
end

