-- ==== Sys2Proof/Machine/Sparse.lean ====
section
/-! DEFINITION. Sparse storage: a bank of `w`-bit cells addressed by natural numbers, as a list of (address, value) pairs in one
canonical form (addresses strictly rising, no entry equal to 0, which is what an unlisted address reads as). RAM (R39) and the
CSR bank (R30) are held so; equal contents are equal lists. -/

namespace Sys2Proof.Machine

/-- The value of cell `k`; 0 where nothing is listed. -/
def sparseGet {w : Nat} : List (Nat × BitVec w) → Nat → BitVec w
  | [], _ => 0
  | (j, v) :: rest, k => if k = j then v else sparseGet rest k

/-- The list without any entry for `k`. -/
def sparseErase {w : Nat} : List (Nat × BitVec w) → Nat → List (Nat × BitVec w)
  | [], _ => []
  | (j, v) :: rest, k => if k = j then sparseErase rest k else (j, v) :: sparseErase rest k

/-- The entry `(k, v)` put before the first larger address. -/
def sparseInsert {w : Nat} : List (Nat × BitVec w) → Nat → BitVec w → List (Nat × BitVec w)
  | [], k, v => [(k, v)]
  | (j, u) :: rest, k, v => if k < j then (k, v) :: (j, u) :: rest else (j, u) :: sparseInsert rest k v

/-- Write `v` to cell `k`. Writing 0 removes the entry. -/
def sparseSet {w : Nat} (l : List (Nat × BitVec w)) (k : Nat) (v : BitVec w) : List (Nat × BitVec w) :=
  if v = 0 then sparseErase l k else sparseInsert (sparseErase l k) k v

/-- The list is canonical and its addresses are at least `lo`. -/
def sparseFrom {w : Nat} (lo : Nat) : List (Nat × BitVec w) → Bool
  | [] => true
  | (k, v) :: rest => decide (lo ≤ k) && decide (v ≠ 0) && sparseFrom (k + 1) rest

/-- The canonical form: addresses strictly rising, no entry equal to 0. -/
def sparseCanonical {w : Nat} (l : List (Nat × BitVec w)) : Bool := sparseFrom 0 l

end Sys2Proof.Machine
end

