-- ==== Sys2Proof/Machine/State.lean ====
section
/-! DEFINITION. The architectural state (R20 `10_state.md`: registers, pc, RAM, CSR bank, "and nothing else"), the outcome type of
a step (R113 `40_fetch_and_step.md`), the reasons a step can stop, and the state after reset (R43, R282). -/

namespace Sys2Proof.Machine

/-- The sizes a Bus or Memory access has: 1, 2, 4 or 8 bytes (R61; the type admits no other, D26). -/
inductive AccessSize where
  | b1 | b2 | b4 | b8
deriving DecidableEq, Repr

/-- The three exception kinds (R245 `60_exceptions.md`), each with the payload the spec gives it. -/
inductive ExceptionKind where
  /-- Raised by the Bus on behalf of Fetch or of a load or store when `(address, size)` is not wholly inside the RAM window
  (R57, R247). Safe: the spec's own exception. -/
  | invalidMemoryAccess (address : Word) (size : AccessSize)
  /-- Raised by Decode for a word that matches no row of the opcode table (R98, R246). Safe: the spec's own exception. -/
  | undecodableInstruction (raw : BitVec 32)
  /-- Raised by the CSR block for an address of 4096 or more (R37); no step raises it (R248). Safe. -/
  | invalidCsrAccess (address : Nat)
deriving DecidableEq, Repr

/-- The two halt signals (R250). -/
inductive HaltKind where
  | ebreak | ecall
deriving DecidableEq, Repr

/-- The outcome of a step, handed to the driver (R113). -/
inductive StepOutcome where
  | retired
  | halt (h : HaltKind)
  | exception (k : ExceptionKind)
deriving DecidableEq, Repr

/-- `memory_controller_le` (R39, R50): a RAM of `size` bytes. `cells` lists the bytes that are not 0, by device-local offset;
RAM is "zero-initialized at creation", so an unlisted offset reads 0. -/
structure Memory where
  /-- `MEM_SIZE`: the fixed capacity; no step changes it. -/
  size : Nat
  /-- The bytes other than 0, by offset `0 .. size - 1`. -/
  cells : List Host.Cell
deriving DecidableEq, Repr

/-- The memory's canonical form: offsets strictly rising and below the capacity, no entry 0, and a capacity R11 admits. -/
def Memory.wf (m : Memory) : Bool :=
  sparseCanonical m.cells && m.cells.all (fun c => decide (c.1 < m.size)) &&
    decide (1 ≤ m.size) && decide (m.size ≤ Config.memSizeMax)

/-- The machine's state (R20). -/
structure State where
  /-- `x[1] .. x[31]` (R21); entry `i - 1` is `x[i]`. `x[0]` has no storage (R22). -/
  x : Vector Word 31
  /-- The program counter (R25). -/
  pc : Word
  /-- RAM (R39). -/
  mem : Memory
  /-- The storage cells of the CSR bank that are not 0, by CSR address (R30, R35). `misa` and `mhartid` are virtual and have
  none (R31). -/
  csrs : List (Nat × Word)
  /-- THE MODEL'S OWN FIELD: the outcome the last step handed to the driver (R113); nothing in the machine reads it
  (assumption log 6). -/
  outcome : StepOutcome
deriving DecidableEq, Repr

/-- The CSR cells' canonical form: addresses strictly rising, below 4096 and not virtual, no entry 0. -/
def csrsWf (l : List (Nat × Word)) : Bool :=
  sparseCanonical l && l.all (fun c => decide (c.1 < Config.ncsr) && decide (c.1 ≠ 0x301) && decide (c.1 ≠ 0xF14))

/-- The state is one the canonical forms admit. -/
def State.wf (s : State) : Bool := s.mem.wf && csrsWf s.csrs

/-- Why a step stops: an exception "is a value returned up the call chain" to the driver (R245, R249). It carries the state after
the step, which tables R115 and R252 give, so that nothing of the spec's outcome is lost (assumption log 7). -/
inductive Fault where
  /-- Raised by `raise`: Fetch, Decode, and the loads and stores. Safe: the model stops where the document's own loop stops
  (R119); `after` is the state a driver that steps again starts from (R121, R258). -/
  | exception (kind : ExceptionKind) (after : State)
deriving DecidableEq, Repr

/-- Why an instruction has no meaning. -/
inductive Refusal where
  /-- Raised only by an arm of `exec` that has no meaning yet; every arm has one. Safe. -/
  | notModelled (mnemonic : String)
deriving DecidableEq, Repr

/-- What a step answers. -/
abbrev Result := Host.Outcome State Fault Refusal

/-- The state right after reset: creation of the blocks (R280), with RAM zero-initialised (R39) and no image loaded. The open
parameters have the values of `Machine/Launch.lean` (assumption log 1 to 5). -/
def State.reset : State :=
  { x := launchX, pc := launchPc, mem := { size := launchMemSize, cells := [] }, csrs := launchCsrs, outcome := .retired }

end Sys2Proof.Machine
end

