-- ==== Sys2Proof/Machine/Ops.lean ====
section
/-! DEFINITION. The named operations of the blocks (R293 `70_reset_and_hazards.md`): register file, CSR bank, memory controller,
Bus, the three ways a step ends, and fetch. Every instruction reads and writes state through these. -/

namespace Sys2Proof.Machine

/-! ## One component of the state replaced -/

/-- `pc <- p`. -/
def State.setPc (s : State) (p : Word) : State := { s with pc := p }

/-- The memory replaced. -/
def State.setMem (s : State) (m : Memory) : State := { s with mem := m }

/-- The CSR cells replaced. -/
def State.setCsrs (s : State) (l : List (Nat × Word)) : State := { s with csrs := l }

/-- The outcome of the step noted (assumption log 6). -/
def State.setOutcome (s : State) (o : StepOutcome) : State := { s with outcome := o }

/-! ## `register_file_32x64` -/

/-- `read(i)`: `x[i]`, and 0 for `i = 0` (R22, R23). -/
def State.readReg (s : State) (r : RegId) : Word :=
  if h : r.toNat = 0 then 0 else s.x[r.toNat - 1]'(by have := r.isLt; omega)

/-- `write(i, v)`: sets `x[i]`; a write to index 0 is discarded (R22, R23). -/
def State.writeReg (s : State) (r : RegId) (v : Word) : State :=
  if h : r.toNat = 0 then s else { s with x := s.x.set (r.toNat - 1) v (by have := r.isLt; omega) }

/-! ## `csr_regfile_4k` -/

/-- The address of machine-ISA (R33, D15). -/
def misaAddr : CsrAddr := 0x301

/-- The address of machine-hart-id (R34, D15). -/
def mhartidAddr : CsrAddr := 0xF14

/-- What machine-ISA reads: width class 2 in bits 63:62, and the bits of M (12), I (8) and C (2) (R33). -/
def misaValue : Word := 2#64 <<< 62 ||| 1#64 <<< 12 ||| 1#64 <<< 8 ||| 1#64 <<< 2

/-- What machine-hart-id reads: hart 0 (R34). -/
def mhartidValue : Word := 0

/-- `CsrRead(a)` (R31). -/
def csrRead (s : State) (a : CsrAddr) : Word :=
  if a = mhartidAddr then mhartidValue else if a = misaAddr then misaValue else sparseGet s.csrs a.toNat

/-- `CsrWrite(a, v)` (R32): the two virtual addresses ignore the write, every other stores all 64 bits. -/
def csrWrite (s : State) (a : CsrAddr) (v : Word) : State :=
  if a = mhartidAddr ∨ a = misaAddr then s else s.setCsrs (sparseSet s.csrs a.toNat v)

/-- `read` of the CSR block with a wide address (R37, D14): fails at 4096 and above. No instruction presents one. -/
def csrPortRead (s : State) (a : Nat) : Except ExceptionKind Word :=
  if a < Config.ncsr then .ok (csrRead s (BitVec.ofNat 12 a)) else .error (.invalidCsrAccess a)

/-- `write` of the CSR block with a wide address (R37, D14). -/
def csrPortWrite (s : State) (a : Nat) (v : Word) : Except ExceptionKind State :=
  if a < Config.ncsr then .ok (csrWrite s (BitVec.ofNat 12 a) v) else .error (.invalidCsrAccess a)

/-! ## `memory_controller_le` -/

/-- The number of bytes of an access (R61). -/
def AccessSize.bytes : AccessSize → Nat
  | .b1 => 1
  | .b2 => 2
  | .b4 => 4
  | .b8 => 8

/-- `MEM[o]` (R39). -/
def Memory.byte (m : Memory) (o : Nat) : Byte := sparseGet m.cells o

/-- `MEM[o] <- b`. -/
def Memory.setByte (m : Memory) (o : Nat) (b : Byte) : Memory := { m with cells := sparseSet m.cells o b }

/-- The little-endian value of the `n` bytes from offset `o` (R51): byte `i` weighs `256^i`. -/
def Memory.leNat (m : Memory) (o : Nat) : Nat → Nat
  | 0 => 0
  | n + 1 => (m.byte o).toNat + 256 * m.leNat (o + 1) n

/-- The memory with the `n` low bytes of `v` stored from offset `o` on, the least significant first (R52). -/
def Memory.setLe (m : Memory) (o : Nat) (v : Word) : Nat → Memory
  | 0 => m
  | n + 1 => (m.setByte o (v.setWidth 8)).setLe (o + 1) (v >>> 8) n

/-- `Memory.read(o, n)` (R51); the block called outside its array refuses, with no value (R53). The value is zero-extended to 64
bits (D25). -/
def Memory.read (m : Memory) (o : Nat) (n : AccessSize) : Option Word :=
  if o + n.bytes ≤ m.size then some (BitVec.ofNat 64 (m.leNat o n.bytes)) else none

/-- `Memory.write(o, n, v)` (R52); the block called outside its array refuses and changes nothing (R53). -/
def Memory.write (m : Memory) (o : Nat) (n : AccessSize) (v : Word) : Option Memory :=
  if o + n.bytes ≤ m.size then some (m.setLe o v n.bytes) else none

/-! ## `bus_address_router` -/

/-- The device-local offset of a physical address in the RAM window: `u(address) - MEM_BASE` (R56). -/
def ramOffset (a : Word) : Nat := a.toNat - Config.memBase

/-- The routing check (R57), in unbounded naturals: every byte of the access lies in the RAM window. -/
def accessValid (m : Memory) (a : Word) (n : AccessSize) : Bool :=
  decide (Config.memBase ≤ a.toNat) && decide (ramOffset a + n.bytes ≤ m.size)

/-- `Bus.read(address, size)`, the spec's `MemRead` (R59). -/
def busRead (s : State) (a : Word) (n : AccessSize) : Except ExceptionKind Word :=
  if accessValid s.mem a n then .ok (BitVec.ofNat 64 (s.mem.leNat (ramOffset a) n.bytes))
  else .error (.invalidMemoryAccess a n)

/-- `Bus.write(address, size, value)`, the spec's `MemWrite` (R60): all bytes or none. -/
def busWrite (s : State) (a : Word) (n : AccessSize) (v : Word) : Except ExceptionKind State :=
  if accessValid s.mem a n then .ok (s.setMem (s.mem.setLe (ramOffset a) v n.bytes))
  else .error (.invalidMemoryAccess a n)

/-- One byte as the Bus reads it: none outside the RAM window (R56, R68). -/
def State.byteAt (s : State) (a : Word) : Option Byte :=
  if accessValid s.mem a .b1 then some (s.mem.byte (ramOffset a)) else none

/-! ## The three ways a step ends (R16 `00_scope.md`, R113 `40_fetch_and_step.md`) -/

/-- The pseudocode ran to its end: outcome `Retired`. -/
def retire (s : State) : Result := .next (s.setOutcome .retired)

/-- `halt H` (R250): a signal to the driver, not an exception; the state is otherwise as it is, and the core keeps no halted
latch (R258). -/
def halt (h : HaltKind) (s : State) : Result := .next (s.setOutcome (.halt h))

/-- `raise K(info)`, TAKING AN EXCEPTION on this hardware (R245, R249, R252, R256): the step ends at once, the value goes to the
driver, and the state is what it is at the moment of the raise. Nothing is saved, no vector is taken, no mode changes, no CSR is
written; there is no trap return either (R257). -/
def raise (k : ExceptionKind) (s : State) : Result := .fault (.exception k (s.setOutcome (.exception k)))

/-! ## `fetch_unit` -/

/-- `fetch()` (R111): read 4 bytes at the pc through the Bus, then advance the pc by 4; a Bus exception leaves the pc. -/
def fetch (s : State) : Except ExceptionKind (BitVec 32 × State) :=
  match busRead s s.pc .b4 with
  | .error k => .error k
  | .ok v => .ok (v.setWidth 32, s.setPc (s.pc + 4))

/-- The state with the word `w` stored where the next fetch reads it: the four bytes at the pc, least significant first (the
loader's work, R281; assumption log 5). Where that fetch would raise there is no such place and nothing changes. -/
def placeWord (s : State) (w : BitVec 32) : State :=
  match busWrite s s.pc .b4 (w.setWidth 64) with
  | .ok t => t
  | .error _ => s

end Sys2Proof.Machine
end

