-- ==== Sys2Proof/Machine/Operands.lean ====
section
/-! DEFINITION. The operand forms: extension of immediates (R84 to R90 `30_encoding.md`), the instruction's own address (R116),
effective addresses (R185), the low words of the W-forms (R131) and shift amounts (R145, R159, R162). -/

namespace Sys2Proof.Machine

/-- `sext_64` of a 12-bit I or S immediate (R84, R85). -/
def imm12 (i : BitVec 12) : Word := i.signExtend 64

/-- `sext_64` of a 13-bit B offset (R86). -/
def immB (i : BitVec 13) : Word := i.signExtend 64

/-- `sext_64` of the 32-bit U value (R87, D20). -/
def immU (i : BitVec 32) : Word := i.signExtend 64

/-- `sext_64` of a 21-bit J offset (R88). -/
def immJ (i : BitVec 21) : Word := i.signExtend 64

/-- `uimm = zext_64(bits[19:15])` (R90). -/
def zimm (u : BitVec 5) : Word := u.setWidth 64

/-- `ia`, the address of the instruction being executed: `pc - 4`, because Fetch has advanced the pc (R116, D11). -/
def State.ia (s : State) : Word := s.pc - 4

/-- The effective address of a load or store, `x[rs1] + imm` modulo 2^64 (R185). -/
def State.ea (s : State) (rs1 : RegId) (imm : BitVec 12) : Word := s.readReg rs1 + imm12 imm

/-- The low 32 bits of a source, the operand of a W-form (R131). -/
def low32 (v : Word) : BitVec 32 := v.setWidth 32

/-- The W-form law: the 32-bit result sign-extended to 64 bits (R131). -/
def sextW (r : BitVec 32) : Word := r.signExtend 64

/-- The shift amount a 64-bit register shift takes: `u(b[5:0])` (R145, D21). -/
def shamt64 (b : Word) : Nat := (b.setWidth 6).toNat

/-- The shift amount a W-form register shift takes: `u(b[4:0])` (R159, D21). -/
def shamt32 (b : Word) : Nat := (b.setWidth 5).toNat

end Sys2Proof.Machine
end

