-- ==== Sys2Proof/Machine/Flags.lean ====
section
/-! DEFINITION. There are no flags on this hardware (R28 `10_state.md`: no carry, overflow, zero or sign flag; no instruction sets
one). What stands in their place are the comparisons, whose result is written to a register as 0 or 1 (R135, R136, R146, R147)
or decides a branch (R175 to R180). -/

namespace Sys2Proof.Machine

/-- `a <s b` (R14). -/
def ltS (a b : Word) : Bool := decide (a.toInt < b.toInt)

/-- `a <u b` (R14). -/
def ltU (a b : Word) : Bool := decide (a.toNat < b.toNat)

/-- `c ? 64'h1 : 64'h0`. -/
def boolWord (c : Bool) : Word := if c then 1 else 0

/-- The condition of BEQ: all 64 bits equal (R175). -/
def condEq (a b : Word) : Bool := decide (a = b)

/-- The condition of BNE (R176). -/
def condNe (a b : Word) : Bool := !condEq a b

/-- The condition of BGE, the complement of BLT (R178). -/
def condGeS (a b : Word) : Bool := !ltS a b

/-- The condition of BGEU, the complement of BLTU (R180). -/
def condGeU (a b : Word) : Bool := !ltU a b

end Sys2Proof.Machine
end

