-- ==== Sys2Proof/Machine/Control.lean ====
section
/-! DEFINITION. The control transfer instructions (`42_control_transfer.md`, R170 to R182): the only ones whose Execute writes the
pc. No target is checked (R181): a bad one faults at the next fetch. -/

namespace Sys2Proof.Machine

/-- `x[rd] <- ia + 4; pc <- t`, the link written before the pc (R170). Execute finds `pc = ia + 4` (R116), so the link is the pc
as Fetch left it. -/
def linkAndJump (rd : RegId) (target : Word) (s : State) : Result :=
  retire ((s.writeReg rd (s.ia + 4)).setPc target)

/-- `if cond then pc <- ia + imm`; a branch writes no register (R174). -/
def branch (cond : Word → Word → Bool) (rs1 rs2 : RegId) (imm : BitVec 13) (s : State) : Result :=
  if cond (s.readReg rs1) (s.readReg rs2) then retire (s.setPc (s.ia + immB imm)) else retire s

/-- JAL: jump and link (R172). -/
def execJal (rd : RegId) (imm : BitVec 21) (s : State) : Result := linkAndJump rd (s.ia + immJ imm) s

/-- JALR: jump and link register; the target is `x[rs1] + imm` with bit 0 cleared, taken before `rd` is written (R173, D12). -/
def execJalr (rd rs1 : RegId) (imm : BitVec 12) (s : State) : Result :=
  linkAndJump rd ((s.readReg rs1 + imm12 imm) &&& ~~~1#64) s

/-- BEQ: branch if equal (R175). -/
def execBeq (rs1 rs2 : RegId) (imm : BitVec 13) (s : State) : Result := branch condEq rs1 rs2 imm s

/-- BNE: branch if not equal (R176). -/
def execBne (rs1 rs2 : RegId) (imm : BitVec 13) (s : State) : Result := branch condNe rs1 rs2 imm s

/-- BLT: branch if less than, signed (R177). -/
def execBlt (rs1 rs2 : RegId) (imm : BitVec 13) (s : State) : Result := branch ltS rs1 rs2 imm s

/-- BGE: branch if greater or equal, signed (R178). -/
def execBge (rs1 rs2 : RegId) (imm : BitVec 13) (s : State) : Result := branch condGeS rs1 rs2 imm s

/-- BLTU: branch if less than, unsigned (R179). -/
def execBltu (rs1 rs2 : RegId) (imm : BitVec 13) (s : State) : Result := branch ltU rs1 rs2 imm s

/-- BGEU: branch if greater or equal, unsigned (R180). -/
def execBgeu (rs1 rs2 : RegId) (imm : BitVec 13) (s : State) : Result := branch condGeU rs1 rs2 imm s

end Sys2Proof.Machine
end

