-- ==== Sys2Proof/Machine/Alu.lean ====
section
/-! DEFINITION. The results `execute_alu_datapath` computes that are not one bit-vector operation: the multiply halves and the
divisions (`44_muldiv.md`), at 64 and at 32 bits. Operands are read as integers, the result is computed exactly and narrowed at
the end. -/

namespace Sys2Proof.Machine

/-- Bits 127:64 of the 128-bit two's-complement form of an exact product (R208, R209, R210). -/
def highHalf (p : Int) : Word := (BitVec.ofInt 128 p).extractLsb' 64 64

/-- MULH: `s(a) * s(b)`, high half (R208). -/
def mulHigh (a b : Word) : Word := highHalf (a.toInt * b.toInt)

/-- MULHSU: `s(a) * u(b)`, high half (R209). -/
def mulHighSU (a b : Word) : Word := highHalf (a.toInt * b.toNat)

/-- MULHU: `u(a) * u(b)`, high half (R210). -/
def mulHighU (a b : Word) : Word := highHalf (a.toNat * b.toNat)

/-- The signed quotient at width `w` (R220): all ones for divisor 0, the dividend for `-2^(w-1) / -1`, else rounded toward
zero. -/
def divS {w : Nat} (a b : BitVec w) : BitVec w :=
  if b = 0 then BitVec.allOnes w
  else if a = BitVec.intMin w ∧ b = BitVec.allOnes w then BitVec.intMin w
  else BitVec.ofInt w (a.toInt.tdiv b.toInt)

/-- The signed remainder at width `w` (R220): the dividend for divisor 0, 0 for `-2^(w-1) / -1`, else the dividend less the
divisor times the quotient. -/
def remS {w : Nat} (a b : BitVec w) : BitVec w :=
  if b = 0 then a
  else if a = BitVec.intMin w ∧ b = BitVec.allOnes w then 0
  else BitVec.ofInt w (a.toInt - b.toInt * a.toInt.tdiv b.toInt)

/-- The unsigned quotient at width `w` (R220): all ones for divisor 0. -/
def divU {w : Nat} (a b : BitVec w) : BitVec w :=
  if b = 0 then BitVec.allOnes w else BitVec.ofNat w (a.toNat / b.toNat)

/-- The unsigned remainder at width `w` (R220): the dividend for divisor 0. -/
def remU {w : Nat} (a b : BitVec w) : BitVec w :=
  if b = 0 then a else BitVec.ofNat w (a.toNat % b.toNat)

/-- Write a result to `rd` and retire: the end of every computational instruction (R130, R205). -/
def writeBack (rd : RegId) (v : Word) (s : State) : Result := retire (s.writeReg rd v)

end Sys2Proof.Machine
end

