-- ==== Sys2Proof/Machine/Integer.lean ====
section
/-! DEFINITION. The integer computational instructions (`41_integer_computational.md`, R130 to R162). Each reads its sources,
writes a 64-bit result to `x[rd]`, leaves the pc as Fetch left it, and retires (R130). -/

namespace Sys2Proof.Machine

/-- A register-register instruction: `x[rd] <- f(x[rs1], x[rs2])`, both read before `rd` is written (R23, R130). -/
def opReg (f : Word → Word → Word) (rd rs1 rs2 : RegId) (s : State) : Result :=
  writeBack rd (f (s.readReg rs1) (s.readReg rs2)) s

/-- A register-immediate instruction: `x[rd] <- f(x[rs1], imm)` with the immediate sign-extended (R84). -/
def opImm (f : Word → Word → Word) (rd rs1 : RegId) (imm : BitVec 12) (s : State) : Result :=
  writeBack rd (f (s.readReg rs1) (imm12 imm)) s

/-- A shift-immediate instruction: `x[rd] <- f(x[rs1], shamt)` (R89). -/
def opShift (f : Word → Nat → Word) (rd rs1 : RegId) (shamt : Nat) (s : State) : Result :=
  writeBack rd (f (s.readReg rs1) shamt) s

/-- LUI: load upper immediate (R132). -/
def execLui (rd : RegId) (imm : BitVec 32) (s : State) : Result := writeBack rd (immU imm) s

/-- AUIPC: add upper immediate to pc; the base is the address of the AUIPC itself (R133). -/
def execAuipc (rd : RegId) (imm : BitVec 32) (s : State) : Result := writeBack rd (s.ia + immU imm) s

/-- ADDI: add immediate (R134). -/
def execAddi (rd rs1 : RegId) (imm : BitVec 12) (s : State) : Result := opImm (fun a b => a + b) rd rs1 imm s

/-- SLTI: set if less than immediate, signed (R135). -/
def execSlti (rd rs1 : RegId) (imm : BitVec 12) (s : State) : Result := opImm (fun a b => boolWord (ltS a b)) rd rs1 imm s

/-- SLTIU: set if less than the sign-extended immediate, unsigned (R136). -/
def execSltiu (rd rs1 : RegId) (imm : BitVec 12) (s : State) : Result := opImm (fun a b => boolWord (ltU a b)) rd rs1 imm s

/-- XORI: exclusive-or immediate (R137). -/
def execXori (rd rs1 : RegId) (imm : BitVec 12) (s : State) : Result := opImm (fun a b => a ^^^ b) rd rs1 imm s

/-- ORI: or immediate (R138). -/
def execOri (rd rs1 : RegId) (imm : BitVec 12) (s : State) : Result := opImm (fun a b => a ||| b) rd rs1 imm s

/-- ANDI: and immediate (R139). -/
def execAndi (rd rs1 : RegId) (imm : BitVec 12) (s : State) : Result := opImm (fun a b => a &&& b) rd rs1 imm s

/-- SLLI: shift left logical immediate (R140). -/
def execSlli (rd rs1 : RegId) (shamt : BitVec 6) (s : State) : Result := opShift (fun a n => a <<< n) rd rs1 shamt.toNat s

/-- SRLI: shift right logical immediate (R141). -/
def execSrli (rd rs1 : RegId) (shamt : BitVec 6) (s : State) : Result := opShift (fun a n => a >>> n) rd rs1 shamt.toNat s

/-- SRAI: shift right arithmetic immediate (R142). -/
def execSrai (rd rs1 : RegId) (shamt : BitVec 6) (s : State) : Result := opShift (fun a n => a.sshiftRight n) rd rs1 shamt.toNat s

/-- ADD (R143). -/
def execAdd (rd rs1 rs2 : RegId) (s : State) : Result := opReg (fun a b => a + b) rd rs1 rs2 s

/-- SUB (R144). -/
def execSub (rd rs1 rs2 : RegId) (s : State) : Result := opReg (fun a b => a - b) rd rs1 rs2 s

/-- SLL: shift left logical (R145). -/
def execSll (rd rs1 rs2 : RegId) (s : State) : Result := opReg (fun a b => a <<< shamt64 b) rd rs1 rs2 s

/-- SLT: set if less than, signed (R146). -/
def execSlt (rd rs1 rs2 : RegId) (s : State) : Result := opReg (fun a b => boolWord (ltS a b)) rd rs1 rs2 s

/-- SLTU: set if less than, unsigned (R147). -/
def execSltu (rd rs1 rs2 : RegId) (s : State) : Result := opReg (fun a b => boolWord (ltU a b)) rd rs1 rs2 s

/-- XOR (R148). -/
def execXor (rd rs1 rs2 : RegId) (s : State) : Result := opReg (fun a b => a ^^^ b) rd rs1 rs2 s

/-- SRL: shift right logical (R149). -/
def execSrl (rd rs1 rs2 : RegId) (s : State) : Result := opReg (fun a b => a >>> shamt64 b) rd rs1 rs2 s

/-- SRA: shift right arithmetic (R150). -/
def execSra (rd rs1 rs2 : RegId) (s : State) : Result := opReg (fun a b => a.sshiftRight (shamt64 b)) rd rs1 rs2 s

/-- OR (R151). -/
def execOr (rd rs1 rs2 : RegId) (s : State) : Result := opReg (fun a b => a ||| b) rd rs1 rs2 s

/-- AND (R152). -/
def execAnd (rd rs1 rs2 : RegId) (s : State) : Result := opReg (fun a b => a &&& b) rd rs1 rs2 s

/-- ADDIW (R153). -/
def execAddiw (rd rs1 : RegId) (imm : BitVec 12) (s : State) : Result := opImm (fun a b => sextW (low32 (a + b))) rd rs1 imm s

/-- SLLIW (R154). -/
def execSlliw (rd rs1 : RegId) (shamt : BitVec 5) (s : State) : Result := opShift (fun a n => sextW (low32 a <<< n)) rd rs1 shamt.toNat s

/-- SRLIW (R155). -/
def execSrliw (rd rs1 : RegId) (shamt : BitVec 5) (s : State) : Result := opShift (fun a n => sextW (low32 a >>> n)) rd rs1 shamt.toNat s

/-- SRAIW (R156). -/
def execSraiw (rd rs1 : RegId) (shamt : BitVec 5) (s : State) : Result := opShift (fun a n => sextW ((low32 a).sshiftRight n)) rd rs1 shamt.toNat s

/-- ADDW (R157). -/
def execAddw (rd rs1 rs2 : RegId) (s : State) : Result := opReg (fun a b => sextW (low32 a + low32 b)) rd rs1 rs2 s

/-- SUBW (R158). -/
def execSubw (rd rs1 rs2 : RegId) (s : State) : Result := opReg (fun a b => sextW (low32 a - low32 b)) rd rs1 rs2 s

/-- SLLW (R159). -/
def execSllw (rd rs1 rs2 : RegId) (s : State) : Result := opReg (fun a b => sextW (low32 a <<< shamt32 b)) rd rs1 rs2 s

/-- SRLW (R160). -/
def execSrlw (rd rs1 rs2 : RegId) (s : State) : Result := opReg (fun a b => sextW (low32 a >>> shamt32 b)) rd rs1 rs2 s

/-- SRAW (R161). -/
def execSraw (rd rs1 rs2 : RegId) (s : State) : Result := opReg (fun a b => sextW ((low32 a).sshiftRight (shamt32 b))) rd rs1 rs2 s

end Sys2Proof.Machine
end

