-- ==== Sys2Proof/Machine/LoadStore.lean ====
section
/-! DEFINITION. The loads and stores (`43_loads_stores.md`, R185 to R204): one Bus access of the instruction's width at
`x[rs1] + imm`, any alignment (R189). A raise leaves registers and memory as they were (R187, R188). -/

namespace Sys2Proof.Machine

/-- R187: `ea <- x[rs1] + imm; v <- MemRead(ea, n); x[rd] <- ext(v)`. The read comes first and is done for `rd = 0` too. -/
def load (n : AccessSize) (ext : Word → Word) (rd rs1 : RegId) (imm : BitVec 12) (s : State) : Result :=
  match busRead s (s.ea rs1 imm) n with
  | .error k => raise k s
  | .ok v => retire (s.writeReg rd (ext v))

/-- R188: `ea <- x[rs1] + imm; MemWrite(ea, n, x[rs2])`; the Bus stores the low `n` bytes. -/
def store (n : AccessSize) (rs1 rs2 : RegId) (imm : BitVec 12) (s : State) : Result :=
  match busWrite s (s.ea rs1 imm) n (s.readReg rs2) with
  | .error k => raise k s
  | .ok t => retire t

/-- Sign-extension of the low `w` bits of a loaded value (R186). -/
def sextLow (w : Nat) (v : Word) : Word := (v.setWidth w).signExtend 64

/-- Zero-extension of the low `w` bits of a loaded value (R186). -/
def zextLow (w : Nat) (v : Word) : Word := (v.setWidth w).setWidth 64

/-- LB: load byte, signed (R191). -/
def execLb (rd rs1 : RegId) (imm : BitVec 12) (s : State) : Result := load .b1 (sextLow 8) rd rs1 imm s

/-- LH: load halfword, signed (R192). -/
def execLh (rd rs1 : RegId) (imm : BitVec 12) (s : State) : Result := load .b2 (sextLow 16) rd rs1 imm s

/-- LW: load word, signed (R193). -/
def execLw (rd rs1 : RegId) (imm : BitVec 12) (s : State) : Result := load .b4 (sextLow 32) rd rs1 imm s

/-- LD: load doubleword (R194). -/
def execLd (rd rs1 : RegId) (imm : BitVec 12) (s : State) : Result := load .b8 id rd rs1 imm s

/-- LBU: load byte, unsigned (R195). -/
def execLbu (rd rs1 : RegId) (imm : BitVec 12) (s : State) : Result := load .b1 (zextLow 8) rd rs1 imm s

/-- LHU: load halfword, unsigned (R196). -/
def execLhu (rd rs1 : RegId) (imm : BitVec 12) (s : State) : Result := load .b2 (zextLow 16) rd rs1 imm s

/-- LWU: load word, unsigned (R197). -/
def execLwu (rd rs1 : RegId) (imm : BitVec 12) (s : State) : Result := load .b4 (zextLow 32) rd rs1 imm s

/-- SB: store byte (R198). -/
def execSb (rs1 rs2 : RegId) (imm : BitVec 12) (s : State) : Result := store .b1 rs1 rs2 imm s

/-- SH: store halfword (R199). -/
def execSh (rs1 rs2 : RegId) (imm : BitVec 12) (s : State) : Result := store .b2 rs1 rs2 imm s

/-- SW: store word (R200). -/
def execSw (rs1 rs2 : RegId) (imm : BitVec 12) (s : State) : Result := store .b4 rs1 rs2 imm s

/-- SD: store doubleword (R201). -/
def execSd (rs1 rs2 : RegId) (imm : BitVec 12) (s : State) : Result := store .b8 rs1 rs2 imm s

end Sys2Proof.Machine
end

