-- ==== Sys2Proof/Machine/MulDiv.lean ====
section
/-! DEFINITION. The multiply and divide instructions (`44_muldiv.md`, R205 to R221). None raises, whatever the operands (R206); the
W-forms work on the low 32 bits and sign-extend (R131). -/

namespace Sys2Proof.Machine

/-- MUL: low 64 bits of the product (R207). -/
def execMul (rd rs1 rs2 : RegId) (s : State) : Result := opReg (fun a b => a * b) rd rs1 rs2 s

/-- MULH: high half, signed by signed (R208). -/
def execMulh (rd rs1 rs2 : RegId) (s : State) : Result := opReg (fun a b => mulHigh a b) rd rs1 rs2 s

/-- MULHSU: high half, signed by unsigned (R209). -/
def execMulhsu (rd rs1 rs2 : RegId) (s : State) : Result := opReg (fun a b => mulHighSU a b) rd rs1 rs2 s

/-- MULHU: high half, unsigned by unsigned (R210). -/
def execMulhu (rd rs1 rs2 : RegId) (s : State) : Result := opReg (fun a b => mulHighU a b) rd rs1 rs2 s

/-- DIV: signed quotient (R211). -/
def execDiv (rd rs1 rs2 : RegId) (s : State) : Result := opReg (fun a b => divS a b) rd rs1 rs2 s

/-- DIVU: unsigned quotient (R212). -/
def execDivu (rd rs1 rs2 : RegId) (s : State) : Result := opReg (fun a b => divU a b) rd rs1 rs2 s

/-- REM: signed remainder (R213). -/
def execRem (rd rs1 rs2 : RegId) (s : State) : Result := opReg (fun a b => remS a b) rd rs1 rs2 s

/-- REMU: unsigned remainder (R214). -/
def execRemu (rd rs1 rs2 : RegId) (s : State) : Result := opReg (fun a b => remU a b) rd rs1 rs2 s

/-- MULW (R215). -/
def execMulw (rd rs1 rs2 : RegId) (s : State) : Result := opReg (fun a b => sextW (low32 a * low32 b)) rd rs1 rs2 s

/-- DIVW (R216). -/
def execDivw (rd rs1 rs2 : RegId) (s : State) : Result := opReg (fun a b => sextW (divS (low32 a) (low32 b))) rd rs1 rs2 s

/-- DIVUW (R217). -/
def execDivuw (rd rs1 rs2 : RegId) (s : State) : Result := opReg (fun a b => sextW (divU (low32 a) (low32 b))) rd rs1 rs2 s

/-- REMW (R218). -/
def execRemw (rd rs1 rs2 : RegId) (s : State) : Result := opReg (fun a b => sextW (remS (low32 a) (low32 b))) rd rs1 rs2 s

/-- REMUW (R219). -/
def execRemuw (rd rs1 rs2 : RegId) (s : State) : Result := opReg (fun a b => sextW (remU (low32 a) (low32 b))) rd rs1 rs2 s

end Sys2Proof.Machine
end

