-- ==== Sys2Proof/Machine/System.lean ====
section
/-! DEFINITION. The CSR instructions, FENCE, ECALL and EBREAK (`45_csr_system.md`, R225 to R237). No CSR access is checked (R226,
R36); the operand and the old CSR value are taken before anything is written (R226 (a)). -/

namespace Sys2Proof.Machine

/-- CSRRW and CSRRWI with operand value `v` (R227, R230): the CSR is always written; with `rd = 0` it is not read. -/
def csrSwap (rd : RegId) (csr : CsrAddr) (v : Word) (s : State) : Result :=
  if rd = 0 then retire (csrWrite s csr v) else retire ((csrWrite s csr v).writeReg rd (csrRead s csr))

/-- CSRRS, CSRRC and their immediate forms with operand value `v` (R228, R229, R231, R232): the CSR is always read; the write of
`f(t, v)` is skipped when the operand's VALUE is 0. -/
def csrModify (f : Word → Word → Word) (rd : RegId) (csr : CsrAddr) (v : Word) (s : State) : Result :=
  let t := csrRead s csr
  let s1 := if v = 0 then s else csrWrite s csr (f t v)
  retire (s1.writeReg rd t)

/-- `t | v`. -/
def setBits (t v : Word) : Word := t ||| v

/-- `t & ~v`. -/
def clearBits (t v : Word) : Word := t &&& ~~~v

/-- CSRRW (R227). -/
def execCsrrw (rd rs1 : RegId) (csr : CsrAddr) (s : State) : Result := csrSwap rd csr (s.readReg rs1) s

/-- CSRRS (R228). -/
def execCsrrs (rd rs1 : RegId) (csr : CsrAddr) (s : State) : Result := csrModify setBits rd csr (s.readReg rs1) s

/-- CSRRC (R229). -/
def execCsrrc (rd rs1 : RegId) (csr : CsrAddr) (s : State) : Result := csrModify clearBits rd csr (s.readReg rs1) s

/-- CSRRWI (R230). -/
def execCsrrwi (rd : RegId) (uimm : BitVec 5) (csr : CsrAddr) (s : State) : Result := csrSwap rd csr (zimm uimm) s

/-- CSRRSI (R231). -/
def execCsrrsi (rd : RegId) (uimm : BitVec 5) (csr : CsrAddr) (s : State) : Result := csrModify setBits rd csr (zimm uimm) s

/-- CSRRCI (R232). -/
def execCsrrci (rd : RegId) (uimm : BitVec 5) (csr : CsrAddr) (s : State) : Result := csrModify clearBits rd csr (zimm uimm) s

/-- FENCE: nothing; every access is already in program order (R233, R70). -/
def execFence (s : State) : Result := retire s

/-- ECALL: `halt ECALL` (R234, D3). -/
def execEcall (s : State) : Result := halt .ecall s

/-- EBREAK: `halt EBREAK` (R235). -/
def execEbreak (s : State) : Result := halt .ebreak s

end Sys2Proof.Machine
end

