-- ==== Sys2Proof/Machine/Step.lean ====
section
/-! DEFINITION. `step()` (R114 `40_fetch_and_step.md`): Fetch, Decode, Execute, in this order and atomically. -/

namespace Sys2Proof.Machine

/-- One step (R114). A fetch exception leaves the pc at `ia`, a decode exception at `ia + 4` (R115). -/
def step (s : State) : Host.Outcome State Fault Refusal :=
  match fetch s with
  | .error k => raise k s
  | .ok (raw, s1) =>
    match decode raw with
    | .error (.undecodableInstruction w) => raise (.undecodableInstruction w) s1
    | .ok i => exec i s1

/-- `s` with the instruction whose bits are `w` (every bit from `nbits` up 0) stored where `step` fetches its next instruction
(assumption log 5). -/
def State.withFetchWord (s : State) (nbits w : Nat) : State := placeWord s (BitVec.ofNat 32 (w % 2 ^ nbits))

end Sys2Proof.Machine
end

