-- ==== Sys2Proof/Safety.lean ====
section
/-! DEFINITION. The terms claims are stated in: the outcome of a step and of a run (R113, R120, R291), what a safe run is, frames
(what stays as it was), and one predicate per shape of instruction rule. The predicates say results in exact integer arithmetic
narrowed at the end, not through the operations of the model they speak about. -/

namespace Sys2Proof.Machine

/-! ## Steps and runs -/

/-- The (outcome, state after) pair of a step (R291); none only if an instruction had no meaning. -/
def stepOutcome (s : State) : Option (StepOutcome × State) :=
  match step s with
  | .next t => some (t.outcome, t)
  | .fault (.exception k t) => some (.exception k, t)
  | .refused _ => none

/-- Where a run of at most `k` steps stands (R120). -/
inductive RunEnd where
  /-- Every step so far retired. -/
  | running (s : State)
  /-- The run ended at its first outcome other than `Retired`. -/
  | ended (o : StepOutcome) (s : State)
  /-- A step was refused (no instruction of this model is). -/
  | refused (r : Refusal)
deriving DecidableEq, Repr

/-- At most `k` steps from `s`, ending at the first outcome that is not `Retired` (R119, R120). -/
def runFor : Nat → State → RunEnd
  | 0, s => .running s
  | k + 1, s =>
    match step s with
    | .next t => if t.outcome = .retired then runFor k t else .ended t.outcome t
    | .fault (.exception e t) => .ended (.exception e) t
    | .refused r => .refused r

/-- A run of at most `k` steps has not failed: every step so far retired, or it ended by EBREAK, "the normal, deliberate end of a
program". `Halt(ECALL)` and every exception are ends to be treated as failures (R120, D18); a claim that takes an ECALL for a
normal end says so and looks at `runFor` itself. -/
def runSafe (k : Nat) (s : State) : Bool :=
  match runFor k s with
  | .running _ => true
  | .ended (.halt .ebreak) _ => true
  | .ended (.halt .ecall) _ => false
  | .ended (.exception _) _ => false
  | .ended .retired _ => false
  | .refused _ => false

/-- The first `k` steps from `S 0` retire and lead through `S 1`, `S 2`, … to `S k` (the sequence of R120). -/
def RetiresAlong (S : Nat → State) (k : Nat) : Prop :=
  ∀ i < k, stepOutcome (S i) = some (.retired, S (i + 1))

/-! ## Frames -/

/-- Every general register reads as before. -/
def SameRegs (s t : State) : Prop := ∀ r : RegId, t.readReg r = s.readReg r

/-- Every byte of memory reads as before, and the capacity is the same. -/
def SameMem (s t : State) : Prop := t.mem.size = s.mem.size ∧ ∀ a : Word, t.byteAt a = s.byteAt a

/-- Every CSR reads as before. -/
def SameCsrs (s t : State) : Prop := ∀ a : CsrAddr, csrRead t a = csrRead s a

/-- The registers after a write of `v` to `rd`: `rd` reads `v` (unless it is `x0`, which reads 0 always), every other register
reads as before. -/
def RegWritten (s t : State) (rd : RegId) (v : Word) : Prop :=
  t.readReg 0 = 0 ∧ ∀ r : RegId, t.readReg r = if r = rd ∧ r ≠ 0 then v else s.readReg r

/-- The step retired, wrote `v` to `rd`, and changed nothing else: no other register, not the pc, no byte of memory, no CSR. -/
def OnlyRegWritten (s t : State) (rd : RegId) (v : Word) : Prop :=
  t.outcome = .retired ∧ RegWritten s t rd v ∧ t.pc = s.pc ∧ SameMem s t ∧ SameCsrs s t

/-- Every byte of the access `(a, n)` lies in the RAM window, computed in unbounded naturals (R57). -/
abbrev InRam (s : State) (a : Word) (n : Nat) : Prop :=
  Config.memBase ≤ a.toNat ∧ a.toNat - Config.memBase + n ≤ s.mem.size

/-- The physical address `b` is one of the `n` addresses from `a` on. -/
abbrev InRange (b a : Word) (n : Nat) : Prop := a.toNat ≤ b.toNat ∧ b.toNat < a.toNat + n

/-- The little-endian value of the `n` bytes of RAM from physical address `a` on (R51): byte `i` weighs `256^i`. -/
def leValue (s : State) (a : Word) (n : Nat) : Nat :=
  ∑ i ∈ Finset.range n, (s.mem.byte (a.toNat - Config.memBase + i)).toNat * 256 ^ i

/-- The address `ia + offset` modulo 2^64, for a pc that Fetch has advanced to `ia + 4`. -/
def pcRelative (s : State) (offset : Int) : Word := BitVec.ofInt 64 (s.pc.toInt - 4 + offset)

/-! ## Values -/

/-- The signed reading of the low 32 bits of an integer. -/
def s32 (n : Int) : Int := n.bmod (2 ^ 32)

/-- The 64-bit pattern of the signed reading of the low 32 bits: "sign-extend the 32-bit result to 64 bits" (R131). -/
def w32 (n : Int) : Word := BitVec.ofInt 64 (s32 n)

/-- The signed quotient rounded toward zero with the corner cases of R220, on integers of width `w`. -/
def quotS (w : Nat) (a b : Int) : Int :=
  if b = 0 then -1 else if a = -(2 ^ (w - 1)) ∧ b = -1 then -(2 ^ (w - 1)) else a.tdiv b

/-- The signed remainder with the corner cases of R220, on integers of width `w`. -/
def remainS (w : Nat) (a b : Int) : Int :=
  if b = 0 then a else if a = -(2 ^ (w - 1)) ∧ b = -1 then 0 else a - b * a.tdiv b

/-- The unsigned quotient of R220 on naturals of width `w`. -/
def quotU (w a b : Nat) : Nat := if b = 0 then 2 ^ w - 1 else a / b

/-- The unsigned remainder of R220 on naturals. -/
def remainU (a b : Nat) : Nat := if b = 0 then a else a % b

/-- `c ? 1 : 0` as a 64-bit value. -/
def oneIf (c : Prop) [Decidable c] : Word := if c then 1 else 0

/-! ## Rule shapes -/

/-- Every word with `w & mask == pattern` decodes to `mk w`: the Encoding line of an instruction's rule. -/
def Encodes (mask pattern : BitVec 32) (mk : BitVec 32 → Instr) : Prop :=
  ∀ w : BitVec 32, w &&& mask = pattern → decode w = .ok (mk w)

/-- R-type rule (R83): `rd = bits[11:7]`, `rs1 = bits[19:15]`, `rs2 = bits[24:20]`; the instruction always retires, writes
`val x[rs1] x[rs2]` to `rd`, and changes nothing else. -/
def RegRegRule (pattern : BitVec 32) (mk : RegId → RegId → RegId → Instr) (val : Word → Word → Word) : Prop :=
  Encodes 0xFE00707F pattern (fun w => mk (w.extractLsb' 7 5) (w.extractLsb' 15 5) (w.extractLsb' 20 5)) ∧
  ∀ (rd rs1 rs2 : RegId) (s : State), ∃ t, exec (mk rd rs1 rs2) s = .next t ∧
    OnlyRegWritten s t rd (val (s.readReg rs1) (s.readReg rs2))

/-- I-type rule of a computational instruction (R83, R84): the immediate is the signed value of `bits[31:20]`. -/
def RegImmRule (pattern : BitVec 32) (mk : RegId → RegId → BitVec 12 → Instr) (val : Word → Int → Word) : Prop :=
  Encodes 0x0000707F pattern (fun w => mk (w.extractLsb' 7 5) (w.extractLsb' 15 5) (w.extractLsb' 20 12)) ∧
  ∀ (rd rs1 : RegId) (imm : BitVec 12) (s : State), ∃ t, exec (mk rd rs1 imm) s = .next t ∧
    OnlyRegWritten s t rd (val (s.readReg rs1) imm.toInt)

/-- Rule of a 64-bit shift-immediate (R89): the amount is `bits[25:20]`. -/
def Shift64Rule (pattern : BitVec 32) (mk : RegId → RegId → BitVec 6 → Instr) (val : Word → Nat → Word) : Prop :=
  Encodes 0xFC00707F pattern (fun w => mk (w.extractLsb' 7 5) (w.extractLsb' 15 5) (w.extractLsb' 20 6)) ∧
  ∀ (rd rs1 : RegId) (shamt : BitVec 6) (s : State), ∃ t, exec (mk rd rs1 shamt) s = .next t ∧
    OnlyRegWritten s t rd (val (s.readReg rs1) shamt.toNat)

/-- Rule of a W-form shift-immediate (R89): the amount is `bits[24:20]`. -/
def Shift32Rule (pattern : BitVec 32) (mk : RegId → RegId → BitVec 5 → Instr) (val : Word → Nat → Word) : Prop :=
  Encodes 0xFE00707F pattern (fun w => mk (w.extractLsb' 7 5) (w.extractLsb' 15 5) (w.extractLsb' 20 5)) ∧
  ∀ (rd rs1 : RegId) (shamt : BitVec 5) (s : State), ∃ t, exec (mk rd rs1 shamt) s = .next t ∧
    OnlyRegWritten s t rd (val (s.readReg rs1) shamt.toNat)

/-- U-type rule (R83, R87): the value is `bits[31:12]` over 12 zeros, read as a signed 32-bit integer; `val` may depend on the
instruction's address `ia = pc - 4`. -/
def UpperRule (pattern : BitVec 32) (mk : RegId → BitVec 32 → Instr) (val : State → Int → Word) : Prop :=
  Encodes 0x0000007F pattern (fun w => mk (w.extractLsb' 7 5) (w.extractLsb' 12 20 ++ 0#12)) ∧
  ∀ (rd : RegId) (imm : BitVec 32) (s : State), ∃ t, exec (mk rd imm) s = .next t ∧
    OnlyRegWritten s t rd (val s imm.toInt)

/-- Branch rule (R174): taken when `cond x[rs1] x[rs2]`, to `ia + imm`; else the pc stays as Fetch left it; nothing else
changes. -/
def BranchRule (pattern : BitVec 32) (mk : RegId → RegId → BitVec 13 → Instr) (cond : Word → Word → Prop) : Prop :=
  Encodes 0x0000707F pattern (fun w => mk (w.extractLsb' 15 5) (w.extractLsb' 20 5)
    (w.extractLsb' 31 1 ++ w.extractLsb' 7 1 ++ w.extractLsb' 25 6 ++ w.extractLsb' 8 4 ++ 0#1)) ∧
  ∀ (rs1 rs2 : RegId) (imm : BitVec 13) (s : State), ∃ t, exec (mk rs1 rs2 imm) s = .next t ∧
    t.outcome = .retired ∧ SameRegs s t ∧ SameMem s t ∧ SameCsrs s t ∧
    (cond (s.readReg rs1) (s.readReg rs2) → t.pc = pcRelative s imm.toInt) ∧
    (¬ cond (s.readReg rs1) (s.readReg rs2) → t.pc = s.pc)

/-- `x[rs1] + imm` modulo 2^64 (R185), in integers: what the model's `State.ea` must be. -/
def effAddr (s : State) (rs1 : RegId) (imm : BitVec 12) : Word := BitVec.ofInt 64 ((s.readReg rs1).toInt + imm.toInt)

/-- The step raised `InvalidMemoryAccess(a, n)`, and the state it leaves is the state as it was: registers, pc, memory and CSRs
(R73, R252). -/
def RaisesBadAccess (i : Instr) (s : State) (a : Word) (n : AccessSize) : Prop :=
  exec i s = .fault (.exception (.invalidMemoryAccess a n) (s.setOutcome (.exception (.invalidMemoryAccess a n))))

/-- Load rule (R187): the address is `x[rs1] + imm`; in RAM, at any alignment, `rd` gets `ext` of the little-endian value of the
`n` bytes there and nothing else changes; outside, the step raises. -/
def LoadRule (pattern : BitVec 32) (mk : RegId → RegId → BitVec 12 → Instr) (n : AccessSize) (ext : Nat → Word) : Prop :=
  Encodes 0x0000707F pattern (fun w => mk (w.extractLsb' 7 5) (w.extractLsb' 15 5) (w.extractLsb' 20 12)) ∧
  ∀ (rd rs1 : RegId) (imm : BitVec 12) (s : State), s.ea rs1 imm = effAddr s rs1 imm ∧
    (InRam s (s.ea rs1 imm) n.bytes → ∃ t, exec (mk rd rs1 imm) s = .next t ∧
      OnlyRegWritten s t rd (ext (leValue s (s.ea rs1 imm) n.bytes))) ∧
    (¬ InRam s (s.ea rs1 imm) n.bytes → RaisesBadAccess (mk rd rs1 imm) s (s.ea rs1 imm) n)

/-- Store rule (R188): the address is `x[rs1] + imm`; in RAM, at any alignment, byte `i` of `x[rs2]` goes to that address plus
`i`, for `i < n`, every other byte reads as before and nothing else changes; outside, the step raises. -/
def StoreRule (pattern : BitVec 32) (mk : RegId → RegId → BitVec 12 → Instr) (n : AccessSize) : Prop :=
  Encodes 0x0000707F pattern (fun w => mk (w.extractLsb' 15 5) (w.extractLsb' 20 5) (w.extractLsb' 25 7 ++ w.extractLsb' 7 5)) ∧
  ∀ (rs1 rs2 : RegId) (imm : BitVec 12) (s : State), s.ea rs1 imm = effAddr s rs1 imm ∧
    (InRam s (s.ea rs1 imm) n.bytes → ∃ t, exec (mk rs1 rs2 imm) s = .next t ∧
      t.outcome = .retired ∧ SameRegs s t ∧ t.pc = s.pc ∧ SameCsrs s t ∧ t.mem.size = s.mem.size ∧
      (∀ b : Word, ¬ InRange b (s.ea rs1 imm) n.bytes → t.byteAt b = s.byteAt b) ∧
      (∀ b : Word, InRange b (s.ea rs1 imm) n.bytes →
        t.byteAt b = some ((s.readReg rs2).extractLsb' (8 * (b.toNat - (s.ea rs1 imm).toNat)) 8))) ∧
    (¬ InRam s (s.ea rs1 imm) n.bytes → RaisesBadAccess (mk rs1 rs2 imm) s (s.ea rs1 imm) n)

/-- A CSR instruction's effect: `rd` gets the old CSR value; the CSR holds `v` afterwards unless it is `misa` (`0x301`) or
`mhartid` (`0xF14`), whose writes are ignored; nothing else changes. -/
def CsrUpdated (s t : State) (rd : RegId) (csr : CsrAddr) (v : Word) : Prop :=
  t.outcome = .retired ∧ RegWritten s t rd (csrRead s csr) ∧ t.pc = s.pc ∧ SameMem s t ∧
  ∀ a : CsrAddr, csrRead t a = if a = csr ∧ a ≠ 0x301 ∧ a ≠ 0xF14 then v else csrRead s a

/-- CSR rule, register form (R90, R226): operand `x[rs1]`, new CSR value `val old operand`. -/
def CsrRegRule (pattern : BitVec 32) (mk : RegId → RegId → CsrAddr → Instr) (val : Word → Word → Word) : Prop :=
  Encodes 0x0000707F pattern (fun w => mk (w.extractLsb' 7 5) (w.extractLsb' 15 5) (w.extractLsb' 20 12)) ∧
  ∀ (rd rs1 : RegId) (csr : CsrAddr) (s : State), ∃ t, exec (mk rd rs1 csr) s = .next t ∧
    CsrUpdated s t rd csr (val (csrRead s csr) (s.readReg rs1))

/-- CSR rule, immediate form (R90): operand `bits[19:15]` zero-extended. -/
def CsrImmRule (pattern : BitVec 32) (mk : RegId → BitVec 5 → CsrAddr → Instr) (val : Word → Word → Word) : Prop :=
  Encodes 0x0000707F pattern (fun w => mk (w.extractLsb' 7 5) (w.extractLsb' 15 5) (w.extractLsb' 20 12)) ∧
  ∀ (rd : RegId) (uimm : BitVec 5) (csr : CsrAddr) (s : State), ∃ t, exec (mk rd uimm csr) s = .next t ∧
    CsrUpdated s t rd csr (val (csrRead s csr) (BitVec.ofNat 64 uimm.toNat))

/-- A halt's effect: the outcome, and nothing else: the pc stays as Fetch left it (R250, R252). -/
def OnlyHalted (s t : State) (h : HaltKind) : Prop :=
  t.outcome = .halt h ∧ SameRegs s t ∧ t.pc = s.pc ∧ SameMem s t ∧ SameCsrs s t

/-- The answer of a step with the CSR cells of every state in it replaced by `l`. -/
def withCsrs (l : List (Nat × Word)) : Result → Result
  | .next t => .next (t.setCsrs l)
  | .fault (.exception k t) => .fault (.exception k (t.setCsrs l))
  | .refused r => .refused r

/-! ## Kinds of instruction -/

/-- The families of the outcome table R267. -/
inductive Family where
  | integer | control | load | store | mulDiv | csr | fence | halt
deriving DecidableEq, Repr

/-- The family of each instruction (R92, R267). -/
def family : Instr → Family
  | .lui _ _ => .integer
  | .auipc _ _ => .integer
  | .addi _ _ _ => .integer
  | .slti _ _ _ => .integer
  | .sltiu _ _ _ => .integer
  | .xori _ _ _ => .integer
  | .ori _ _ _ => .integer
  | .andi _ _ _ => .integer
  | .slli _ _ _ => .integer
  | .srli _ _ _ => .integer
  | .srai _ _ _ => .integer
  | .add _ _ _ => .integer
  | .sub _ _ _ => .integer
  | .sll _ _ _ => .integer
  | .slt _ _ _ => .integer
  | .sltu _ _ _ => .integer
  | .xor _ _ _ => .integer
  | .srl _ _ _ => .integer
  | .sra _ _ _ => .integer
  | .or _ _ _ => .integer
  | .and _ _ _ => .integer
  | .addiw _ _ _ => .integer
  | .slliw _ _ _ => .integer
  | .srliw _ _ _ => .integer
  | .sraiw _ _ _ => .integer
  | .addw _ _ _ => .integer
  | .subw _ _ _ => .integer
  | .sllw _ _ _ => .integer
  | .srlw _ _ _ => .integer
  | .sraw _ _ _ => .integer
  | .jal _ _ => .control
  | .jalr _ _ _ => .control
  | .beq _ _ _ => .control
  | .bne _ _ _ => .control
  | .blt _ _ _ => .control
  | .bge _ _ _ => .control
  | .bltu _ _ _ => .control
  | .bgeu _ _ _ => .control
  | .lb _ _ _ => .load
  | .lh _ _ _ => .load
  | .lw _ _ _ => .load
  | .ld _ _ _ => .load
  | .lbu _ _ _ => .load
  | .lhu _ _ _ => .load
  | .lwu _ _ _ => .load
  | .sb _ _ _ => .store
  | .sh _ _ _ => .store
  | .sw _ _ _ => .store
  | .sd _ _ _ => .store
  | .mul _ _ _ => .mulDiv
  | .mulh _ _ _ => .mulDiv
  | .mulhsu _ _ _ => .mulDiv
  | .mulhu _ _ _ => .mulDiv
  | .div _ _ _ => .mulDiv
  | .divu _ _ _ => .mulDiv
  | .rem _ _ _ => .mulDiv
  | .remu _ _ _ => .mulDiv
  | .mulw _ _ _ => .mulDiv
  | .divw _ _ _ => .mulDiv
  | .divuw _ _ _ => .mulDiv
  | .remw _ _ _ => .mulDiv
  | .remuw _ _ _ => .mulDiv
  | .csrrw _ _ _ => .csr
  | .csrrs _ _ _ => .csr
  | .csrrc _ _ _ => .csr
  | .csrrwi _ _ _ => .csr
  | .csrrsi _ _ _ => .csr
  | .csrrci _ _ _ => .csr
  | .fence => .fence
  | .ecall => .halt
  | .ebreak => .halt


/-- The one Bus access an instruction's Execute makes, as base register, offset and width (R186, R187, R188): the loads and stores
have one, no other instruction has. -/
def dataAccess : Instr → Option (RegId × BitVec 12 × AccessSize)
  | .lui _ _ => none
  | .auipc _ _ => none
  | .addi _ _ _ => none
  | .slti _ _ _ => none
  | .sltiu _ _ _ => none
  | .xori _ _ _ => none
  | .ori _ _ _ => none
  | .andi _ _ _ => none
  | .slli _ _ _ => none
  | .srli _ _ _ => none
  | .srai _ _ _ => none
  | .add _ _ _ => none
  | .sub _ _ _ => none
  | .sll _ _ _ => none
  | .slt _ _ _ => none
  | .sltu _ _ _ => none
  | .xor _ _ _ => none
  | .srl _ _ _ => none
  | .sra _ _ _ => none
  | .or _ _ _ => none
  | .and _ _ _ => none
  | .addiw _ _ _ => none
  | .slliw _ _ _ => none
  | .srliw _ _ _ => none
  | .sraiw _ _ _ => none
  | .addw _ _ _ => none
  | .subw _ _ _ => none
  | .sllw _ _ _ => none
  | .srlw _ _ _ => none
  | .sraw _ _ _ => none
  | .jal _ _ => none
  | .jalr _ _ _ => none
  | .beq _ _ _ => none
  | .bne _ _ _ => none
  | .blt _ _ _ => none
  | .bge _ _ _ => none
  | .bltu _ _ _ => none
  | .bgeu _ _ _ => none
  | .lb _ rs1 imm => some (rs1, imm, .b1)
  | .lh _ rs1 imm => some (rs1, imm, .b2)
  | .lw _ rs1 imm => some (rs1, imm, .b4)
  | .ld _ rs1 imm => some (rs1, imm, .b8)
  | .lbu _ rs1 imm => some (rs1, imm, .b1)
  | .lhu _ rs1 imm => some (rs1, imm, .b2)
  | .lwu _ rs1 imm => some (rs1, imm, .b4)
  | .sb rs1 _ imm => some (rs1, imm, .b1)
  | .sh rs1 _ imm => some (rs1, imm, .b2)
  | .sw rs1 _ imm => some (rs1, imm, .b4)
  | .sd rs1 _ imm => some (rs1, imm, .b8)
  | .mul _ _ _ => none
  | .mulh _ _ _ => none
  | .mulhsu _ _ _ => none
  | .mulhu _ _ _ => none
  | .div _ _ _ => none
  | .divu _ _ _ => none
  | .rem _ _ _ => none
  | .remu _ _ _ => none
  | .mulw _ _ _ => none
  | .divw _ _ _ => none
  | .divuw _ _ _ => none
  | .remw _ _ _ => none
  | .remuw _ _ _ => none
  | .csrrw _ _ _ => none
  | .csrrs _ _ _ => none
  | .csrrc _ _ _ => none
  | .csrrwi _ _ _ => none
  | .csrrsi _ _ _ => none
  | .csrrci _ _ _ => none
  | .fence => none
  | .ecall => none
  | .ebreak => none

end Sys2Proof.Machine
end

