-- ==== Sys2Proof/Certificates/Slice0/Obligations.lean ====
section
/-! DEFINITION. The statements for the provers. Each docstring names the rule of spec/ that the statement formalises, and the
decision D<n> of spec/92_eei_decisions.md or the assumption log entry that a clause rests on. -/

open Sys2Proof Sys2Proof.Machine

/-! ## Registers, CSRs, memory, Bus -/

/-- R22: register 0 is hardwired; an instruction with `rd = 0` still does everything else its rule says. -/
def Obligations.RegisterZeroIsHardwired : Prop :=
  (∀ s : State, s.readReg 0 = 0) ∧
  (∀ (s : State) (v : Word), s.writeReg 0 v = s) ∧
  (∀ (s : State) (r : RegId) (v : Word), r ≠ 0 → (s.writeReg r v).readReg r = v) ∧
  (∀ mk ∈ [Instr.lb, Instr.lh, Instr.lw, Instr.ld, Instr.lbu, Instr.lhu, Instr.lwu],
    ∀ (rd rs1 : RegId) (imm : BitVec 12) (s u : State) (k : ExceptionKind),
      exec (mk rd rs1 imm) s = .fault (.exception k u) → exec (mk 0 rs1 imm) s = .fault (.exception k u)) ∧
  (∀ (rd rs1 : RegId) (csr : CsrAddr) (s t : State), exec (.csrrs rd rs1 csr) s = .next t →
    ∃ u, exec (.csrrs 0 rs1 csr) s = .next u ∧ SameRegs s u ∧ u.csrs = t.csrs) ∧
  (∀ (rd : RegId) (imm : BitVec 21) (s t : State), exec (.jal rd imm) s = .next t →
    ∃ u, exec (.jal 0 imm) s = .next u ∧ SameRegs s u ∧ u.pc = t.pc) ∧
  (∀ (rd rs1 : RegId) (imm : BitVec 12) (s t : State), exec (.jalr rd rs1 imm) s = .next t →
    ∃ u, exec (.jalr 0 rs1 imm) s = .next u ∧ SameRegs s u ∧ u.pc = t.pc)

/-- R21, R23: the 32 registers are independent; a write to a register changes no other register and no other state. -/
def Obligations.RegisterWriteFrame : Prop :=
  ∀ (s : State) (r q : RegId) (v : Word),
    (s.writeReg r v).readReg q = (if q = r ∧ q ≠ 0 then v else s.readReg q) ∧
    (s.writeReg r v).pc = s.pc ∧ (s.writeReg r v).mem = s.mem ∧ (s.writeReg r v).csrs = s.csrs ∧
    (s.writeReg r v).outcome = s.outcome

/-- R32: a CSR write stores all 64 bits, except that `0xF14` and `0x301` ignore it; nothing else changes. -/
def Obligations.CsrWriteRule : Prop :=
  ∀ (s : State) (a : CsrAddr) (v : Word),
    (a = 0xF14 ∨ a = 0x301 → csrWrite s a v = s) ∧
    (¬ (a = 0xF14 ∨ a = 0x301) → csrRead (csrWrite s a v) a = v) ∧
    (∀ b : CsrAddr, b ≠ a → csrRead (csrWrite s a v) b = csrRead s b) ∧
    SameRegs s (csrWrite s a v) ∧ (csrWrite s a v).pc = s.pc ∧ (csrWrite s a v).mem = s.mem ∧
    (csrWrite s a v).outcome = s.outcome

/-- R33, R34 (the addresses and the layout of `misa` are the spec's supply, D15 and general knowledge): `mhartid` reads 0, `misa`
reads width class 2 and the bits of I, M and C, every other bit 0, in every state and after every write. -/
def Obligations.VirtualCsrsReadConstants : Prop :=
  ∀ (s : State) (a : CsrAddr) (v : Word),
    csrRead (csrWrite s a v) 0xF14 = 0 ∧ csrRead (csrWrite s a v) 0x301 = 0x8000000000001104 ∧
    (∀ n < 64, (csrRead s 0x301).getLsbD n = true ↔ (n = 63 ∨ n = 12 ∨ n = 8 ∨ n = 2))

/-- R37, R248 (the ports on a wide address are D14): the CSR block fails at 4096 and above and only there, and no step raises
`InvalidCsrAccess`. -/
def Obligations.InvalidCsrAccessUnreachable : Prop :=
  (∀ (s : State) (a : Nat) (v : Word), 4096 ≤ a →
    csrPortRead s a = .error (.invalidCsrAccess a) ∧ csrPortWrite s a v = .error (.invalidCsrAccess a)) ∧
  (∀ (s : State) (a : CsrAddr) (v : Word),
    csrPortRead s a.toNat = .ok (csrRead s a) ∧ csrPortWrite s a.toNat v = .ok (csrWrite s a v)) ∧
  (∀ (s t : State) (a : Nat), step s ≠ .fault (.exception (.invalidCsrAccess a) t))

/-- R51: a memory read assembles its bytes little-endian: byte `i` of the value is `MEM[o + i]`, and there are no other bits. -/
def Obligations.MemoryReadIsLittleEndian : Prop :=
  ∀ (m : Memory) (o : Nat) (n : AccessSize), o + n.bytes ≤ m.size →
    ∃ v : Word, m.read o n = some v ∧ v.toNat < 256 ^ n.bytes ∧
      ∀ i < n.bytes, v.extractLsb' (8 * i) 8 = m.byte (o + i)

/-- R52, R53 (bits above the width are ignored, D25; an access outside the array is refused, D6): a memory write changes exactly
its `n` bytes. -/
def Obligations.MemoryWriteChangesExactlyItsBytes : Prop :=
  ∀ (m : Memory) (o : Nat) (n : AccessSize) (v : Word),
    (o + n.bytes ≤ m.size → ∃ m', m.write o n v = some m' ∧ m'.size = m.size ∧
      ∀ p, m'.byte p = if o ≤ p ∧ p < o + n.bytes then v.extractLsb' (8 * (p - o)) 8 else m.byte p) ∧
    (m.size < o + n.bytes → m.read o n = none ∧ m.write o n v = none)

/-- R54: a write followed by a read of the same bytes with the same size gives the written value, cut to the width; a byte of it
read alone is that byte. (The invariant `wf` bounds the capacity by R11, so that no address of the access wraps.) -/
def Obligations.WriteThenReadReturnsTheValue : Prop :=
  ∀ (s t : State) (a v : Word) (n : AccessSize), s.wf = true → busWrite s a n v = .ok t →
    busRead t a n = .ok (BitVec.ofNat 64 (v.toNat % 256 ^ n.bytes)) ∧
    ∀ i < n.bytes, busRead t (a + BitVec.ofNat 64 i) .b1 = .ok ((v.extractLsb' (8 * i) 8).setWidth 64)

/-- R57, R59, R60 (the upper bound and all-or-none are D6, the payload D13): the Bus serves an access wholly in RAM, and refuses
any other as a whole with the address and size presented. -/
def Obligations.BusAccessIsAllOrNothing : Prop :=
  ∀ (s : State) (a v : Word) (n : AccessSize),
    (InRam s a n.bytes →
      busRead s a n = .ok (BitVec.ofNat 64 (leValue s a n.bytes)) ∧
      ∃ t, busWrite s a n v = .ok t ∧ SameRegs s t ∧ t.pc = s.pc ∧ SameCsrs s t ∧ t.mem.size = s.mem.size ∧
        ∀ b : Word, t.byteAt b =
          if InRange b a n.bytes then some (v.extractLsb' (8 * (b.toNat - a.toNat)) 8) else s.byteAt b) ∧
    (¬ InRam s a n.bytes →
      busRead s a n = .error (.invalidMemoryAccess a n) ∧ busWrite s a n v = .error (.invalidMemoryAccess a n))

/-- R56, R68 (the upper bound is D6): exactly the addresses of the RAM window hold a byte, `MEM[address - 0x8000_0000]`. -/
def Obligations.AddressMapIsTheRamWindow : Prop :=
  Config.memBase = 0x80000000 ∧ ∀ (s : State) (a : Word),
    (Config.memBase ≤ a.toNat ∧ a.toNat < Config.memBase + s.mem.size →
      s.byteAt a = some (s.mem.byte (a.toNat - Config.memBase))) ∧
    (¬ (Config.memBase ≤ a.toNat ∧ a.toNat < Config.memBase + s.mem.size) → s.byteAt a = none)

/-! ## Reset and the invariant -/

/-- The state after reset. From the spec: RAM is all 0 (R39), `x0`, `misa` and `mhartid` read their constants (R43). THE MODEL'S
CHOICES, for the open parameters of R282: 4096 bytes of RAM (log 1), pc `0x8000_0000` (log 2), registers 0 (log 3), storage CSRs 0
(log 4), `outcome` Retired (log 6). -/
def Obligations.ResetState : Prop :=
  State.reset.pc = 0x80000000 ∧ State.reset.mem.size = 0x1000 ∧ (∀ r : RegId, State.reset.readReg r = 0) ∧
  (∀ o : Nat, State.reset.mem.byte o = 0) ∧ State.reset.outcome = .retired ∧
  (∀ a : CsrAddr, csrRead State.reset a = if a = 0x301 then 0x8000000000001104 else 0)

/-- The invariant of `StepKeepsWellFormed` holds at reset. THE MODEL'S CHOICES: the canonical forms of memory and CSR cells (log 8)
and the capacity `0x1000` (log 1). From the spec: the bound that capacity meets (R11). -/
def Obligations.ResetIsWellFormed : Prop := State.reset.wf = true

/-- THE MODEL'S CHOICE, the canonical forms of memory and CSR cells (log 8), is kept by every step: retired, halted or ended by an
exception. From the spec: the capacity of RAM keeps its bound (R11) and never changes (R39), and every step has an outcome (R291),
so none is refused. -/
def Obligations.StepKeepsWellFormed : Prop :=
  ∀ s : State, s.wf = true →
    (∀ t, step s = .next t → t.wf = true ∧ t.mem.size = s.mem.size) ∧
    (∀ k t, step s = .fault (.exception k t) → t.wf = true ∧ t.mem.size = s.mem.size) ∧
    (∀ r, step s ≠ .refused r)

/-! ## Decoding -/

/-- Decode undoes encode: no bit of an operand is lost (R82 to R90, R93 to R97). -/
def Obligations.DecodeInvertsEncode : Prop := ∀ i : Instr, i.wf = true → decode (encode i) = .ok i

/-- Encode undoes decode, except for the fields FENCE, ECALL and EBREAK leave unexamined (R97); what decodes is well-formed
(R118). -/
def Obligations.EncodeInvertsDecode : Prop :=
  ∀ (w : BitVec 32) (i : Instr), decode w = .ok i →
    i.wf = true ∧ (i ≠ .fence → i ≠ .ecall → i ≠ .ebreak → encode i = w)

/-- The encoder's word of every instruction lies in the row of the opcode table that bears its name (R91, R92). -/
def Obligations.EncodedWordLiesInItsRow : Prop :=
  ∀ i : Instr, ∃ r ∈ opcodeTable, r.mnemonic = i.mnemonic ∧ r.matches (encode i) = true

/-- R101: every word that matches a row of the opcode table decodes, to that row's instruction; every other word is
undecodable. -/
def Obligations.DecodeIsTheOpcodeTable : Prop :=
  ∀ w : BitVec 32,
    (∀ r ∈ opcodeTable, r.matches w = true → ∃ i, decode w = .ok i ∧ i.mnemonic = r.mnemonic) ∧
    ((∀ r ∈ opcodeTable, r.matches w = false) → decode w = .error (.undecodableInstruction w))

/-- R104: worked encodings of every format. -/
def Obligations.WorkedEncodingsDecode : Prop :=
  decode 0x00500093 = .ok (.addi 1 0 5) ∧
  decode 0x402081B3 = .ok (.sub 3 1 2) ∧
  decode 0x43F35293 = .ok (.srai 5 6 63) ∧
  decode 0x800002B7 = .ok (.lui 5 0x80000000) ∧
  decode 0xFF1FF0EF = .ok (.jal 1 0x1FFFF0) ∧
  decode 0xFE009CE3 = .ok (.bne 1 0 0x1FF8) ∧
  decode 0x8005B503 = .ok (.ld 10 11 0x800) ∧
  decode 0xFE512E23 = .ok (.sw 2 5 0xFFC) ∧
  decode 0x0220C1BB = .ok (.divw 3 1 2) ∧
  decode 0x340FD2F3 = .ok (.csrrwi 5 31 0x340) ∧
  decode 0x0FF0000F = .ok .fence ∧
  decode 0x00100073 = .ok .ebreak

/-- R98, R104: the words the spec lists as undecodable. -/
def Obligations.ListedWordsAreUndecodable : Prop :=
  ∀ w ∈ ([0x00000000, 0xFFFFFFFF, 0x00000001, 0x00008082, 0x0000100F, 0x30200073, 0x10500073, 0x12000073, 0x00004073,
      0x06001013, 0x0200101B, 0x00002063, 0x00007003, 0x00004023, 0x00001067, 0x0000202F, 0x00000053, 0x04000033, 0x40001033,
      0x0200103B] : List (BitVec 32)), decode w = .error (.undecodableInstruction w)

/-! ## The step -/

/-- R114: a step is Fetch, Decode, Execute, and ends at the first of them that raises. -/
def Obligations.StepIsFetchDecodeExecute : Prop :=
  ∀ s : State,
    (∀ k, fetch s = .error k → step s = .fault (.exception k (s.setOutcome (.exception k)))) ∧
    (∀ w s1, fetch s = .ok (w, s1) → (∀ i, decode w = .ok i → step s = exec i s1) ∧
      (∀ e, decode w = .error e → step s =
        .fault (.exception (.undecodableInstruction w) (s1.setOutcome (.exception (.undecodableInstruction w))))))

/-- R111: Fetch reads 4 bytes at the pc through the Bus, advances the pc by 4 and gives the 32 bits, assembled little-endian; when
the Bus raises, so does Fetch, which then gives no state with another pc. -/
def Obligations.FetchReadsThenAdvances : Prop :=
  ∀ s : State,
    (∀ v, busRead s s.pc .b4 = .ok v → fetch s = .ok (v.extractLsb' 0 32, s.setPc (s.pc + 4))) ∧
    (∀ o, s.pc.toNat = Config.memBase + o → o + 4 ≤ s.mem.size → fetch s =
      .ok (s.mem.byte (o + 3) ++ s.mem.byte (o + 2) ++ s.mem.byte (o + 1) ++ s.mem.byte o, s.setPc (s.pc + 4))) ∧
    (∀ k, busRead s s.pc .b4 = .error k → fetch s = .error k)

/-- R63, R111, R114, R117: when the four bytes at the pc, least significant first, decode to an instruction, the step is that
instruction's execution with the pc already advanced; the pc need not be aligned. -/
def Obligations.StepRunsTheBytesAtThePc : Prop :=
  ∀ (s : State) (b0 b1 b2 b3 : Byte) (i : Instr),
    s.byteAt s.pc = some b0 → s.byteAt (s.pc + 1) = some b1 → s.byteAt (s.pc + 2) = some b2 → s.byteAt (s.pc + 3) = some b3 →
    decode (b3 ++ b2 ++ b1 ++ b0) = .ok i → step s = exec i (s.setPc (s.pc + 4))

/-- R112, R121 (the upper bound is D6, the payload D13, stepping again D18): a fetch not wholly in RAM raises with the pc and size
4 and changes nothing, and the next step does the same. -/
def Obligations.FetchOutsideRamRaises : Prop :=
  ∀ s : State, ¬ InRam s s.pc 4 →
    ∃ t, step s = .fault (.exception (.invalidMemoryAccess s.pc .b4) t) ∧ SameRegs s t ∧ t.pc = s.pc ∧ SameMem s t ∧
      SameCsrs s t ∧ step t = .fault (.exception (.invalidMemoryAccess s.pc .b4) t)

/-- R252: a step that does not retire leaves the whole state unchanged, except that the pc has advanced by 4 unless the fetch
itself failed; and which of Fetch, Decode and Execute raised what: a load or store raises with the effective address and width of
the fetched instruction. (That the access lies outside RAM as a whole is D6 and the payload D13, log 9; ECALL's halt is D3,
log 10.) -/
def Obligations.FailedStepLeavesTheState : Prop :=
  ∀ s t : State,
    (∀ k, step s = .fault (.exception k t) → SameRegs s t ∧ SameMem s t ∧ SameCsrs s t ∧
      ((¬ InRam s s.pc 4 ∧ k = .invalidMemoryAccess s.pc .b4 ∧ t.pc = s.pc) ∨
       (InRam s s.pc 4 ∧ t.pc = s.pc + 4 ∧ ∃ w, fetch s = .ok (w, s.setPc (s.pc + 4)) ∧
         ((decode w = .error (.undecodableInstruction w) ∧ k = .undecodableInstruction w) ∨
          ∃ i rs1 imm n, decode w = .ok i ∧ dataAccess i = some (rs1, imm, n) ∧ s.ea rs1 imm = effAddr s rs1 imm ∧
            k = .invalidMemoryAccess (s.ea rs1 imm) n ∧ ¬ InRam s (s.ea rs1 imm) n.bytes)))) ∧
    (∀ h, step s = .next t → t.outcome = .halt h →
      SameRegs s t ∧ SameMem s t ∧ SameCsrs s t ∧ t.pc = s.pc + 4)

/-- R267 (the rows for ECALL and FENCE rest on D3 and D2): the outcomes each family can have. -/
def Obligations.OutcomesByFamily : Prop :=
  ∀ (i : Instr) (s : State),
    (family i = .integer ∨ family i = .control ∨ family i = .mulDiv ∨ family i = .csr ∨ family i = .fence →
      ∃ t, exec i s = .next t ∧ t.outcome = .retired) ∧
    (family i = .load ∨ family i = .store →
      (∃ t, exec i s = .next t ∧ t.outcome = .retired) ∨ (∃ a n, ¬ InRam s a (AccessSize.bytes n) ∧ RaisesBadAccess i s a n)) ∧
    (family i = .halt → ∃ t h, exec i s = .next t ∧ t.outcome = .halt h)

/-- R250 (ECALL's halt is D3): a halt comes only from ECALL or EBREAK, each with its own signal, and leaves the pc behind it. -/
def Obligations.HaltsComeOnlyFromEcallEbreak : Prop :=
  ∀ (s t : State) (h : HaltKind), step s = .next t → t.outcome = .halt h →
    t.pc = s.pc + 4 ∧ ∃ w, fetch s = .ok (w, s.setPc (s.pc + 4)) ∧
      ((h = .ecall ∧ decode w = .ok .ecall) ∨ (h = .ebreak ∧ decode w = .ok .ebreak))

/-- R291: `step()` is a total, deterministic function from states to (state, outcome) pairs. -/
def Obligations.StepIsTotal : Prop := ∀ s : State, ∃ p, stepOutcome s = some p ∧ ∀ q, stepOutcome s = some q → q = p

/-- R39: only SB, SH, SW and SD change memory, and memory keeps its capacity. -/
def Obligations.OnlyStoresChangeMemory : Prop :=
  ∀ (i : Instr) (s t : State), exec i s = .next t → (family i ≠ .store → t.mem = s.mem) ∧ t.mem.size = s.mem.size

/-- R38: only the six CSR instructions touch the CSR bank; no exception and no halt does. -/
def Obligations.OnlyCsrInstructionsTouchTheCsrs : Prop :=
  (∀ (i : Instr) (s t : State), family i ≠ .csr → exec i s = .next t → t.csrs = s.csrs) ∧
  (∀ (s t : State) (k : ExceptionKind), step s = .fault (.exception k t) → t.csrs = s.csrs) ∧
  (∀ (s t : State) (h : HaltKind), step s = .next t → t.outcome = .halt h → t.csrs = s.csrs)

/-- R26, R170: besides Fetch, only JAL, JALR and the branches write the pc. -/
def Obligations.OnlyControlTransfersWriteThePc : Prop :=
  (∀ (i : Instr) (s t : State), family i ≠ .control → exec i s = .next t → t.pc = s.pc) ∧
  (∀ (i : Instr) (s t : State) (k : ExceptionKind), exec i s = .fault (.exception k t) → t.pc = s.pc)

/-- R23: an instruction writes at most one register. -/
def Obligations.AtMostOneRegisterWritten : Prop :=
  ∀ (i : Instr) (s t : State), exec i s = .next t →
    (∃ rd : RegId, ∀ r : RegId, r ≠ rd → t.readReg r = s.readReg r) ∧
    (family i = .store ∨ family i = .fence ∨ family i = .halt → SameRegs s t)

/-- R35, R287: no CSR has any effect on execution. A step that does not run a CSR instruction does the same whatever the CSR
cells hold, and leaves them as they were. -/
def Obligations.CsrsDoNotInfluenceExecution : Prop :=
  ∀ (s : State) (l : List (Nat × Word)),
    (∀ w s1 i, fetch s = .ok (w, s1) → decode w = .ok i → family i ≠ .csr) →
    step (s.setCsrs l) = withCsrs l (step s)

/-- R27: an even pc stays even, whatever the step does: an odd pc can arise only from an odd `INIT_PC`. -/
def Obligations.EvenPcStaysEven : Prop :=
  ∀ s t : State, s.pc.getLsbD 0 = false →
    (step s = .next t → t.pc.getLsbD 0 = false) ∧ (∀ k, step s = .fault (.exception k t) → t.pc.getLsbD 0 = false)

/-- R71, R203, R288: a word stored at the pc is the word the very next fetch reads. -/
def Obligations.StoreIsSeenByTheNextFetch : Prop :=
  ∀ (rs1 rs2 : RegId) (imm : BitVec 12) (s : State), s.ea rs1 imm = s.pc → InRam s (s.ea rs1 imm) 4 →
    ∃ t, exec (.sw rs1 rs2 imm) s = .next t ∧
      fetch t = .ok ((s.readReg rs2).extractLsb' 0 32, t.setPc (t.pc + 4))

/-- R120 (the definition of a run's end is D18). A run of `m` steps still goes on just when `m` steps retire one after the other; it
has ended just when, after some retired steps, fewer than `m`, comes the first step whose outcome is not `Retired`, with that
step's outcome and the state after it; it is never refused. Once ended it has ended for good, and one that goes on can be cut at
any step. It counts as not failed just when it goes on or ended by EBREAK. -/
def Obligations.RunEndsAtTheFirstFailure : Prop :=
  ∀ (m : Nat) (s : State),
    (∀ t, runFor m s = .running t ↔ ∃ S, S 0 = s ∧ S m = t ∧ RetiresAlong S m) ∧
    (∀ o t, runFor m s = .ended o t ↔
      o ≠ .retired ∧ ∃ S, ∃ j < m, S 0 = s ∧ RetiresAlong S j ∧ stepOutcome (S j) = some (o, t)) ∧
    (∀ r, runFor m s ≠ .refused r) ∧
    (∀ (n : Nat) (t : State), runFor m s = .running t → runFor (m + n) s = runFor n t) ∧
    (∀ (n : Nat) (o : StepOutcome) (t : State), runFor m s = .ended o t → runFor (m + n) s = .ended o t) ∧
    (runSafe m s = true ↔ (∃ t, runFor m s = .running t) ∨ ∃ t, runFor m s = .ended (.halt .ebreak) t)

/-- R121, R258 (D18): there is no halted or faulted latch: a step does not look at the outcome of the step before it, which is the
model's own field (log 6). -/
def Obligations.NoHaltedLatch : Prop := ∀ (s : State) (o : StepOutcome), step (s.setOutcome o) = step s

/-! ## Integer computational instructions -/

/-- R134, R143, R144: ADDI, ADD, SUB, modulo 2^64. -/
def Obligations.AddAndSubtract : Prop :=
  RegImmRule 0x00000013 .addi (fun a i => BitVec.ofInt 64 (a.toInt + i)) ∧
  RegRegRule 0x00000033 .add (fun a b => BitVec.ofNat 64 (a.toNat + b.toNat)) ∧
  RegRegRule 0x40000033 .sub (fun a b => BitVec.ofInt 64 (a.toInt - b.toInt))

/-- R137 to R139, R148, R151, R152: the bitwise instructions; immediates are sign-extended. -/
def Obligations.BitwiseLogic : Prop :=
  RegImmRule 0x00004013 .xori (fun a i => a ^^^ BitVec.ofInt 64 i) ∧
  RegImmRule 0x00006013 .ori (fun a i => a ||| BitVec.ofInt 64 i) ∧
  RegImmRule 0x00007013 .andi (fun a i => a &&& BitVec.ofInt 64 i) ∧
  RegRegRule 0x00004033 .xor (fun a b => a ^^^ b) ∧
  RegRegRule 0x00006033 .or (fun a b => a ||| b) ∧
  RegRegRule 0x00007033 .and (fun a b => a &&& b)

/-- R135, R136, R146, R147: signed and unsigned comparisons; SLTIU compares with the sign-extended immediate as unsigned. -/
def Obligations.SetIfLessThan : Prop :=
  RegImmRule 0x00002013 .slti (fun a i => oneIf (a.toInt < i)) ∧
  RegImmRule 0x00003013 .sltiu (fun a i => oneIf (a.toNat < (i % 2 ^ 64).toNat)) ∧
  RegRegRule 0x00002033 .slt (fun a b => oneIf (a.toInt < b.toInt)) ∧
  RegRegRule 0x00003033 .sltu (fun a b => oneIf (a.toNat < b.toNat))

/-- R140 to R142: shifts by an immediate, SRAI rounding toward minus infinity; the shift-immediate words with other upper bits are
undecodable. -/
def Obligations.ShiftByImmediate : Prop :=
  Shift64Rule 0x00001013 .slli (fun a n => BitVec.ofNat 64 (a.toNat * 2 ^ n)) ∧
  Shift64Rule 0x00005013 .srli (fun a n => BitVec.ofNat 64 (a.toNat / 2 ^ n)) ∧
  Shift64Rule 0x40005013 .srai (fun a n => BitVec.ofInt 64 (a.toInt / 2 ^ n)) ∧
  ∀ w : BitVec 32,
    (w &&& 0x0000707F = 0x00001013 → w.extractLsb' 26 6 ≠ 0 → decode w = .error (.undecodableInstruction w)) ∧
    (w &&& 0x0000707F = 0x00005013 → w.extractLsb' 26 6 ≠ 0 → w.extractLsb' 26 6 ≠ 0x10 →
      decode w = .error (.undecodableInstruction w))

/-- R145, R149, R150 (the low 6 bits are D21): shifts by a register. -/
def Obligations.ShiftByRegister : Prop :=
  RegRegRule 0x00001033 .sll (fun a b => BitVec.ofNat 64 (a.toNat * 2 ^ (b.toNat % 64))) ∧
  RegRegRule 0x00005033 .srl (fun a b => BitVec.ofNat 64 (a.toNat / 2 ^ (b.toNat % 64))) ∧
  RegRegRule 0x40005033 .sra (fun a b => BitVec.ofInt 64 (a.toInt / 2 ^ (b.toNat % 64)))

/-- R132, R133 (sign extension is D20, the base of AUIPC D11): LUI and AUIPC. -/
def Obligations.UpperImmediates : Prop :=
  UpperRule 0x00000037 .lui (fun _ i => BitVec.ofInt 64 i) ∧
  UpperRule 0x00000017 .auipc (fun s i => pcRelative s i)

/-- R131, R153, R157, R158: ADDIW, ADDW, SUBW: modulo 2^32, then sign-extended. -/
def Obligations.AddAndSubtractWord : Prop :=
  RegImmRule 0x0000001B .addiw (fun a i => w32 (a.toInt + i)) ∧
  RegRegRule 0x0000003B .addw (fun a b => w32 (a.toInt + b.toInt)) ∧
  RegRegRule 0x4000003B .subw (fun a b => w32 (a.toInt - b.toInt))

/-- R131, R154 to R156: 32-bit shifts by an immediate, sign-extended; the words with other upper bits, bit 25 among them, are
undecodable. -/
def Obligations.ShiftWordByImmediate : Prop :=
  Shift32Rule 0x0000101B .slliw (fun a n => w32 (a.toNat * 2 ^ n : Nat)) ∧
  Shift32Rule 0x0000501B .srliw (fun a n => w32 (a.toNat % 2 ^ 32 / 2 ^ n : Nat)) ∧
  Shift32Rule 0x4000501B .sraiw (fun a n => w32 (s32 a.toInt / 2 ^ n)) ∧
  ∀ w : BitVec 32,
    (w &&& 0x0000707F = 0x0000101B → w.extractLsb' 25 7 ≠ 0 → decode w = .error (.undecodableInstruction w)) ∧
    (w &&& 0x0000707F = 0x0000501B → w.extractLsb' 25 7 ≠ 0 → w.extractLsb' 25 7 ≠ 0x20 →
      decode w = .error (.undecodableInstruction w))

/-- R131, R159 to R161 (the low 5 bits are D21): 32-bit shifts by a register, sign-extended. -/
def Obligations.ShiftWordByRegister : Prop :=
  RegRegRule 0x0000103B .sllw (fun a b => w32 (a.toNat * 2 ^ (b.toNat % 32) : Nat)) ∧
  RegRegRule 0x0000503B .srlw (fun a b => w32 (a.toNat % 2 ^ 32 / 2 ^ (b.toNat % 32) : Nat)) ∧
  RegRegRule 0x4000503B .sraw (fun a b => w32 (s32 a.toInt / 2 ^ (b.toNat % 32)))

/-! ## Multiply and divide -/

/-- R207 to R210: the low half and the three high halves of the product. -/
def Obligations.Multiply : Prop :=
  RegRegRule 0x02000033 .mul (fun a b => BitVec.ofNat 64 (a.toNat * b.toNat)) ∧
  RegRegRule 0x02001033 .mulh (fun a b => BitVec.ofInt 64 (a.toInt * b.toInt / 2 ^ 64)) ∧
  RegRegRule 0x02002033 .mulhsu (fun a b => BitVec.ofInt 64 (a.toInt * b.toNat / 2 ^ 64)) ∧
  RegRegRule 0x02003033 .mulhu (fun a b => BitVec.ofNat 64 (a.toNat * b.toNat / 2 ^ 64))

/-- R211, R213, R220: signed quotient and remainder with both corner cases. -/
def Obligations.SignedDivision : Prop :=
  RegRegRule 0x02004033 .div (fun a b => BitVec.ofInt 64 (quotS 64 a.toInt b.toInt)) ∧
  RegRegRule 0x02006033 .rem (fun a b => BitVec.ofInt 64 (remainS 64 a.toInt b.toInt))

/-- R212, R214, R220: unsigned quotient and remainder. -/
def Obligations.UnsignedDivision : Prop :=
  RegRegRule 0x02005033 .divu (fun a b => BitVec.ofNat 64 (quotU 64 a.toNat b.toNat)) ∧
  RegRegRule 0x02007033 .remu (fun a b => BitVec.ofNat 64 (remainU a.toNat b.toNat))

/-- R131, R215 to R219, R220 (that the corner cases apply at 32 bits is the spec's inference): the W-forms. -/
def Obligations.MultiplyAndDivideWord : Prop :=
  RegRegRule 0x0200003B .mulw (fun a b => w32 (a.toInt * b.toInt)) ∧
  RegRegRule 0x0200403B .divw (fun a b => w32 (quotS 32 (s32 a.toInt) (s32 b.toInt))) ∧
  RegRegRule 0x0200503B .divuw (fun a b => w32 (quotU 32 (a.toNat % 2 ^ 32) (b.toNat % 2 ^ 32) : Nat)) ∧
  RegRegRule 0x0200603B .remw (fun a b => w32 (remainS 32 (s32 a.toInt) (s32 b.toInt))) ∧
  RegRegRule 0x0200703B .remuw (fun a b => w32 (remainU (a.toNat % 2 ^ 32) (b.toNat % 2 ^ 32) : Nat))

/-- R221 (a), (b), (c) (the spec's inference): divisor times quotient plus remainder is the dividend modulo 2^64 in every case, the
two corner cases included; MULW is the low word of MUL; MUL, MULH and MULHU commute. -/
def Obligations.DivisionIdentity : Prop :=
  ∀ (rd rs1 rs2 : RegId) (s : State), rd ≠ 0 →
    (∀ q r, exec (.div rd rs1 rs2) s = .next q → exec (.rem rd rs1 rs2) s = .next r →
      s.readReg rs2 * q.readReg rd + r.readReg rd = s.readReg rs1) ∧
    (∀ q r, exec (.divu rd rs1 rs2) s = .next q → exec (.remu rd rs1 rs2) s = .next r →
      s.readReg rs2 * q.readReg rd + r.readReg rd = s.readReg rs1) ∧
    (∀ p q, exec (.mul rd rs1 rs2) s = .next p → exec (.mulw rd rs1 rs2) s = .next q →
      q.readReg rd = ((p.readReg rd).setWidth 32).signExtend 64) ∧
    exec (.mul rd rs1 rs2) s = exec (.mul rd rs2 rs1) s ∧ exec (.mulh rd rs1 rs2) s = exec (.mulh rd rs2 rs1) s ∧
    exec (.mulhu rd rs1 rs2) s = exec (.mulhu rd rs2 rs1) s

/-! ## Control transfer -/

/-- R172, R173, R181 (targets from `ia` are D11, bit 0 of JALR and its order D12, no alignment check D5): JAL and JALR write the
address after themselves to `rd` and jump, whatever the target. -/
def Obligations.JumpAndLink : Prop :=
  Encodes 0x0000007F 0x0000006F (fun w => .jal (w.extractLsb' 7 5)
    (w.extractLsb' 31 1 ++ w.extractLsb' 12 8 ++ w.extractLsb' 20 1 ++ w.extractLsb' 21 10 ++ 0#1)) ∧
  Encodes 0x0000707F 0x00000067 (fun w => .jalr (w.extractLsb' 7 5) (w.extractLsb' 15 5) (w.extractLsb' 20 12)) ∧
  (∀ (rd : RegId) (imm : BitVec 21) (s : State), ∃ t, exec (.jal rd imm) s = .next t ∧ t.outcome = .retired ∧
    RegWritten s t rd s.pc ∧ t.pc = pcRelative s imm.toInt ∧ SameMem s t ∧ SameCsrs s t) ∧
  (∀ (rd rs1 : RegId) (imm : BitVec 12) (s : State), ∃ t, exec (.jalr rd rs1 imm) s = .next t ∧ t.outcome = .retired ∧
    RegWritten s t rd s.pc ∧ t.pc.toNat = 2 * ((effAddr s rs1 imm).toNat / 2) ∧ SameMem s t ∧ SameCsrs s t)

/-- R174 to R180 (targets from `ia` are D11): the six branches. -/
def Obligations.ConditionalBranches : Prop :=
  BranchRule 0x00000063 .beq (fun a b => a = b) ∧
  BranchRule 0x00001063 .bne (fun a b => a ≠ b) ∧
  BranchRule 0x00004063 .blt (fun a b => a.toInt < b.toInt) ∧
  BranchRule 0x00005063 .bge (fun a b => b.toInt ≤ a.toInt) ∧
  BranchRule 0x00006063 .bltu (fun a b => a.toNat < b.toNat) ∧
  BranchRule 0x00007063 .bgeu (fun a b => b.toNat ≤ a.toNat)

/-! ## Loads and stores -/

/-- R185 to R187, R190 to R197 (any alignment is D4, the bound D6, the payload D13): the seven loads. -/
def Obligations.Loads : Prop :=
  LoadRule 0x00000003 .lb .b1 (fun v => BitVec.ofInt 64 ((v : Int).bmod (2 ^ 8))) ∧
  LoadRule 0x00001003 .lh .b2 (fun v => BitVec.ofInt 64 ((v : Int).bmod (2 ^ 16))) ∧
  LoadRule 0x00002003 .lw .b4 (fun v => BitVec.ofInt 64 ((v : Int).bmod (2 ^ 32))) ∧
  LoadRule 0x00003003 .ld .b8 (fun v => BitVec.ofNat 64 v) ∧
  LoadRule 0x00004003 .lbu .b1 (fun v => BitVec.ofNat 64 v) ∧
  LoadRule 0x00005003 .lhu .b2 (fun v => BitVec.ofNat 64 v) ∧
  LoadRule 0x00006003 .lwu .b4 (fun v => BitVec.ofNat 64 v)

/-- R185, R186, R188, R190, R198 to R201 (any alignment is D4, the bound D6, the payload D13): the four stores. -/
def Obligations.Stores : Prop :=
  StoreRule 0x00000023 .sb .b1 ∧ StoreRule 0x00001023 .sh .b2 ∧ StoreRule 0x00002023 .sw .b4 ∧ StoreRule 0x00003023 .sd .b8

/-! ## CSR instructions, FENCE, ECALL, EBREAK -/

/-- R227, R230: CSRRW and CSRRWI write the operand to the CSR, always, and the old CSR value to `rd`. -/
def Obligations.CsrReadWrite : Prop :=
  CsrRegRule 0x00001073 .csrrw (fun _ v => v) ∧ CsrImmRule 0x00005073 .csrrwi (fun _ v => v)

/-- R231, R232: CSRRSI and CSRRCI set and clear the operand's bits; with operand 0 no write is issued. -/
def Obligations.CsrSetClearImmediate : Prop :=
  CsrImmRule 0x00006073 .csrrsi (fun t v => t ||| v) ∧ CsrImmRule 0x00007073 .csrrci (fun t v => t &&& ~~~v) ∧
  ∀ (rd : RegId) (csr : CsrAddr) (s t : State),
    exec (.csrrsi rd 0 csr) s = .next t ∨ exec (.csrrci rd 0 csr) s = .next t → t.csrs = s.csrs

/-- R228, R229: CSRRS and CSRRC set and clear the operand's bits; when the operand's VALUE is 0 no write is issued, whichever
register holds it (90_conflicts.md C5). -/
def Obligations.CsrSetClearRegister : Prop :=
  CsrRegRule 0x00002073 .csrrs (fun t v => t ||| v) ∧ CsrRegRule 0x00003073 .csrrc (fun t v => t &&& ~~~v) ∧
  ∀ (rd rs1 : RegId) (csr : CsrAddr) (s t : State), s.readReg rs1 = 0 →
    exec (.csrrs rd rs1 csr) s = .next t ∨ exec (.csrrc rd rs1 csr) s = .next t → t.csrs = s.csrs

/-- R233 (that FENCE is in the set and does nothing is D2, its free fields D17): FENCE retires and changes nothing. -/
def Obligations.FenceDoesNothing : Prop :=
  Encodes 0x0000707F 0x0000000F (fun _ => .fence) ∧
  ∀ s : State, ∃ t, exec .fence s = .next t ∧ t.outcome = .retired ∧ SameRegs s t ∧ t.pc = s.pc ∧ SameMem s t ∧ SameCsrs s t

/-- R234, R235, R250 (ECALL's halt is D3, the free fields D16): ECALL and EBREAK halt and change nothing else; a further step goes
on at the next instruction (D18). -/
def Obligations.EcallAndEbreakHalt : Prop :=
  Encodes 0xFFF0707F 0x00000073 (fun _ => .ecall) ∧ Encodes 0xFFF0707F 0x00100073 (fun _ => .ebreak) ∧
  ∀ s : State, (∃ t, exec .ecall s = .next t ∧ OnlyHalted s t .ecall) ∧ (∃ t, exec .ebreak s = .next t ∧ OnlyHalted s t .ebreak)
end

