-- ==== Sys2Proof/Laws/Decode.lean ====
section
/-! SUPPORT. The laws of the instruction word: what each field reads of a word in each format of R83, the word as its six fields, and
what a mask-and-match says about the fields. -/

namespace Sys2Proof

/-! ## A word and its six fields -/

/-- Appending is shifting the upper part by the width of the lower. -/
theorem append_toNat {n m : Nat} (x : BitVec n) (y : BitVec m) : (x ++ y).toNat = x.toNat * 2 ^ m + y.toNat := by
  rw [BitVec.toNat_append, Nat.shiftLeft_eq, Nat.mul_comm, ← Nat.two_pow_add_eq_or_of_lt y.isLt]

theorem encR_toNat (f7 : BitVec 7) (rs2 rs1 : RegId) (f3 : BitVec 3) (rd : RegId) (op : BitVec 7) :
    (encR f7 rs2 rs1 f3 rd op).toNat =
      ((((f7.toNat * 2 ^ 5 + rs2.toNat) * 2 ^ 5 + rs1.toNat) * 2 ^ 3 + f3.toNat) * 2 ^ 5 + rd.toNat) * 2 ^ 7 + op.toNat := by
  show (f7 ++ rs2 ++ rs1 ++ f3 ++ rd ++ op : BitVec (7 + 5 + 5 + 3 + 5 + 7)).toNat = _
  simp only [append_toNat]

theorem encI_toNat (imm : BitVec 12) (rs1 : RegId) (f3 : BitVec 3) (rd : RegId) (op : BitVec 7) :
    (encI imm rs1 f3 rd op).toNat =
      (((imm.toNat * 2 ^ 5 + rs1.toNat) * 2 ^ 3 + f3.toNat) * 2 ^ 5 + rd.toNat) * 2 ^ 7 + op.toNat := by
  show (imm ++ rs1 ++ f3 ++ rd ++ op : BitVec (12 + 5 + 3 + 5 + 7)).toNat = _
  simp only [append_toNat]

theorem encSh6_toNat (f6 shamt : BitVec 6) (rs1 : RegId) (f3 : BitVec 3) (rd : RegId) (op : BitVec 7) :
    (encSh6 f6 shamt rs1 f3 rd op).toNat =
      ((((f6.toNat * 2 ^ 6 + shamt.toNat) * 2 ^ 5 + rs1.toNat) * 2 ^ 3 + f3.toNat) * 2 ^ 5 + rd.toNat) * 2 ^ 7 + op.toNat := by
  show (f6 ++ shamt ++ rs1 ++ f3 ++ rd ++ op : BitVec (6 + 6 + 5 + 3 + 5 + 7)).toNat = _
  simp only [append_toNat]

theorem encB_toNat (imm : BitVec 13) (rs2 rs1 : RegId) (f3 : BitVec 3) (op : BitVec 7) :
    (encB imm rs2 rs1 f3 op).toNat =
      (((((((imm.extractLsb' 12 1).toNat * 2 ^ 6 + (imm.extractLsb' 5 6).toNat) * 2 ^ 5 + rs2.toNat) * 2 ^ 5 + rs1.toNat) * 2 ^ 3
        + f3.toNat) * 2 ^ 4 + (imm.extractLsb' 1 4).toNat) * 2 ^ 1 + (imm.extractLsb' 11 1).toNat) * 2 ^ 7 + op.toNat := by
  show (imm.extractLsb' 12 1 ++ imm.extractLsb' 5 6 ++ rs2 ++ rs1 ++ f3 ++ imm.extractLsb' 1 4 ++ imm.extractLsb' 11 1 ++ op :
    BitVec (1 + 6 + 5 + 5 + 3 + 4 + 1 + 7)).toNat = _
  simp only [append_toNat]

theorem encU_toNat (imm : BitVec 32) (rd : RegId) (op : BitVec 7) :
    (encU imm rd op).toNat = ((imm.extractLsb' 12 20).toNat * 2 ^ 5 + rd.toNat) * 2 ^ 7 + op.toNat := by
  show (imm.extractLsb' 12 20 ++ rd ++ op : BitVec (20 + 5 + 7)).toNat = _
  simp only [append_toNat]

theorem encJ_toNat (imm : BitVec 21) (rd : RegId) (op : BitVec 7) :
    (encJ imm rd op).toNat =
      (((((imm.extractLsb' 20 1).toNat * 2 ^ 10 + (imm.extractLsb' 1 10).toNat) * 2 ^ 1 + (imm.extractLsb' 11 1).toNat) * 2 ^ 8
        + (imm.extractLsb' 12 8).toNat) * 2 ^ 5 + rd.toNat) * 2 ^ 7 + op.toNat := by
  show (imm.extractLsb' 20 1 ++ imm.extractLsb' 1 10 ++ imm.extractLsb' 11 1 ++ imm.extractLsb' 12 8 ++ rd ++ op :
    BitVec (1 + 10 + 1 + 8 + 5 + 7)).toNat = _
  simp only [append_toNat]

theorem immSOf_toNat (w : BitVec 32) : (immSOf w).toNat = w.toNat / 2 ^ 25 % 2 ^ 7 * 2 ^ 5 + w.toNat / 2 ^ 7 % 2 ^ 5 := by
  show (w.extractLsb' 25 7 ++ w.extractLsb' 7 5 : BitVec (7 + 5)).toNat = _
  simp only [append_toNat, BitVec.extractLsb'_toNat, Nat.shiftRight_eq_div_pow]

theorem immBOf_toNat (w : BitVec 32) : (immBOf w).toNat =
    (((w.toNat / 2 ^ 31 % 2 ^ 1 * 2 ^ 1 + w.toNat / 2 ^ 7 % 2 ^ 1) * 2 ^ 6 + w.toNat / 2 ^ 25 % 2 ^ 6) * 2 ^ 4
      + w.toNat / 2 ^ 8 % 2 ^ 4) * 2 ^ 1 := by
  show (w.extractLsb' 31 1 ++ w.extractLsb' 7 1 ++ w.extractLsb' 25 6 ++ w.extractLsb' 8 4 ++ 0#1 :
    BitVec (1 + 1 + 6 + 4 + 1)).toNat = _
  simp only [append_toNat, BitVec.extractLsb'_toNat, Nat.shiftRight_eq_div_pow, BitVec.toNat_ofNat, Nat.zero_mod, Nat.add_zero]

theorem immUOf_toNat (w : BitVec 32) : (immUOf w).toNat = w.toNat / 2 ^ 12 % 2 ^ 20 * 2 ^ 12 := by
  show (w.extractLsb' 12 20 ++ 0#12 : BitVec (20 + 12)).toNat = _
  simp only [append_toNat, BitVec.extractLsb'_toNat, Nat.shiftRight_eq_div_pow, BitVec.toNat_ofNat, Nat.zero_mod, Nat.add_zero]

theorem immJOf_toNat (w : BitVec 32) : (immJOf w).toNat =
    (((w.toNat / 2 ^ 31 % 2 ^ 1 * 2 ^ 8 + w.toNat / 2 ^ 12 % 2 ^ 8) * 2 ^ 1 + w.toNat / 2 ^ 20 % 2 ^ 1) * 2 ^ 10
      + w.toNat / 2 ^ 21 % 2 ^ 10) * 2 ^ 1 := by
  show (w.extractLsb' 31 1 ++ w.extractLsb' 12 8 ++ w.extractLsb' 20 1 ++ w.extractLsb' 21 10 ++ 0#1 :
    BitVec (1 + 8 + 1 + 10 + 1)).toNat = _
  simp only [append_toNat, BitVec.extractLsb'_toNat, Nat.shiftRight_eq_div_pow, BitVec.toNat_ofNat, Nat.zero_mod, Nat.add_zero]

/-- A field as a number. -/
theorem field_toNat {v : Nat} (x : BitVec v) (a n : Nat) : (x.extractLsb' a n).toNat = x.toNat / 2 ^ a % 2 ^ n := by
  rw [BitVec.extractLsb'_toNat, Nat.shiftRight_eq_div_pow]

/-- The W-form shift amount sits where `rs2` does (R89). -/
theorem shamt5Of_eq (w : BitVec 32) : shamt5Of w = rs2Of w := rfl

/-- R82: a word is its six fields. -/
theorem word_eq_encR (w : BitVec 32) : w = encR (funct7Of w) (rs2Of w) (rs1Of w) (funct3Of w) (rdOf w) (opcodeOf w) := by
  apply BitVec.eq_of_toNat_eq
  simp only [encR_toNat, funct7Of, rs2Of, rs1Of, funct3Of, rdOf, opcodeOf, field_toNat]
  have := w.isLt
  omega

/-- R83: a word read as I-type. -/
theorem word_eq_encI (w : BitVec 32) : w = encI (imm12Of w) (rs1Of w) (funct3Of w) (rdOf w) (opcodeOf w) := by
  apply BitVec.eq_of_toNat_eq
  simp only [encI_toNat, imm12Of, rs1Of, funct3Of, rdOf, opcodeOf, field_toNat]
  have := w.isLt
  omega

/-- R89: a word read as a 64-bit shift-immediate. -/
theorem word_eq_encSh6 (w : BitVec 32) :
    w = encSh6 (funct6Of w) (shamt6Of w) (rs1Of w) (funct3Of w) (rdOf w) (opcodeOf w) := by
  apply BitVec.eq_of_toNat_eq
  simp only [encSh6_toNat, funct6Of, shamt6Of, rs1Of, funct3Of, rdOf, opcodeOf, field_toNat]
  have := w.isLt
  omega

/-- An S-type word is an R-type word whose funct7 and rd hold the immediate. -/
theorem encS_eq_encR (imm : BitVec 12) (rs2 rs1 : RegId) (f3 : BitVec 3) (op : BitVec 7) :
    encS imm rs2 rs1 f3 op = encR (imm.extractLsb' 5 7) rs2 rs1 f3 (imm.extractLsb' 0 5) op := rfl

/-- R83: a word read as S-type. -/
theorem word_eq_encS (w : BitVec 32) : w = encS (immSOf w) (rs2Of w) (rs1Of w) (funct3Of w) (opcodeOf w) := by
  apply BitVec.eq_of_toNat_eq
  simp only [encS_eq_encR, encR_toNat, rs2Of, rs1Of, funct3Of, opcodeOf, field_toNat, immSOf_toNat]
  have := w.isLt
  omega

/-- The pieces of the offset the decoder assembles from a B-type word are the pieces of the word. -/
theorem immBOf_pieces (w : BitVec 32) :
    ((immBOf w).extractLsb' 12 1).toNat = w.toNat / 2 ^ 31 % 2 ^ 1 ∧ ((immBOf w).extractLsb' 11 1).toNat = w.toNat / 2 ^ 7 % 2 ^ 1 ∧
    ((immBOf w).extractLsb' 5 6).toNat = w.toNat / 2 ^ 25 % 2 ^ 6 ∧ ((immBOf w).extractLsb' 1 4).toNat = w.toNat / 2 ^ 8 % 2 ^ 4 := by
  simp only [field_toNat, immBOf_toNat]
  generalize h1 : w.toNat / 2 ^ 31 % 2 ^ 1 = p; generalize h2 : w.toNat / 2 ^ 7 % 2 ^ 1 = q
  generalize h3 : w.toNat / 2 ^ 25 % 2 ^ 6 = r; generalize h4 : w.toNat / 2 ^ 8 % 2 ^ 4 = t
  have : p < 2 := by omega
  have : q < 2 := by omega
  have : r < 64 := by omega
  have : t < 16 := by omega
  clear h1 h2 h3 h4
  refine ⟨?_, ?_, ?_, ?_⟩ <;> omega

/-- R83: a word read as B-type. -/
theorem word_eq_encB (w : BitVec 32) : w = encB (immBOf w) (rs2Of w) (rs1Of w) (funct3Of w) (opcodeOf w) := by
  apply BitVec.eq_of_toNat_eq
  obtain ⟨h1, h2, h3, h4⟩ := immBOf_pieces w
  simp only [encB_toNat, h1, h2, h3, h4, rs2Of, rs1Of, funct3Of, opcodeOf, field_toNat]
  have := w.isLt
  omega

/-- R83: a word read as U-type. -/
theorem word_eq_encU (w : BitVec 32) : w = encU (immUOf w) (rdOf w) (opcodeOf w) := by
  apply BitVec.eq_of_toNat_eq
  simp only [encU_toNat, rdOf, opcodeOf, field_toNat, immUOf_toNat]
  have := w.isLt
  omega

/-- The pieces of the offset the decoder assembles from a J-type word are the pieces of the word. -/
theorem immJOf_pieces (w : BitVec 32) :
    ((immJOf w).extractLsb' 20 1).toNat = w.toNat / 2 ^ 31 % 2 ^ 1 ∧ ((immJOf w).extractLsb' 12 8).toNat = w.toNat / 2 ^ 12 % 2 ^ 8 ∧
    ((immJOf w).extractLsb' 11 1).toNat = w.toNat / 2 ^ 20 % 2 ^ 1 ∧ ((immJOf w).extractLsb' 1 10).toNat = w.toNat / 2 ^ 21 % 2 ^ 10 := by
  simp only [field_toNat, immJOf_toNat]
  generalize h1 : w.toNat / 2 ^ 31 % 2 ^ 1 = p; generalize h2 : w.toNat / 2 ^ 12 % 2 ^ 8 = q
  generalize h3 : w.toNat / 2 ^ 20 % 2 ^ 1 = r; generalize h4 : w.toNat / 2 ^ 21 % 2 ^ 10 = t
  have : p < 2 := by omega
  have : q < 256 := by omega
  have : r < 2 := by omega
  have : t < 1024 := by omega
  clear h1 h2 h3 h4
  refine ⟨?_, ?_, ?_, ?_⟩ <;> omega

/-- R83: a word read as J-type. -/
theorem word_eq_encJ (w : BitVec 32) : w = encJ (immJOf w) (rdOf w) (opcodeOf w) := by
  apply BitVec.eq_of_toNat_eq
  obtain ⟨h1, h2, h3, h4⟩ := immJOf_pieces w
  simp only [encJ_toNat, h1, h2, h3, h4, rdOf, opcodeOf, field_toNat]
  have := w.isLt
  omega

/-- The immediates the decoder assembles are ones their encodings can hold. -/
theorem wfB_immBOf (w : BitVec 32) : wfB (immBOf w) = true := by
  simp only [wfB, beq_iff_eq]
  apply BitVec.eq_of_toNat_eq
  simp only [field_toNat, immBOf_toNat, BitVec.toNat_ofNat]; omega

theorem wfJ_immJOf (w : BitVec 32) : wfJ (immJOf w) = true := by
  simp only [wfJ, beq_iff_eq]
  apply BitVec.eq_of_toNat_eq
  simp only [field_toNat, immJOf_toNat, BitVec.toNat_ofNat]; omega

theorem wfU_immUOf (w : BitVec 32) : wfU (immUOf w) = true := by
  simp only [wfU, beq_iff_eq]
  apply BitVec.eq_of_toNat_eq
  simp only [field_toNat, immUOf_toNat, BitVec.toNat_ofNat]; omega

/-! ## What each field reads in a word of each format -/

section Fields

variable (f7 op : BitVec 7) (f6 sh : BitVec 6) (f3 : BitVec 3) (rd rs1 rs2 : RegId) (i12 : BitVec 12)

theorem fields_encR : opcodeOf (encR f7 rs2 rs1 f3 rd op) = op ∧ rdOf (encR f7 rs2 rs1 f3 rd op) = rd ∧
    funct3Of (encR f7 rs2 rs1 f3 rd op) = f3 ∧ rs1Of (encR f7 rs2 rs1 f3 rd op) = rs1 ∧
    rs2Of (encR f7 rs2 rs1 f3 rd op) = rs2 ∧ funct7Of (encR f7 rs2 rs1 f3 rd op) = f7 := by
  have := f7.isLt; have := rs2.isLt; have := rs1.isLt; have := f3.isLt; have := rd.isLt; have := op.isLt
  refine ⟨?_, ?_, ?_, ?_, ?_, ?_⟩ <;> apply BitVec.eq_of_toNat_eq <;>
    simp only [opcodeOf, rdOf, funct3Of, rs1Of, rs2Of, funct7Of, field_toNat, encR_toNat] <;> omega

theorem fields_encI : opcodeOf (encI i12 rs1 f3 rd op) = op ∧ rdOf (encI i12 rs1 f3 rd op) = rd ∧
    funct3Of (encI i12 rs1 f3 rd op) = f3 ∧ rs1Of (encI i12 rs1 f3 rd op) = rs1 ∧ imm12Of (encI i12 rs1 f3 rd op) = i12 := by
  have := i12.isLt; have := rs1.isLt; have := f3.isLt; have := rd.isLt; have := op.isLt
  refine ⟨?_, ?_, ?_, ?_, ?_⟩ <;> apply BitVec.eq_of_toNat_eq <;>
    simp only [opcodeOf, rdOf, funct3Of, rs1Of, imm12Of, field_toNat, encI_toNat] <;> omega

theorem fields_encSh6 : opcodeOf (encSh6 f6 sh rs1 f3 rd op) = op ∧ rdOf (encSh6 f6 sh rs1 f3 rd op) = rd ∧
    funct3Of (encSh6 f6 sh rs1 f3 rd op) = f3 ∧ rs1Of (encSh6 f6 sh rs1 f3 rd op) = rs1 ∧
    shamt6Of (encSh6 f6 sh rs1 f3 rd op) = sh ∧ funct6Of (encSh6 f6 sh rs1 f3 rd op) = f6 := by
  have := f6.isLt; have := sh.isLt; have := rs1.isLt; have := f3.isLt; have := rd.isLt; have := op.isLt
  refine ⟨?_, ?_, ?_, ?_, ?_, ?_⟩ <;> apply BitVec.eq_of_toNat_eq <;>
    simp only [opcodeOf, rdOf, funct3Of, rs1Of, shamt6Of, funct6Of, field_toNat, encSh6_toNat] <;> omega

theorem fields_encS : opcodeOf (encS i12 rs2 rs1 f3 op) = op ∧ funct3Of (encS i12 rs2 rs1 f3 op) = f3 ∧
    rs1Of (encS i12 rs2 rs1 f3 op) = rs1 ∧ rs2Of (encS i12 rs2 rs1 f3 op) = rs2 ∧ immSOf (encS i12 rs2 rs1 f3 op) = i12 := by
  rw [encS_eq_encR]
  obtain ⟨h1, h2, h3, h4, h5, h6⟩ := fields_encR (i12.extractLsb' 5 7) op f3 (i12.extractLsb' 0 5) rs1 rs2
  refine ⟨h1, h3, h4, h5, ?_⟩
  have he : ∀ w, immSOf w = funct7Of w ++ rdOf w := fun _ => rfl
  rw [he, h6, h2]
  apply BitVec.eq_of_toNat_eq
  rw [append_toNat]
  simp only [field_toNat]
  have := i12.isLt
  omega

/-- A B-type word is an R-type word whose funct7 and rd hold the offset. -/
theorem encB_eq_encR (imm : BitVec 13) : encB imm rs2 rs1 f3 op =
    encR (imm.extractLsb' 12 1 ++ imm.extractLsb' 5 6) rs2 rs1 f3 (imm.extractLsb' 1 4 ++ imm.extractLsb' 11 1) op := by
  apply BitVec.eq_of_toNat_eq
  have h1 : (imm.extractLsb' 12 1 ++ imm.extractLsb' 5 6 : BitVec 7).toNat = _ := append_toNat ..
  have h2 : (imm.extractLsb' 1 4 ++ imm.extractLsb' 11 1 : RegId).toNat = _ := append_toNat ..
  rw [encB_toNat, encR_toNat, h1, h2]
  omega

theorem fields_encB (imm : BitVec 13) : opcodeOf (encB imm rs2 rs1 f3 op) = op ∧ funct3Of (encB imm rs2 rs1 f3 op) = f3 ∧
    rs1Of (encB imm rs2 rs1 f3 op) = rs1 ∧ rs2Of (encB imm rs2 rs1 f3 op) = rs2 := by
  rw [encB_eq_encR]
  obtain ⟨h1, -, h3, h4, h5, -⟩ := fields_encR (imm.extractLsb' 12 1 ++ imm.extractLsb' 5 6) op f3
    (imm.extractLsb' 1 4 ++ imm.extractLsb' 11 1) rs1 rs2
  exact ⟨h1, h3, h4, h5⟩

theorem fields_encU (imm : BitVec 32) : opcodeOf (encU imm rd op) = op ∧ rdOf (encU imm rd op) = rd := by
  have := imm.isLt; have := rd.isLt; have := op.isLt
  refine ⟨?_, ?_⟩ <;> apply BitVec.eq_of_toNat_eq <;> simp only [opcodeOf, rdOf, field_toNat, encU_toNat] <;> omega

theorem fields_encJ (imm : BitVec 21) : opcodeOf (encJ imm rd op) = op ∧ rdOf (encJ imm rd op) = rd := by
  have := imm.isLt; have := rd.isLt; have := op.isLt
  refine ⟨?_, ?_⟩ <;> apply BitVec.eq_of_toNat_eq <;> simp only [opcodeOf, rdOf, field_toNat, encJ_toNat] <;> omega

theorem immBOf_encB {imm : BitVec 13} (h : wfB imm = true) : immBOf (encB imm rs2 rs1 f3 op) = imm := by
  have hi := imm.isLt
  have he := congrArg BitVec.toNat (beq_iff_eq.1 h)
  simp only [field_toNat, BitVec.toNat_ofNat] at he
  have h1 := congrArg BitVec.toNat (word_eq_encB (encB imm rs2 rs1 f3 op))
  obtain ⟨p1, p2, p3, p4⟩ := immBOf_pieces (encB imm rs2 rs1 f3 op)
  obtain ⟨f1, f2, f3', f4⟩ := fields_encB op f3 rs1 rs2 imm
  rw [f1, f2, f3', f4, encB_toNat, encB_toNat] at h1
  have hw := beq_iff_eq.1 (wfB_immBOf (encB imm rs2 rs1 f3 op))
  have hw := congrArg BitVec.toNat hw
  generalize hm : immBOf (encB imm rs2 rs1 f3 op) = m at *
  clear hm p1 p2 p3 p4 f1 f2 f3' f4 h
  have hb (k l : Nat) (x : BitVec 13) := (x.extractLsb' k l).isLt
  have := hb 12 1 m; have := hb 5 6 m; have := hb 1 4 m; have := hb 11 1 m
  have := hb 12 1 imm; have := hb 5 6 imm; have := hb 1 4 imm; have := hb 11 1 imm
  have e1 : (m.extractLsb' 12 1).toNat = (imm.extractLsb' 12 1).toNat := by omega
  have e2 : (m.extractLsb' 5 6).toNat = (imm.extractLsb' 5 6).toNat := by omega
  have e3 : (m.extractLsb' 1 4).toNat = (imm.extractLsb' 1 4).toNat := by omega
  have e4 : (m.extractLsb' 11 1).toNat = (imm.extractLsb' 11 1).toNat := by omega
  have hmlt := m.isLt
  clear h1
  simp only [field_toNat, BitVec.toNat_ofNat] at e1 e2 e3 e4 hw
  apply BitVec.eq_of_toNat_eq
  omega

theorem immUOf_encU {imm : BitVec 32} (h : wfU imm = true) : immUOf (encU imm rd op) = imm := by
  have := imm.isLt; have := rd.isLt; have := op.isLt
  have he := congrArg BitVec.toNat (beq_iff_eq.1 h)
  simp only [field_toNat, BitVec.toNat_ofNat] at he
  apply BitVec.eq_of_toNat_eq
  simp only [immUOf_toNat, field_toNat, encU_toNat]; omega

theorem immJOf_encJ {imm : BitVec 21} (h : wfJ imm = true) : immJOf (encJ imm rd op) = imm := by
  have hi := imm.isLt
  have he := congrArg BitVec.toNat (beq_iff_eq.1 h)
  simp only [field_toNat, BitVec.toNat_ofNat] at he
  have h1 := congrArg BitVec.toNat (word_eq_encJ (encJ imm rd op))
  obtain ⟨f1, f2⟩ := fields_encJ op rd imm
  rw [f1, f2, encJ_toNat, encJ_toNat] at h1
  have hw := beq_iff_eq.1 (wfJ_immJOf (encJ imm rd op))
  have hw := congrArg BitVec.toNat hw
  generalize hm : immJOf (encJ imm rd op) = m at *
  clear hm f1 f2 h
  have hb (k l : Nat) (x : BitVec 21) := (x.extractLsb' k l).isLt
  have := hb 20 1 m; have := hb 1 10 m; have := hb 11 1 m; have := hb 12 8 m
  have := hb 20 1 imm; have := hb 1 10 imm; have := hb 11 1 imm; have := hb 12 8 imm
  have e1 : (m.extractLsb' 20 1).toNat = (imm.extractLsb' 20 1).toNat := by omega
  have e2 : (m.extractLsb' 1 10).toNat = (imm.extractLsb' 1 10).toNat := by omega
  have e3 : (m.extractLsb' 11 1).toNat = (imm.extractLsb' 11 1).toNat := by omega
  have e4 : (m.extractLsb' 12 8).toNat = (imm.extractLsb' 12 8).toNat := by omega
  have hmlt := m.isLt
  clear h1
  simp only [field_toNat, BitVec.toNat_ofNat] at e1 e2 e3 e4 hw
  apply BitVec.eq_of_toNat_eq
  omega

end Fields

/-! ## Masks (R91) -/

/-- A word that matches a pattern under a mask has the pattern's value in every field the mask covers. -/
theorem field_of_mask {w m p : BitVec 32} (a n : Nat) (h : w &&& m = p) (hm : m.extractLsb' a n = BitVec.allOnes n) :
    w.extractLsb' a n = p.extractLsb' a n := by
  rw [← h, BitVec.extractLsb'_and, hm, BitVec.and_allOnes]

theorem and_append5 {a b c d e : Nat} (x1 y1 : BitVec a) (x2 y2 : BitVec b) (x3 y3 : BitVec c) (x4 y4 : BitVec d)
    (x5 y5 : BitVec e) : (x1 ++ x2 ++ x3 ++ x4 ++ x5) &&& (y1 ++ y2 ++ y3 ++ y4 ++ y5) =
      (x1 &&& y1) ++ (x2 &&& y2) ++ (x3 &&& y3) ++ (x4 &&& y4) ++ (x5 &&& y5) := by
  simp only [BitVec.and_append]

/-- Masking an I-type word is masking its fields. -/
theorem encI_and (i j : BitVec 12) (b b' : RegId) (f3 g3 : BitVec 3) (c c' : RegId) (p q : BitVec 7) :
    encI i b f3 c p &&& encI j b' g3 c' q = encI (i &&& j) (b &&& b') (f3 &&& g3) (c &&& c') (p &&& q) :=
  and_append5 ..

theorem and_append6 {a b c d e f : Nat} (x1 y1 : BitVec a) (x2 y2 : BitVec b) (x3 y3 : BitVec c) (x4 y4 : BitVec d)
    (x5 y5 : BitVec e) (x6 y6 : BitVec f) : (x1 ++ x2 ++ x3 ++ x4 ++ x5 ++ x6) &&& (y1 ++ y2 ++ y3 ++ y4 ++ y5 ++ y6) =
      (x1 &&& y1) ++ (x2 &&& y2) ++ (x3 &&& y3) ++ (x4 &&& y4) ++ (x5 &&& y5) ++ (x6 &&& y6) := by
  simp only [BitVec.and_append]

/-- Masking an R-type word is masking its fields. -/
theorem encR_and (f7 g7 : BitVec 7) (a a' b b' : RegId) (f3 g3 : BitVec 3) (c c' : RegId) (p q : BitVec 7) :
    encR f7 a b f3 c p &&& encR g7 a' b' g3 c' q =
      encR (f7 &&& g7) (a &&& a') (b &&& b') (f3 &&& g3) (c &&& c') (p &&& q) :=
  and_append6 ..

/-- Masking a 64-bit shift-immediate is masking its fields. -/
theorem encSh6_and (f6 g6 sh sh' : BitVec 6) (b b' : RegId) (f3 g3 : BitVec 3) (c c' : RegId) (p q : BitVec 7) :
    encSh6 f6 sh b f3 c p &&& encSh6 g6 sh' b' g3 c' q =
      encSh6 (f6 &&& g6) (sh &&& sh') (b &&& b') (f3 &&& g3) (c &&& c') (p &&& q) :=
  and_append6 ..

section Rows

variable {w : BitVec 32} {f7 op : BitVec 7} {f6 : BitVec 6} {f3 : BitVec 3} {i12 : BitVec 12}

theorem and_ones {n : Nat} (x : BitVec n) : x &&& BitVec.allOnes n = x := BitVec.and_allOnes

theorem and_none {n : Nat} (x : BitVec n) : x &&& 0 = 0 := BitVec.and_zero

/-- What a word is under the R-type mask. -/
theorem mask_R (h7 : funct7Of w = f7) (h3 : funct3Of w = f3) (h : opcodeOf w = op) :
    w &&& 0xFE00707F = encR f7 0 0 f3 0 op := by
  subst h7 h3 h
  conv => lhs; rw [word_eq_encR w,
    show (0xFE00707F : BitVec 32) = encR (.allOnes 7) 0 0 (.allOnes 3) 0 (.allOnes 7) by decide]
  rw [encR_and, and_ones, and_ones, and_ones, and_none, and_none, and_none]

/-- What a word is under the mask of opcode and funct3. -/
theorem mask_I (h3 : funct3Of w = f3) (h : opcodeOf w = op) : w &&& 0x0000707F = encI 0 0 f3 0 op := by
  subst h3 h
  conv => lhs; rw [word_eq_encI w, show (0x0000707F : BitVec 32) = encI 0 0 (.allOnes 3) 0 (.allOnes 7) by decide]
  rw [encI_and, and_ones, and_ones, and_none, and_none, and_none]

/-- What a word is under the opcode mask. -/
theorem mask_U (h : opcodeOf w = op) : w &&& 0x0000007F = encI 0 0 0 0 op := by
  subst h
  conv => lhs; rw [word_eq_encI w, show (0x0000007F : BitVec 32) = encI 0 0 0 0 (.allOnes 7) by decide]
  rw [encI_and, and_ones, and_none, and_none, and_none, and_none]

/-- What a word is under the mask of a 64-bit shift-immediate. -/
theorem mask_sh6 (h6 : funct6Of w = f6) (h3 : funct3Of w = f3) (h : opcodeOf w = op) :
    w &&& 0xFC00707F = encSh6 f6 0 0 f3 0 op := by
  subst h6 h3 h
  conv => lhs; rw [word_eq_encSh6 w,
    show (0xFC00707F : BitVec 32) = encSh6 (.allOnes 6) 0 0 (.allOnes 3) 0 (.allOnes 7) by decide]
  rw [encSh6_and, and_ones, and_ones, and_ones, and_none, and_none, and_none]

/-- What a word is under the mask of ECALL and EBREAK. -/
theorem mask_sys (hi : imm12Of w = i12) (h3 : funct3Of w = f3) (h : opcodeOf w = op) :
    w &&& 0xFFF0707F = encI i12 0 f3 0 op := by
  subst hi h3 h
  conv => lhs; rw [word_eq_encI w,
    show (0xFFF0707F : BitVec 32) = encI (.allOnes 12) 0 (.allOnes 3) 0 (.allOnes 7) by decide]
  rw [encI_and, and_ones, and_ones, and_ones, and_none, and_none]

end Rows

end Sys2Proof
end

