-- ==== Sys2Proof/Laws/Sparse.lean ====
section
/-! SUPPORT. The laws of sparse storage: what a cell reads after a write, and that a write keeps the canonical form. -/

namespace Sys2Proof.Machine

variable {w : Nat}

theorem sparseGet_erase (l : List (Nat × BitVec w)) (k j : Nat) :
    sparseGet (sparseErase l k) j = if j = k then 0 else sparseGet l j := by
  induction l with
  | nil => simp [sparseErase, sparseGet]
  | cons c rest ih =>
    obtain ⟨i, v⟩ := c
    by_cases hk : k = i <;> by_cases hj : j = i <;> simp_all [sparseErase, sparseGet]
    intro h; omega

theorem sparseGet_insert (l : List (Nat × BitVec w)) (k j : Nat) (v : BitVec w) (hk : sparseGet l k = 0)
    (hmem : ∀ c ∈ l, c.1 ≠ k) :
    sparseGet (sparseInsert l k v) j = if j = k then v else sparseGet l j := by
  induction l with
  | nil => simp [sparseInsert, sparseGet]
  | cons c rest ih =>
    obtain ⟨i, u⟩ := c
    have hi : i ≠ k := hmem (i, u) (by simp)
    have hrest : ∀ c ∈ rest, c.1 ≠ k := fun c hc => hmem c (by simp [hc])
    have hk' : sparseGet rest k = 0 := by simpa [sparseGet, Ne.symm hi] using hk
    simp only [sparseInsert]
    split
    · by_cases hj : j = k <;> simp [sparseGet, hj]
    · by_cases hj : j = i
      · simp [sparseGet, hj, hi]
      · simp [sparseGet, hj, ih hk' hrest]

theorem sparseErase_mem (l : List (Nat × BitVec w)) (k : Nat) (c : Nat × BitVec w) :
    c ∈ sparseErase l k ↔ c ∈ l ∧ c.1 ≠ k := by
  induction l with
  | nil => simp [sparseErase]
  | cons d rest ih =>
    obtain ⟨i, u⟩ := d
    by_cases hk : k = i
    · subst hk
      simp only [sparseErase, if_true, ih, List.mem_cons]
      constructor
      · rintro ⟨h1, h2⟩; exact ⟨.inr h1, h2⟩
      · rintro ⟨rfl | h1, h2⟩
        · exact absurd rfl h2
        · exact ⟨h1, h2⟩
    · simp only [sparseErase, hk, if_false, List.mem_cons, ih]
      constructor
      · rintro (rfl | ⟨h1, h2⟩)
        · exact ⟨.inl rfl, fun h => hk h.symm⟩
        · exact ⟨.inr h1, h2⟩
      · rintro ⟨rfl | h1, h2⟩
        · exact .inl rfl
        · exact .inr ⟨h1, h2⟩

theorem sparseInsert_mem (l : List (Nat × BitVec w)) (k : Nat) (v : BitVec w) (c : Nat × BitVec w) :
    c ∈ sparseInsert l k v ↔ c = (k, v) ∨ c ∈ l := by
  induction l with
  | nil => simp [sparseInsert]
  | cons d rest ih =>
    simp only [sparseInsert]
    split
    · simp
    · simp only [List.mem_cons, ih]; tauto

/-- Reading after writing, on every list: the cell written reads the value, every other reads as before. -/
theorem sparseGet_set (l : List (Nat × BitVec w)) (k j : Nat) (v : BitVec w) :
    sparseGet (sparseSet l k v) j = if j = k then v else sparseGet l j := by
  unfold sparseSet
  split
  · rename_i h; subst h; exact sparseGet_erase l k j
  · rw [sparseGet_insert _ _ _ _ (by simp [sparseGet_erase])
      (fun c hc => ((sparseErase_mem l k c).1 hc).2), sparseGet_erase]
    split <;> simp_all

/-- The entries after a write are entries of before or the new one. -/
theorem sparseSet_mem {l : List (Nat × BitVec w)} {k : Nat} {v : BitVec w} {c : Nat × BitVec w}
    (h : c ∈ sparseSet l k v) : c.1 = k ∨ c ∈ l := by
  unfold sparseSet at h
  split at h
  · exact .inr ((sparseErase_mem l k c).1 h).1
  · rcases (sparseInsert_mem _ k v c).1 h with rfl | h
    · exact .inl rfl
    · exact .inr ((sparseErase_mem l k c).1 h).1

theorem sparseFrom_mono {l : List (Nat × BitVec w)} {lo hi : Nat} (hle : lo ≤ hi) (h : sparseFrom hi l = true) :
    sparseFrom lo l = true := by
  cases l with
  | nil => rfl
  | cons c rest =>
    obtain ⟨k, v⟩ := c
    simp [sparseFrom] at h ⊢
    exact ⟨⟨by omega, h.1.2⟩, h.2⟩

theorem sparseFrom_erase {l : List (Nat × BitVec w)} {lo : Nat} (k : Nat) (h : sparseFrom lo l = true) :
    sparseFrom lo (sparseErase l k) = true := by
  induction l generalizing lo with
  | nil => rfl
  | cons c rest ih =>
    obtain ⟨i, u⟩ := c
    simp [sparseFrom] at h
    simp only [sparseErase]
    split
    · exact sparseFrom_mono (by omega) (ih h.2)
    · simp [sparseFrom, h.1.1, h.1.2, ih h.2]

theorem sparseFrom_insert {l : List (Nat × BitVec w)} {lo k : Nat} {v : BitVec w} (hv : v ≠ 0) (hk : lo ≤ k)
    (hmem : ∀ c ∈ l, c.1 ≠ k) (h : sparseFrom lo l = true) : sparseFrom lo (sparseInsert l k v) = true := by
  induction l generalizing lo with
  | nil => simp_all [sparseInsert, sparseFrom]
  | cons c rest ih =>
    obtain ⟨i, u⟩ := c
    simp [sparseFrom] at h
    have hi : i ≠ k := hmem (i, u) (by simp)
    simp only [sparseInsert]
    split
    · rename_i hlt
      simp only [sparseFrom, Bool.and_eq_true, decide_eq_true_eq]
      exact ⟨⟨hk, hv⟩, ⟨by omega, by simpa using h.1.2⟩, h.2⟩
    · simp only [sparseFrom, Bool.and_eq_true, decide_eq_true_eq]
      exact ⟨⟨h.1.1, by simpa using h.1.2⟩, ih (by omega) (fun c hc => hmem c (by simp [hc])) h.2⟩

/-- A write keeps the canonical form. -/
theorem sparseCanonical_set {l : List (Nat × BitVec w)} (k : Nat) (v : BitVec w) (h : sparseCanonical l = true) :
    sparseCanonical (sparseSet l k v) = true := by
  unfold sparseCanonical sparseSet at *
  split
  · exact sparseFrom_erase k h
  · exact sparseFrom_insert ‹_› (Nat.zero_le k) (fun c hc => ((sparseErase_mem l k c).1 hc).2) (sparseFrom_erase k h)

end Sys2Proof.Machine
end

