-- ==== Sys2Proof/Laws/State.lean ====
section
/-! SUPPORT. One lemma per field per update, so that no later proof unfolds a record update: the register file, the CSR bank and the
byte read over each update of the state. -/

namespace Sys2Proof.Machine

variable (s : State) (r q : RegId) (a : CsrAddr) (v : Word)

/-! ## Fields after one component is replaced -/

section Setters

variable (p : Word) (m : Memory) (l : List (Nat × Word)) (o : StepOutcome)

@[simp] theorem setPc_x : (s.setPc p).x = s.x := rfl
@[simp] theorem setPc_pc : (s.setPc p).pc = p := rfl
@[simp] theorem setPc_mem : (s.setPc p).mem = s.mem := rfl
@[simp] theorem setPc_csrs : (s.setPc p).csrs = s.csrs := rfl
@[simp] theorem setPc_outcome : (s.setPc p).outcome = s.outcome := rfl
@[simp] theorem setMem_x : (s.setMem m).x = s.x := rfl
@[simp] theorem setMem_pc : (s.setMem m).pc = s.pc := rfl
@[simp] theorem setMem_mem : (s.setMem m).mem = m := rfl
@[simp] theorem setMem_csrs : (s.setMem m).csrs = s.csrs := rfl
@[simp] theorem setMem_outcome : (s.setMem m).outcome = s.outcome := rfl
@[simp] theorem setCsrs_x : (s.setCsrs l).x = s.x := rfl
@[simp] theorem setCsrs_pc : (s.setCsrs l).pc = s.pc := rfl
@[simp] theorem setCsrs_mem : (s.setCsrs l).mem = s.mem := rfl
@[simp] theorem setCsrs_csrs : (s.setCsrs l).csrs = l := rfl
@[simp] theorem setCsrs_outcome : (s.setCsrs l).outcome = s.outcome := rfl
@[simp] theorem setOutcome_x : (s.setOutcome o).x = s.x := rfl
@[simp] theorem setOutcome_pc : (s.setOutcome o).pc = s.pc := rfl
@[simp] theorem setOutcome_mem : (s.setOutcome o).mem = s.mem := rfl
@[simp] theorem setOutcome_csrs : (s.setOutcome o).csrs = s.csrs := rfl
@[simp] theorem setOutcome_outcome : (s.setOutcome o).outcome = o := rfl

end Setters

/-! ## Fields after a register write -/

theorem writeReg_fields : (s.writeReg r v).pc = s.pc ∧ (s.writeReg r v).mem = s.mem ∧ (s.writeReg r v).csrs = s.csrs ∧
    (s.writeReg r v).outcome = s.outcome := by
  unfold State.writeReg; split <;> simp

@[simp] theorem writeReg_pc : (s.writeReg r v).pc = s.pc := (writeReg_fields s r v).1
@[simp] theorem writeReg_mem : (s.writeReg r v).mem = s.mem := (writeReg_fields s r v).2.1
@[simp] theorem writeReg_csrs : (s.writeReg r v).csrs = s.csrs := (writeReg_fields s r v).2.2.1
@[simp] theorem writeReg_outcome : (s.writeReg r v).outcome = s.outcome := (writeReg_fields s r v).2.2.2

/-! ## Fields after a CSR write -/

theorem csrWrite_fields : (csrWrite s a v).x = s.x ∧ (csrWrite s a v).pc = s.pc ∧ (csrWrite s a v).mem = s.mem ∧
    (csrWrite s a v).outcome = s.outcome := by
  unfold csrWrite; split <;> simp

@[simp] theorem csrWrite_x : (csrWrite s a v).x = s.x := (csrWrite_fields s a v).1
@[simp] theorem csrWrite_pc : (csrWrite s a v).pc = s.pc := (csrWrite_fields s a v).2.1
@[simp] theorem csrWrite_mem : (csrWrite s a v).mem = s.mem := (csrWrite_fields s a v).2.2.1
@[simp] theorem csrWrite_outcome : (csrWrite s a v).outcome = s.outcome := (csrWrite_fields s a v).2.2.2

/-! ## Updates of different components commute: the outcome and the CSR cells move outwards -/

section Commute

variable (p : Word) (m : Memory) (l : List (Nat × Word)) (o o' : StepOutcome)

@[simp] theorem writeReg_setPc : (s.setPc p).writeReg r v = (s.writeReg r v).setPc p := by
  unfold State.writeReg; split <;> rfl
@[simp] theorem writeReg_setOutcome : (s.setOutcome o).writeReg r v = (s.writeReg r v).setOutcome o := by
  unfold State.writeReg; split <;> rfl
@[simp] theorem writeReg_setCsrs : (s.setCsrs l).writeReg r v = (s.writeReg r v).setCsrs l := by
  unfold State.writeReg; split <;> rfl
@[simp] theorem csrWrite_setOutcome : csrWrite (s.setOutcome o) a v = (csrWrite s a v).setOutcome o := by
  unfold csrWrite; split <;> rfl
@[simp] theorem csrWrite_setPc : csrWrite (s.setPc p) a v = (csrWrite s a v).setPc p := by
  unfold csrWrite; split <;> rfl
@[simp] theorem setOutcome_setOutcome : (s.setOutcome o).setOutcome o' = s.setOutcome o' := rfl
@[simp] theorem setPc_setPc (q : Word) : (s.setPc p).setPc q = s.setPc q := rfl
@[simp] theorem setPc_setOutcome : (s.setOutcome o).setPc p = (s.setPc p).setOutcome o := rfl
@[simp] theorem setMem_setOutcome : (s.setOutcome o).setMem m = (s.setMem m).setOutcome o := rfl
@[simp] theorem setPc_setCsrs : (s.setCsrs l).setPc p = (s.setPc p).setCsrs l := rfl
@[simp] theorem setMem_setCsrs : (s.setCsrs l).setMem m = (s.setMem m).setCsrs l := rfl
@[simp] theorem setOutcome_setCsrs : (s.setCsrs l).setOutcome o = (s.setOutcome o).setCsrs l := rfl

end Commute

/-! ## Register reads -/

/-- A register read looks at nothing but `x`. -/
theorem readReg_congr {s t : State} (h : t.x = s.x) (r : RegId) : t.readReg r = s.readReg r := by
  unfold State.readReg; simp [h]

@[simp] theorem readReg_zero : s.readReg 0#5 = 0#64 := rfl

@[simp] theorem readReg_setPc (p : Word) : (s.setPc p).readReg r = s.readReg r := rfl
@[simp] theorem readReg_setMem (m : Memory) : (s.setMem m).readReg r = s.readReg r := rfl
@[simp] theorem readReg_setCsrs (l : List (Nat × Word)) : (s.setCsrs l).readReg r = s.readReg r := rfl
@[simp] theorem readReg_setOutcome (o : StepOutcome) : (s.setOutcome o).readReg r = s.readReg r := rfl
@[simp] theorem readReg_csrWrite : (csrWrite s a v).readReg r = s.readReg r := readReg_congr (csrWrite_x s a v) r

/-- Reading after writing: the register written reads the value (unless it is `x0`), every other reads as before. -/
theorem readReg_writeReg : (s.writeReg r v).readReg q = if q = r ∧ q ≠ 0 then v else s.readReg q := by
  unfold State.writeReg State.readReg
  have hr := r.isLt
  have hq := q.isLt
  by_cases h0 : r.toNat = 0
  · by_cases hq0 : q.toNat = 0
    · simp [h0, hq0, BitVec.toNat_eq]
    · have hne : q ≠ r := by intro h; subst h; exact hq0 h0
      simp [h0, hq0, hne]
  · by_cases hq0 : q.toNat = 0
    · simp [hq0, BitVec.toNat_eq]
    · by_cases hqr : q = r
      · subst hqr
        simp [h0, BitVec.toNat_eq]
      · have hne : r.toNat - 1 ≠ q.toNat - 1 := by
          intro h; apply hqr; apply BitVec.eq_of_toNat_eq; omega
        simp [h0, hq0, hqr, Vector.getElem_set_ne, hne]

/-- A write to `x0` is discarded (R22). -/
@[simp] theorem writeReg_zero : s.writeReg 0#5 v = s := rfl

/-! ## CSR reads -/

/-- A CSR read looks at nothing but the CSR cells. -/
theorem csrRead_congr {s t : State} (h : t.csrs = s.csrs) (a : CsrAddr) : csrRead t a = csrRead s a := by
  unfold csrRead; simp [h]

@[simp] theorem csrRead_setPc (p : Word) : csrRead (s.setPc p) a = csrRead s a := rfl
@[simp] theorem csrRead_setMem (m : Memory) : csrRead (s.setMem m) a = csrRead s a := rfl
@[simp] theorem csrRead_setOutcome (o : StepOutcome) : csrRead (s.setOutcome o) a = csrRead s a := rfl
@[simp] theorem csrRead_writeReg : csrRead (s.writeReg r v) a = csrRead s a := csrRead_congr (writeReg_csrs s r v) a

/-! ## Byte reads -/

/-- A byte read looks at nothing but the memory. -/
theorem byteAt_congr {s t : State} (h : t.mem = s.mem) (b : Word) : t.byteAt b = s.byteAt b := by
  unfold State.byteAt; simp [h]

@[simp] theorem byteAt_setPc (p b : Word) : (s.setPc p).byteAt b = s.byteAt b := rfl
@[simp] theorem byteAt_setCsrs (l : List (Nat × Word)) (b : Word) : (s.setCsrs l).byteAt b = s.byteAt b := rfl
@[simp] theorem byteAt_setOutcome (o : StepOutcome) (b : Word) : (s.setOutcome o).byteAt b = s.byteAt b := rfl
@[simp] theorem byteAt_writeReg (b : Word) : (s.writeReg r v).byteAt b = s.byteAt b := byteAt_congr (writeReg_mem s r v) b
@[simp] theorem byteAt_csrWrite (b : Word) : (csrWrite s a v).byteAt b = s.byteAt b := byteAt_congr (csrWrite_mem s a v) b

end Sys2Proof.Machine
end

