-- ==== Sys2Proof/Laws/Ops.lean ====
section
/-! SUPPORT. For each shared operation, once, everything it can do: the CSR bank, the memory controller, the Bus, fetch, and the
canonical forms they keep. -/

namespace Sys2Proof.Machine

/-! ## CSR bank -/

/-- R31, R32: after a write the address written reads the value unless it is virtual; every other reads as before. -/
theorem csrRead_csrWrite (s : State) (a b : CsrAddr) (v : Word) :
    csrRead (csrWrite s a v) b = if b = a ∧ b ≠ misaAddr ∧ b ≠ mhartidAddr then v else csrRead s b := by
  unfold csrWrite
  by_cases ha : a = mhartidAddr ∨ a = misaAddr
  · simp only [ha, if_true]
    split
    · rename_i h; rcases ha with rfl | rfl
      · exact absurd h.1 h.2.2
      · exact absurd h.1 h.2.1
    · rfl
  · simp only [ha, if_false]
    have hm : a ≠ mhartidAddr := fun h => ha (.inl h)
    have hi : a ≠ misaAddr := fun h => ha (.inr h)
    unfold csrRead
    simp only [setCsrs_csrs, sparseGet_set]
    by_cases hb : b = a
    · subst hb; simp [hm, hi]
    · have : b.toNat ≠ a.toNat := fun h => hb (BitVec.eq_of_toNat_eq h)
      simp [hb, this]

/-- Writing the two virtual addresses changes nothing (R32). -/
theorem csrWrite_virtual (s : State) (a : CsrAddr) (v : Word) (h : a = mhartidAddr ∨ a = misaAddr) : csrWrite s a v = s := by
  unfold csrWrite; simp [h]

theorem csrsWf_set {l : List (Nat × Word)} {a : CsrAddr} (v : Word) (h : csrsWf l = true)
    (ha : ¬ (a = mhartidAddr ∨ a = misaAddr)) : csrsWf (sparseSet l a.toNat v) = true := by
  simp only [csrsWf, Bool.and_eq_true, List.all_eq_true, decide_eq_true_eq] at h ⊢
  refine ⟨sparseCanonical_set _ _ h.1, fun c hc => ?_⟩
  rcases sparseSet_mem hc with hk | hk
  · rw [hk]
    refine ⟨⟨a.isLt, ?_⟩, ?_⟩
    · intro h1; exact ha (.inr (BitVec.eq_of_toNat_eq (by simpa [misaAddr] using h1)))
    · intro h1; exact ha (.inl (BitVec.eq_of_toNat_eq (by simpa [mhartidAddr] using h1)))
  · exact h.2 c hk

/-! ## Memory -/

@[simp] theorem bytes_b1 : AccessSize.bytes .b1 = 1 := rfl
@[simp] theorem bytes_b2 : AccessSize.bytes .b2 = 2 := rfl
@[simp] theorem bytes_b4 : AccessSize.bytes .b4 = 4 := rfl
@[simp] theorem bytes_b8 : AccessSize.bytes .b8 = 8 := rfl

theorem bytes_le (n : AccessSize) : n.bytes ≤ 8 := by cases n <;> decide

/-- R11: the capacity of a well-formed state leaves the RAM window inside the address space. -/
theorem size_of_wf {s : State} (h : s.wf = true) : s.mem.size ≤ 2 ^ 64 - 2 ^ 31 := by
  simp only [State.wf, Memory.wf, Bool.and_eq_true, decide_eq_true_eq] at h
  exact h.1.2

@[simp] theorem setByte_size (m : Memory) (o : Nat) (b : Byte) : (m.setByte o b).size = m.size := rfl

/-- One byte written: that offset reads it, every other as before. -/
theorem byte_setByte (m : Memory) (o p : Nat) (b : Byte) :
    (m.setByte o b).byte p = if p = o then b else m.byte p := by
  unfold Memory.setByte Memory.byte; exact sparseGet_set _ _ _ _

@[simp] theorem setLe_size (m : Memory) (o : Nat) (v : Word) (n : Nat) : (m.setLe o v n).size = m.size := by
  induction n generalizing m o v with
  | zero => rfl
  | succ n ih => simp [Memory.setLe, ih]

/-- R52: exactly the `n` bytes from `o` on change; byte `i` is `v[8i+7:8i]`. -/
theorem byte_setLe (m : Memory) (o p : Nat) (v : Word) (n : Nat) :
    (m.setLe o v n).byte p = if o ≤ p ∧ p < o + n then v.extractLsb' (8 * (p - o)) 8 else m.byte p := by
  induction n generalizing m o v with
  | zero =>
    have : ¬ (o ≤ p ∧ p < o + 0) := by omega
    simp only [this, if_false, Memory.setLe]
  | succ n ih =>
    simp only [Memory.setLe, ih, byte_setByte]
    by_cases hp : p = o
    · subst hp
      have h1 : ¬ (p + 1 ≤ p ∧ p < p + 1 + n) := by omega
      have h2 : p ≤ p ∧ p < p + (n + 1) := by omega
      simp only [h1, h2, if_true, if_false, and_self]
      apply BitVec.eq_of_toNat_eq
      simp
    · by_cases h : o + 1 ≤ p ∧ p < o + 1 + n
      · have h' : o ≤ p ∧ p < o + (n + 1) := by omega
        simp only [h, h', if_true, and_self]
        apply BitVec.eq_of_getLsbD_eq
        intro i hi
        have : 8 + (8 * (p - (o + 1)) + i) = 8 * (p - o) + i := by omega
        simp [BitVec.getLsbD_extractLsb', BitVec.getLsbD_ushiftRight, this]
      · have h' : ¬ (o ≤ p ∧ p < o + (n + 1)) := by omega
        simp only [h, h', hp, if_false]

/-- R51: byte `i` of the little-endian value is `MEM[o + i]`. -/
theorem leNat_digit (m : Memory) (o n i : Nat) (hi : i < n) : m.leNat o n / 256 ^ i % 256 = (m.byte (o + i)).toNat := by
  induction n generalizing o i with
  | zero => omega
  | succ n ih =>
    have hb := (m.byte o).isLt
    simp only [Memory.leNat]
    cases i with
    | zero => simp; omega
    | succ i =>
      rw [Nat.pow_succ', ← Nat.div_div_eq_div_mul]
      have : ((m.byte o).toNat + 256 * m.leNat (o + 1) n) / 256 = m.leNat (o + 1) n := by omega
      rw [this, ih (o + 1) i (by omega)]
      congr 2; omega

/-- An `n`-byte value is below `256^n`. -/
theorem leNat_lt (m : Memory) (o n : Nat) : m.leNat o n < 256 ^ n := by
  induction n generalizing o with
  | zero => simp [Memory.leNat]
  | succ n ih =>
    have hb := (m.byte o).isLt
    have := ih (o + 1)
    simp only [Memory.leNat, Nat.pow_succ]; omega

/-- The value depends on the bytes of its range alone. -/
theorem leNat_congr {m m' : Memory} (o n : Nat) (h : ∀ i < n, m'.byte (o + i) = m.byte (o + i)) :
    m'.leNat o n = m.leNat o n := by
  induction n generalizing o with
  | zero => rfl
  | succ n ih =>
    simp only [Memory.leNat]
    rw [ih (o + 1) (fun i hi => by have := h (i + 1) (by omega); rwa [show o + (i + 1) = o + 1 + i by omega] at this)]
    have := h 0 (by omega)
    simp at this; rw [this]

/-- The little-endian value of bytes that hold the bytes of `v` is `v mod 256^n`. -/
theorem leNat_of_bytes (m : Memory) (o n : Nat) (v : Word)
    (h : ∀ i < n, m.byte (o + i) = v.extractLsb' (8 * i) 8) : m.leNat o n = v.toNat % 256 ^ n := by
  induction n generalizing o v with
  | zero => simp [Memory.leNat, Nat.mod_one]
  | succ n ih =>
    have h0 := h 0 (by omega)
    have hrest : ∀ i < n, m.byte (o + 1 + i) = (v >>> 8).extractLsb' (8 * i) 8 := by
      intro i hi
      rw [show o + 1 + i = o + (i + 1) by omega, h (i + 1) (by omega)]
      apply BitVec.eq_of_getLsbD_eq
      intro j hj
      have : 8 * (i + 1) + j = 8 + (8 * i + j) := by omega
      simp [BitVec.getLsbD_extractLsb', BitVec.getLsbD_ushiftRight, this]
    simp only [Memory.leNat]
    rw [ih (o + 1) (v >>> 8) hrest]
    simp at h0
    rw [h0]
    simp only [BitVec.extractLsb'_toNat, BitVec.toNat_ushiftRight, Nat.shiftRight_eq_div_pow]
    rw [show (256 : Nat) ^ (n + 1) = 256 * 256 ^ n from Nat.pow_succ', Nat.mod_mul (x := v.toNat) (a := 256)]
    simp

/-- R54: a write followed by a read of the same bytes gives the value written, cut to the width. -/
theorem leNat_setLe (m : Memory) (o n : Nat) (v : Word) : (m.setLe o v n).leNat o n = v.toNat % 256 ^ n := by
  apply leNat_of_bytes
  intro i hi
  rw [byte_setLe]
  have : o ≤ o + i ∧ o + i < o + n := by omega
  simp only [this, if_true, and_self]
  congr 2; omega

/-- A byte write inside the array keeps the memory's canonical form. -/
theorem Memory.wf_setByte {m : Memory} (o : Nat) (b : Byte) (ho : o < m.size) (h : m.wf = true) : (m.setByte o b).wf = true := by
  simp only [Memory.wf, Bool.and_eq_true, List.all_eq_true, decide_eq_true_eq] at h ⊢
  refine ⟨⟨⟨sparseCanonical_set _ _ h.1.1.1, fun c hc => ?_⟩, h.1.2⟩, h.2⟩
  rcases sparseSet_mem hc with hk | hk
  · rw [hk]; exact ho
  · exact h.1.1.2 c hk

/-- A write of `n` bytes inside the array keeps the memory's canonical form. -/
theorem Memory.wf_setLe {m : Memory} (o : Nat) (v : Word) (n : Nat) (ho : o + n ≤ m.size) (h : m.wf = true) :
    (m.setLe o v n).wf = true := by
  induction n generalizing m o v with
  | zero => exact h
  | succ n ih =>
    exact ih (o + 1) (v >>> 8) (by simp; omega) (Memory.wf_setByte o _ (by omega) h)

/-! ## Bus -/

/-- The routing check says that every byte of the access is in the RAM window (R57). -/
theorem accessValid_iff (s : State) (a : Word) (n : AccessSize) : accessValid s.mem a n = true ↔ InRam s a n.bytes := by
  simp only [accessValid, Bool.and_eq_true, decide_eq_true_eq]
  rfl

/-- R59, an access in RAM: the little-endian value of its bytes. -/
theorem busRead_ok {s : State} {a : Word} {n : AccessSize} (h : InRam s a n.bytes) :
    busRead s a n = .ok (BitVec.ofNat 64 (s.mem.leNat (ramOffset a) n.bytes)) := by
  simp [busRead, (accessValid_iff s a n).2 h]

/-- R59, any other access: the exception with the address presented and the size. -/
theorem busRead_error {s : State} {a : Word} {n : AccessSize} (h : ¬ InRam s a n.bytes) :
    busRead s a n = .error (.invalidMemoryAccess a n) := by
  simp [busRead, mt (accessValid_iff s a n).1 h]

/-- R60, an access in RAM. -/
theorem busWrite_ok {s : State} {a : Word} {n : AccessSize} (v : Word) (h : InRam s a n.bytes) :
    busWrite s a n v = .ok (s.setMem (s.mem.setLe (ramOffset a) v n.bytes)) := by
  simp [busWrite, (accessValid_iff s a n).2 h]

/-- R60, any other access. -/
theorem busWrite_error {s : State} {a : Word} {n : AccessSize} (v : Word) (h : ¬ InRam s a n.bytes) :
    busWrite s a n v = .error (.invalidMemoryAccess a n) := by
  simp [busWrite, mt (accessValid_iff s a n).1 h]

/-- A Bus write keeps the state well-formed. -/
theorem busWrite_wf {s t : State} {a v : Word} {n : AccessSize} (h : busWrite s a n v = .ok t) (hs : s.wf = true) : t.wf = true := by
  by_cases hr : InRam s a n.bytes
  · rw [busWrite_ok v hr] at h
    obtain ⟨h1, h2⟩ := hr
    have hw : s.mem.wf = true ∧ csrsWf s.csrs = true := by simpa [State.wf] using hs
    cases h
    simp only [State.wf, Bool.and_eq_true]
    exact ⟨Memory.wf_setLe _ v _ h2 hw.1, hw.2⟩
  · rw [busWrite_error v hr] at h; cases h

/-- A CSR write keeps the state well-formed. -/
theorem csrWrite_wf {s : State} (a : CsrAddr) (v : Word) (hs : s.wf = true) : (csrWrite s a v).wf = true := by
  unfold csrWrite
  split
  · exact hs
  · rename_i ha
    have hw : s.mem.wf = true ∧ csrsWf s.csrs = true := by simpa [State.wf] using hs
    simp only [State.wf, Bool.and_eq_true]
    exact ⟨hw.1, csrsWf_set v hw.2 ha⟩

/-- A register write keeps the state well-formed. -/
theorem writeReg_wf (s : State) (r : RegId) (v : Word) : (s.writeReg r v).wf = s.wf := by
  simp [State.wf]

/-- The memory after reset has its canonical form. -/
theorem reset_mem_wf : State.reset.mem.wf = true := by decide

/-- R111: fetch in RAM reads the word at the pc and advances the pc. -/
theorem fetch_ok {s : State} (h : InRam s s.pc 4) :
    fetch s = .ok ((BitVec.ofNat 64 (s.mem.leNat (ramOffset s.pc) 4)).setWidth 32, s.setPc (s.pc + 4)) := by
  have : busRead s s.pc .b4 = _ := busRead_ok (n := .b4) h
  simp only [fetch, this]; rfl

/-- R112: fetch elsewhere raises, with the pc and the size 4. -/
theorem fetch_error {s : State} (h : ¬ InRam s s.pc 4) : fetch s = .error (.invalidMemoryAccess s.pc .b4) := by
  have : busRead s s.pc .b4 = _ := busRead_error (n := .b4) h
  simp only [fetch, this]

end Sys2Proof.Machine
end

