-- ==== Sys2Proof/Laws/Exec.lean ====
section
/-! SUPPORT. Execution: for each family of R267, once, everything its instructions can do, so that no later proof unfolds a meaning;
then what a retired register write, CSR write and store leave, in the terms of `Safety.lean`. -/

namespace Sys2Proof.Machine

/-! ## Everything an instruction can do -/

/-- Integer computational, multiply and divide: one register write, then retire (R130, R205). -/
theorem exec_computational {i : Instr} (h : family i = .integer ∨ family i = .mulDiv) (s : State) :
    ∃ rd v, exec i s = retire (s.writeReg rd v) := by
  cases i <;> first | (simp [family] at h; done) | exact ⟨_, _, rfl⟩

/-- Control transfer: at most one register write and a pc, then retire (R170). A branch is the case `rd = 0`. -/
theorem exec_control {i : Instr} (h : family i = .control) (s : State) :
    ∃ rd v p, exec i s = retire ((s.writeReg rd v).setPc p) := by
  have hb : ∀ (c : Word → Word → Bool) (rs1 rs2 : RegId) (imm : BitVec 13),
      ∃ rd v p, branch c rs1 rs2 imm s = retire ((s.writeReg rd v).setPc p) := by
    intro c rs1 rs2 imm
    unfold branch
    split
    · exact ⟨0, 0, _, rfl⟩
    · exact ⟨0, 0, s.pc, rfl⟩
  cases i <;> first
    | (simp [family] at h; done)
    | exact ⟨_, _, _, rfl⟩
    | exact hb _ _ _ _

/-- A load reads inside RAM and writes one register, or raises with the address and width (R187, R190). -/
theorem load_cases (n : AccessSize) (ext : Word → Word) (rd rs1 : RegId) (imm : BitVec 12) (s : State) :
    (InRam s (s.ea rs1 imm) n.bytes ∧ load n ext rd rs1 imm s =
      retire (s.writeReg rd (ext (BitVec.ofNat 64 (s.mem.leNat (ramOffset (s.ea rs1 imm)) n.bytes))))) ∨
    (¬ InRam s (s.ea rs1 imm) n.bytes ∧ load n ext rd rs1 imm s = raise (.invalidMemoryAccess (s.ea rs1 imm) n) s) := by
  by_cases hr : InRam s (s.ea rs1 imm) n.bytes
  · exact .inl ⟨hr, by simp only [load, busRead_ok hr]⟩
  · exact .inr ⟨hr, by simp only [load, busRead_error hr]⟩

/-- A store writes inside RAM, or raises with the address and width (R188, R190). -/
theorem store_cases (n : AccessSize) (rs1 rs2 : RegId) (imm : BitVec 12) (s : State) :
    (InRam s (s.ea rs1 imm) n.bytes ∧ store n rs1 rs2 imm s =
      retire (s.setMem (s.mem.setLe (ramOffset (s.ea rs1 imm)) (s.readReg rs2) n.bytes))) ∨
    (¬ InRam s (s.ea rs1 imm) n.bytes ∧ store n rs1 rs2 imm s = raise (.invalidMemoryAccess (s.ea rs1 imm) n) s) := by
  by_cases hr : InRam s (s.ea rs1 imm) n.bytes
  · exact .inl ⟨hr, by simp only [store, busWrite_ok _ hr]⟩
  · exact .inr ⟨hr, by simp only [store, busWrite_error _ hr]⟩

/-- A load reads the bytes of its access, wholly in RAM, into one register, or raises with that access (R187, R190). -/
theorem exec_load {i : Instr} (h : family i = .load) (s : State) :
    ∃ rs1 imm n, dataAccess i = some (rs1, imm, n) ∧
      ((InRam s (s.ea rs1 imm) n.bytes ∧ ∃ rd v, exec i s = retire (s.writeReg rd v)) ∨
       (¬ InRam s (s.ea rs1 imm) n.bytes ∧ exec i s = raise (.invalidMemoryAccess (s.ea rs1 imm) n) s)) := by
  have hl : ∀ (n : AccessSize) ext rd rs1 imm,
      (InRam s (s.ea rs1 imm) n.bytes ∧ ∃ q v, load n ext rd rs1 imm s = retire (s.writeReg q v)) ∨
      (¬ InRam s (s.ea rs1 imm) n.bytes ∧ load n ext rd rs1 imm s = raise (.invalidMemoryAccess (s.ea rs1 imm) n) s) :=
    fun n ext rd rs1 imm => (load_cases n ext rd rs1 imm s).imp_left fun ⟨hr, he⟩ => ⟨hr, _, _, he⟩
  cases i <;> first | (simp [family] at h; done) | exact ⟨_, _, _, rfl, hl _ _ _ _ _⟩

/-- A store writes the bytes of its access, wholly in RAM, or raises with that access (R188, R190). -/
theorem exec_store {i : Instr} (h : family i = .store) (s : State) :
    ∃ rs1 imm n, dataAccess i = some (rs1, imm, n) ∧
      ((InRam s (s.ea rs1 imm) n.bytes ∧
          ∃ v, exec i s = retire (s.setMem (s.mem.setLe (ramOffset (s.ea rs1 imm)) v n.bytes))) ∨
       (¬ InRam s (s.ea rs1 imm) n.bytes ∧ exec i s = raise (.invalidMemoryAccess (s.ea rs1 imm) n) s)) := by
  have hs : ∀ (n : AccessSize) rs1 rs2 imm,
      (InRam s (s.ea rs1 imm) n.bytes ∧
          ∃ v, store n rs1 rs2 imm s = retire (s.setMem (s.mem.setLe (ramOffset (s.ea rs1 imm)) v n.bytes))) ∨
      (¬ InRam s (s.ea rs1 imm) n.bytes ∧ store n rs1 rs2 imm s = raise (.invalidMemoryAccess (s.ea rs1 imm) n) s) :=
    fun n rs1 rs2 imm => (store_cases n rs1 rs2 imm s).imp_left fun ⟨hr, he⟩ => ⟨hr, _, he⟩
  cases i <;> first | (simp [family] at h; done) | exact ⟨_, _, _, rfl, hs _ _ _ _⟩

/-- CSR instructions: at most one CSR write and one register write, then retire (R226). -/
theorem csrSwap_eq (rd : RegId) (csr : CsrAddr) (v : Word) (s : State) :
    csrSwap rd csr v s = retire ((csrWrite s csr v).writeReg rd (csrRead s csr)) := by
  unfold csrSwap
  split
  · rename_i h; subst h; rfl
  · rfl

theorem csrModify_eq (f : Word → Word → Word) (rd : RegId) (csr : CsrAddr) (v : Word) (s : State) :
    csrModify f rd csr v s =
      retire ((if v = 0 then s else csrWrite s csr (f (csrRead s csr) v)).writeReg rd (csrRead s csr)) := rfl

theorem exec_csr {i : Instr} (h : family i = .csr) (s : State) :
    ∃ rd v, exec i s = retire (s.writeReg rd v) ∨ ∃ a w, exec i s = retire ((csrWrite s a w).writeReg rd v) := by
  have hm : ∀ f rd csr v, ∃ q u, csrModify f rd csr v s = retire (s.writeReg q u) ∨
      ∃ a w, csrModify f rd csr v s = retire ((csrWrite s a w).writeReg q u) := by
    intro f rd csr v
    rw [csrModify_eq]
    split
    · exact ⟨_, _, .inl rfl⟩
    · exact ⟨_, _, .inr ⟨_, _, rfl⟩⟩
  have hs : ∀ rd csr v, ∃ q u, csrSwap rd csr v s = retire (s.writeReg q u) ∨
      ∃ a w, csrSwap rd csr v s = retire ((csrWrite s a w).writeReg q u) := by
    intro rd csr v
    exact ⟨_, _, .inr ⟨_, _, csrSwap_eq rd csr v s⟩⟩
  cases i <;> first | (simp [family] at h; done) | exact hm _ _ _ _ | exact hs _ _ _

theorem exec_fence_eq (s : State) : exec .fence s = retire s := rfl
theorem exec_ecall_eq (s : State) : exec .ecall s = halt .ecall s := rfl
theorem exec_ebreak_eq (s : State) : exec .ebreak s = halt .ebreak s := rfl

/-- Everything an instruction can do, in one statement. -/
theorem exec_cases (i : Instr) (s : State) :
    (∃ rd v p, exec i s = retire ((s.writeReg rd v).setPc p) ∧ (p = s.pc ∨ family i = .control)) ∨
    (family i = .store ∧ ∃ rs1 imm n, dataAccess i = some (rs1, imm, n) ∧ InRam s (s.ea rs1 imm) n.bytes ∧
      ∃ v, exec i s = retire (s.setMem (s.mem.setLe (ramOffset (s.ea rs1 imm)) v n.bytes))) ∨
    (family i = .csr ∧ ∃ rd v a w, exec i s = retire ((csrWrite s a w).writeReg rd v)) ∨
    (family i = .halt ∧ ∃ h, exec i s = halt h s) ∨
    ((family i = .load ∨ family i = .store) ∧ ∃ rs1 imm n, dataAccess i = some (rs1, imm, n) ∧
      ¬ InRam s (s.ea rs1 imm) n.bytes ∧ exec i s = raise (.invalidMemoryAccess (s.ea rs1 imm) n) s) := by
  have keep : ∀ rd v, s.writeReg rd v = (s.writeReg rd v).setPc s.pc := by
    intro rd v; rw [← writeReg_pc s rd v]; rfl
  cases hf : family i
  · obtain ⟨rd, v, he⟩ := exec_computational (.inl hf) s
    exact .inl ⟨rd, v, s.pc, by rw [he]; exact congrArg retire (keep rd v), .inl rfl⟩
  · obtain ⟨rd, v, p, he⟩ := exec_control hf s
    exact .inl ⟨rd, v, p, he, .inr rfl⟩
  · obtain ⟨rs1, imm, n, ha, ⟨-, rd, v, he⟩ | ⟨hr, he⟩⟩ := exec_load hf s
    · exact .inl ⟨rd, v, s.pc, by rw [he]; exact congrArg retire (keep rd v), .inl rfl⟩
    · exact .inr (.inr (.inr (.inr ⟨.inl rfl, rs1, imm, n, ha, hr, he⟩)))
  · obtain ⟨rs1, imm, n, ha, ⟨hr, he⟩ | ⟨hr, he⟩⟩ := exec_store hf s
    · exact .inr (.inl ⟨rfl, rs1, imm, n, ha, hr, he⟩)
    · exact .inr (.inr (.inr (.inr ⟨.inr rfl, rs1, imm, n, ha, hr, he⟩)))
  · obtain ⟨rd, v, he⟩ := exec_computational (.inr hf) s
    exact .inl ⟨rd, v, s.pc, by rw [he]; exact congrArg retire (keep rd v), .inl rfl⟩
  · obtain ⟨rd, v, he | ⟨a, w, he⟩⟩ := exec_csr hf s
    · exact .inl ⟨rd, v, s.pc, by rw [he]; exact congrArg retire (keep rd v), .inl rfl⟩
    · exact .inr (.inr (.inl ⟨rfl, rd, v, a, w, he⟩))
  · cases i <;> first
      | (simp [family] at hf; done)
      | exact .inl ⟨0, 0, s.pc, rfl, .inl rfl⟩
  · refine .inr (.inr (.inr (.inl ⟨rfl, ?_⟩)))
    cases i <;> first
      | (simp [family] at hf; done)
      | exact ⟨_, rfl⟩

/-! ## What each effect leaves -/

@[simp] theorem retire_eq (s : State) : retire s = .next (s.setOutcome .retired) := rfl
@[simp] theorem halt_eq (h : HaltKind) (s : State) : halt h s = .next (s.setOutcome (.halt h)) := rfl
@[simp] theorem raise_eq (k : ExceptionKind) (s : State) : raise k s = .fault (.exception k (s.setOutcome (.exception k))) := rfl

theorem sameRegs_of_x {s t : State} (h : t.x = s.x) : SameRegs s t := readReg_congr h
theorem sameMem_of_mem {s t : State} (h : t.mem = s.mem) : SameMem s t := ⟨congrArg Memory.size h, byteAt_congr h⟩
theorem sameCsrs_of_csrs {s t : State} (h : t.csrs = s.csrs) : SameCsrs s t := csrRead_congr h

/-- A register write and a retirement, and nothing else. -/
theorem onlyRegWritten (s : State) (rd : RegId) (v : Word) :
    OnlyRegWritten s ((s.writeReg rd v).setOutcome .retired) rd v := by
  exact ⟨rfl, ⟨rfl, fun r => (readReg_setOutcome ..).trans (readReg_writeReg s rd r v)⟩, writeReg_pc s rd v,
    ⟨congrArg Memory.size (writeReg_mem s rd v), fun a => (byteAt_setOutcome ..).trans (byteAt_writeReg ..)⟩,
    fun a => (csrRead_setOutcome ..).trans (csrRead_writeReg ..)⟩

/-- A computational instruction retires with its result written (R130). -/
theorem writeBack_only (rd : RegId) (v : Word) (s : State) : ∃ t, writeBack rd v s = .next t ∧ OnlyRegWritten s t rd v :=
  ⟨_, rfl, onlyRegWritten s rd v⟩

/-- The little-endian sum of `Safety.lean` is the value the memory controller assembles (R51). -/
theorem leNat_eq_sum (m : Memory) (o n : Nat) : m.leNat o n = ∑ i ∈ Finset.range n, (m.byte (o + i)).toNat * 256 ^ i := by
  induction n generalizing o with
  | zero => rfl
  | succ n ih =>
    rw [Finset.sum_range_succ', Memory.leNat, ih, Finset.mul_sum]
    simp only [pow_zero, mul_one, add_zero]
    rw [add_comm]
    congr 1
    apply Finset.sum_congr rfl
    intro i _
    rw [show o + 1 + i = o + (i + 1) by omega, pow_succ]; ring

theorem leValue_eq (s : State) (a : Word) (n : Nat) : leValue s a n = s.mem.leNat (ramOffset a) n := (leNat_eq_sum _ _ _).symm

/-- The model's effective address is the integer sum modulo 2^64 (R185). -/
theorem ea_eq_effAddr (s : State) (rs1 : RegId) (imm : BitVec 12) : s.ea rs1 imm = effAddr s rs1 imm := by
  unfold State.ea effAddr imm12
  rw [BitVec.ofInt_add, BitVec.ofInt_toInt, BitVec.signExtend]

/-- What a byte reads after a store in RAM (R52, R60). -/
theorem byteAt_store (s : State) (a b v : Word) (n : Nat) (hr : InRam s a n) :
    (s.setMem (s.mem.setLe (ramOffset a) v n)).byteAt b =
      if a.toNat ≤ b.toNat ∧ b.toNat < a.toNat + n then some (v.extractLsb' (8 * (b.toNat - a.toNat)) 8) else s.byteAt b := by
  obtain ⟨h1, h2⟩ := hr
  unfold State.byteAt accessValid
  simp only [setMem_mem, setLe_size, byte_setLe, ramOffset, AccessSize.bytes, Bool.and_eq_true, decide_eq_true_eq]
  by_cases hb : Config.memBase ≤ b.toNat
  · have e1 : (a.toNat - Config.memBase ≤ b.toNat - Config.memBase ∧
        b.toNat - Config.memBase < a.toNat - Config.memBase + n) ↔ (a.toNat ≤ b.toNat ∧ b.toNat < a.toNat + n) := by omega
    simp only [e1, hb, true_and]
    by_cases hin : a.toNat ≤ b.toNat ∧ b.toNat < a.toNat + n
    · have e2 : b.toNat - Config.memBase + 1 ≤ s.mem.size := by omega
      have e3 : b.toNat - Config.memBase - (a.toNat - Config.memBase) = b.toNat - a.toNat := by omega
      simp only [hin, and_self, if_true, e2, e3]
    · simp only [hin, if_false]
      by_cases hs : b.toNat - Config.memBase + 1 ≤ s.mem.size <;> simp [hs]
  · have : ¬ (a.toNat ≤ b.toNat ∧ b.toNat < a.toNat + n) := by omega
    simp only [hb, false_and, if_false, this]

/-! ## Reading an answer backwards -/

/-- Only a load or store raises, with its own access, not wholly in RAM, and it leaves the state as it was (R187, R188). -/
theorem exec_fault {i : Instr} {s t : State} {k : ExceptionKind} (h : exec i s = .fault (.exception k t)) :
    t = s.setOutcome (.exception k) ∧ ∃ rs1 imm n, dataAccess i = some (rs1, imm, n) ∧
      k = .invalidMemoryAccess (s.ea rs1 imm) n ∧ ¬ InRam s (s.ea rs1 imm) n.bytes := by
  rcases exec_cases i s with ⟨rd, v, p, he, -⟩ | ⟨-, rs1, imm, n, -, -, v, he⟩ | ⟨-, rd, v, a, w, he⟩ | ⟨-, k, he⟩ |
    ⟨-, rs1, imm, n, ha, hr, he⟩ <;> rw [he] at h <;> cases h
  exact ⟨rfl, rs1, imm, n, ha, rfl, hr⟩

/-- Only ECALL and EBREAK halt, and they leave the state as it was (R250). -/
theorem exec_halted {i : Instr} {s t : State} {h : HaltKind} (hn : exec i s = .next t) (ho : t.outcome = .halt h) :
    t = s.setOutcome (.halt h) ∧ family i = .halt := by
  rcases exec_cases i s with ⟨rd, v, p, he, -⟩ | ⟨-, rs1, imm, n, -, -, v, he⟩ | ⟨-, rd, v, a, w, he⟩ | ⟨hf, k, he⟩ |
    ⟨-, rs1, imm, n, -, -, he⟩ <;> rw [he] at hn <;> cases hn <;> simp at ho
  subst ho
  exact ⟨rfl, hf⟩

/-! ## Step -/

/-- R114, a fetched word that decodes. -/
theorem step_of_decode {s s1 : State} {w : BitVec 32} {i : Instr} (hf : fetch s = .ok (w, s1)) (hd : decode w = .ok i) :
    step s = exec i s1 := by simp only [step, hf, hd]

/-- Decode has one way to fail, and it carries the word it was given (R80). -/
theorem decode_error {w : BitVec 32} {e : DecodeError} (h : decode w = .error e) : e = .undecodableInstruction w := by
  have key : ∀ (x : Except DecodeError Instr), (x = undecodable w ∨ ∃ i, x = .ok i) → x = .error e → e = .undecodableInstruction w := by
    rintro x (rfl | ⟨i, rfl⟩) hx
    · simpa [undecodable] using hx.symm
    · exact nomatch hx
  apply key _ _ h
  unfold decode decodeLoad decodeStore decodeBranch decodeJalr decodeOpImm decodeOpImm32 decodeOp decodeOp32 decodeMiscMem
    decodeSystem
  repeat' split
  all_goals first | exact .inl rfl | exact .inr ⟨_, rfl⟩

/-- Everything a step can do. -/
theorem step_cases (s : State) :
    (¬ InRam s s.pc 4 ∧ step s = raise (.invalidMemoryAccess s.pc .b4) s) ∨
    (InRam s s.pc 4 ∧ ∃ w, fetch s = .ok (w, (s.setPc (s.pc + 4))) ∧
      ((decode w = .error (.undecodableInstruction w) ∧
          step s = raise (.undecodableInstruction w) (s.setPc (s.pc + 4))) ∨
       ∃ i, decode w = .ok i ∧ step s = exec i (s.setPc (s.pc + 4)))) := by
  by_cases hr : InRam s s.pc 4
  · refine .inr ⟨hr, _, fetch_ok hr, ?_⟩
    cases hd : decode ((BitVec.ofNat 64 (s.mem.leNat (ramOffset s.pc) 4)).setWidth 32) with
    | error e =>
      have := decode_error hd
      subst this
      exact .inl ⟨rfl, by simp only [step, fetch_ok hr, hd]⟩
    | ok i => exact .inr ⟨i, rfl, step_of_decode (fetch_ok hr) hd⟩
  · exact .inl ⟨hr, by simp only [step, fetch_error hr]⟩

/-! ## Runs -/

/-- One step of a run, by the outcome of the step (R119, R120). -/
theorem runFor_succ (k : Nat) {s t : State} {o : StepOutcome} (h : stepOutcome s = some (o, t)) :
    runFor (k + 1) s = if o = .retired then runFor k t else .ended o t := by
  unfold stepOutcome at h
  rw [runFor]
  split at h
  · simp at h; obtain ⟨rfl, rfl⟩ := h; rfl
  · simp at h; obtain ⟨rfl, rfl⟩ := h; rfl
  · cases h

end Sys2Proof.Machine
end

