-- ==== Sys2Proof/Laws/Alu.lean ====
section
/-! SUPPORT. The values: for each operation of `Operands.lean`, `Flags.lean`, `Alu.lean` and `LoadStore.lean`, once, what it
computes in exact integer arithmetic narrowed at the end (the form of the rule shapes of `Safety.lean`). -/

namespace Sys2Proof.Machine

/-! ## Narrowing -/

/-- A bit vector is known by its natural number modulo 2^n. -/
theorem eq_ofNat_of_toNat {n : Nat} {x : BitVec n} {k : Nat} (h : x.toNat = k % 2 ^ n) : x = BitVec.ofNat n k := by
  apply BitVec.eq_of_toNat_eq; rw [BitVec.toNat_ofNat]; exact h

/-- Sign-extension keeps the signed value. -/
theorem signExtend_eq_ofInt {k : Nat} (x : BitVec k) : x.signExtend 64 = BitVec.ofInt 64 x.toInt := rfl

/-- A quotient of a number below `m` is below `m`. -/
theorem div_eq_mod {a m : Nat} (k : Nat) (h : a < m) : a / k = a / k % m :=
  (Nat.mod_eq_of_lt (Nat.lt_of_le_of_lt (Nat.div_le_self _ _) h)).symm

/-! ## Operands -/

theorem shamt64_eq (b : Word) : shamt64 b = b.toNat % 64 := by simp [shamt64]
theorem shamt32_eq (b : Word) : shamt32 b = b.toNat % 32 := by simp [shamt32]
theorem zimm_eq (u : BitVec 5) : zimm u = BitVec.ofNat 64 u.toNat :=
  BitVec.eq_of_toNat_eq (by rw [zimm, BitVec.toNat_setWidth, BitVec.toNat_ofNat])

/-- `ia + x` is the integer sum on the pc less 4 (R116). -/
theorem ia_add_eq_pcRelative (s : State) {x : Word} {k : Int} (h : x = BitVec.ofInt 64 k) : s.ia + x = pcRelative s k := by
  subst h
  unfold State.ia pcRelative
  rw [BitVec.ofInt_add, Int.sub_eq_add_neg, BitVec.ofInt_add]
  simp [BitVec.sub_eq_add_neg]

/-- The link is the pc as Fetch left it (R116, R170). -/
@[simp] theorem ia_add_four (s : State) : s.ia + 4 = s.pc := by simp [State.ia]

theorem boolWord_decide (c : Prop) [Decidable c] : boolWord (decide c) = oneIf c := by simp [boolWord, oneIf]

/-! ## W-forms (R131) -/

theorem low32_ofInt (k : Int) : low32 (BitVec.ofInt 64 k) = BitVec.ofInt 32 k := by
  apply BitVec.eq_of_toNat_eq
  simp only [low32, BitVec.toNat_setWidth, BitVec.toNat_ofInt]; omega
theorem low32_eq (a : Word) : low32 a = BitVec.ofInt 32 a.toInt := by
  conv => lhs; rw [← BitVec.ofInt_toInt (x := a), low32_ofInt]
theorem low32_toNat (a : Word) : (low32 a).toNat = a.toNat % 2 ^ 32 := by simp [low32]
theorem low32_toInt (a : Word) : (low32 a).toInt = s32 a.toInt := by rw [low32_eq, BitVec.toInt_ofInt]; rfl

/-- A 32-bit result that is `k` modulo 2^32 is written as the signed reading of `k`. -/
theorem sextW_eq {x : BitVec 32} {k : Int} (h : x = BitVec.ofInt 32 k) : sextW x = w32 k := by
  subst h; rw [sextW, signExtend_eq_ofInt, BitVec.toInt_ofInt]; rfl

theorem sextW_shiftLeft (a : Word) (n : Nat) : sextW (low32 a <<< n) = w32 (a.toNat * 2 ^ n : Nat) := by
  apply sextW_eq; rw [BitVec.ofInt_natCast]; apply eq_ofNat_of_toNat
  simp [low32, Nat.shiftLeft_eq, Nat.mod_mul_mod]
theorem sextW_ushiftRight (a : Word) (n : Nat) : sextW (low32 a >>> n) = w32 (a.toNat % 2 ^ 32 / 2 ^ n : Nat) := by
  apply sextW_eq; rw [BitVec.ofInt_natCast]; apply eq_ofNat_of_toNat
  rw [BitVec.toNat_ushiftRight, low32_toNat, Nat.shiftRight_eq_div_pow]
  exact div_eq_mod _ (Nat.mod_lt _ (Nat.two_pow_pos 32))
theorem sextW_sshiftRight (a : Word) (n : Nat) : sextW ((low32 a).sshiftRight n) = w32 (s32 a.toInt / 2 ^ n) := by
  apply sextW_eq; rw [BitVec.sshiftRight, Int.shiftRight_eq_div_pow, low32_toInt]; norm_cast

/-! ## Multiply and divide (R207 to R220) -/

/-- Bits 127:64 of an exact product are its floor quotient by 2^64 (R208). -/
theorem highHalf_eq (p : Int) : highHalf p = BitVec.ofInt 64 (p / 2 ^ 64) := by
  apply BitVec.eq_of_toNat_eq
  simp only [highHalf, BitVec.extractLsb'_toNat, BitVec.toNat_ofInt, Nat.shiftRight_eq_div_pow]
  omega

section Division

variable {w : Nat} (a b : BitVec w)

theorem toInt_eq_zero_iff : b.toInt = 0 ↔ b = 0#w := by rw [← BitVec.toInt_inj]; simp
theorem toNat_eq_zero_iff : b.toNat = 0 ↔ b = 0#w := by rw [← BitVec.toNat_inj]; simp

/-- The tests of the signed corner cases, read on integers. -/
theorem signed_corner_iff (hw : 1 < w) : (b = 0 ↔ b.toInt = 0) ∧ (a = BitVec.intMin w ↔ a.toInt = -(2 ^ (w - 1))) ∧
    (b = BitVec.allOnes w ↔ b.toInt = -1) := by
  refine ⟨(toInt_eq_zero_iff b).symm, ?_, ?_⟩
  · rw [← BitVec.toInt_inj, BitVec.toInt_intMin_of_pos (by omega)]
  · rw [← BitVec.toInt_inj, BitVec.toInt_allOnes]; simp [show 0 < w by omega]

theorem divS_eq (hw : 1 < w) : divS a b = BitVec.ofInt w (quotS w a.toInt b.toInt) := by
  obtain ⟨e1, e2, e3⟩ := signed_corner_iff a b hw
  unfold divS quotS
  simp only [e1, e2, e3]
  split
  · exact (BitVec.neg_one_eq_allOnes (w := w)).symm ▸ by rw [BitVec.ofInt_neg]; rfl
  · split
    · rw [← BitVec.toInt_intMin_of_pos (by omega), BitVec.ofInt_toInt]
    · rfl

theorem remS_eq (hw : 1 < w) : remS a b = BitVec.ofInt w (remainS w a.toInt b.toInt) := by
  obtain ⟨e1, e2, e3⟩ := signed_corner_iff a b hw
  unfold remS remainS
  simp only [e1, e2, e3]
  split
  · rw [BitVec.ofInt_toInt]
  · split <;> rfl

theorem divU_eq : divU a b = BitVec.ofNat w (quotU w a.toNat b.toNat) := by
  unfold divU quotU
  simp only [show (b = 0) ↔ b.toNat = 0 from (toNat_eq_zero_iff b).symm]
  split
  · apply eq_ofNat_of_toNat
    have := Nat.two_pow_pos w
    rw [BitVec.toNat_allOnes, Nat.mod_eq_of_lt (by omega)]
  · rfl

theorem remU_eq : remU a b = BitVec.ofNat w (remainU a.toNat b.toNat) := by
  unfold remU remainU
  simp only [show (b = 0) ↔ b.toNat = 0 from (toNat_eq_zero_iff b).symm]
  split
  · simp
  · rfl

end Division

/-! ## Loads (R186) -/

theorem sextLow_eq {w : Nat} (k : Nat) (hw : w ≤ 64) :
    sextLow w (BitVec.ofNat 64 k) = BitVec.ofInt 64 ((k : Int).bmod (2 ^ w)) := by
  rw [sextLow, signExtend_eq_ofInt]; congr 1
  rw [BitVec.toInt_eq_toNat_bmod, BitVec.toNat_setWidth, BitVec.toNat_ofNat, Nat.mod_mod_of_dvd _ (Nat.pow_dvd_pow 2 hw),
    Int.natCast_emod, Int.emod_bmod]

theorem zextLow_eq {w k : Nat} (hw : w ≤ 64) (h : k < 2 ^ w) : zextLow w (BitVec.ofNat 64 k) = BitVec.ofNat 64 k := by
  apply BitVec.eq_of_toNat_eq
  have : 2 ^ w ≤ 2 ^ 64 := Nat.pow_le_pow_right (by omega) hw
  simp only [zextLow, BitVec.toNat_setWidth, BitVec.toNat_ofNat]
  rw [Nat.mod_eq_of_lt (show k < 2 ^ 64 by omega), Nat.mod_eq_of_lt h, Nat.mod_eq_of_lt (by omega)]

/-! ## JALR (R173) -/

/-- Clearing bit 0 rounds down to an even address. -/
theorem clearBit0_toNat (x : Word) : (x &&& ~~~1#64).toNat = 2 * (x.toNat / 2) := by
  rw [BitVec.toNat_and, show (~~~1#64 : BitVec 64).toNat = 2 * (2 ^ 63 - 1) by decide]
  have h := x.isLt
  apply Nat.eq_of_testBit_eq
  intro i
  cases i with
  | zero => simp [Nat.testBit_zero]
  | succ i =>
    rw [Nat.testBit_and, Nat.testBit_succ, Nat.testBit_succ, Nat.testBit_succ, Nat.mul_div_cancel_left _ (by omega),
      Nat.mul_div_cancel_left _ (by omega), Nat.testBit_two_pow_sub_one]
    by_cases hi : i < 63
    · simp [hi]
    · have : x.toNat / 2 < 2 ^ i :=
        Nat.lt_of_lt_of_le (by omega : x.toNat / 2 < 2 ^ 63) (Nat.pow_le_pow_right (by omega) (by omega))
      simp [Nat.testBit_lt_two_pow this]

end Sys2Proof.Machine
end

