-- ==== Sys2Proof/Laws/PerInstr.lean ====
section
/-! SUPPORT. Statements made once per instruction, about the instruction as syntax. `EncodesRow`: the encoder's word of an
instruction lies in the row of the opcode table that bears the instruction's name (R91, R92). -/

namespace Sys2Proof.Laws.EncodesRow

/-- The word of the instruction matches its own row of spec/opcode_table.json. -/
def Statement (i : Instr) : Prop := ∃ r ∈ opcodeTable, r.mnemonic = i.mnemonic ∧ r.matches (encode i) = true

theorem lui (rd : RegId) (imm : BitVec 32) : Statement (.lui rd imm) :=
  ⟨⟨"LUI", 0x00000037, 0x0000007f⟩, by decide, rfl, beq_iff_eq.2 (mask_U (fields_encU ..).1)⟩

theorem auipc (rd : RegId) (imm : BitVec 32) : Statement (.auipc rd imm) :=
  ⟨⟨"AUIPC", 0x00000017, 0x0000007f⟩, by decide, rfl, beq_iff_eq.2 (mask_U (fields_encU ..).1)⟩

theorem addi (rd rs1 : RegId) (imm : BitVec 12) : Statement (.addi rd rs1 imm) :=
  ⟨⟨"ADDI", 0x00000013, 0x0000707f⟩, by decide, rfl, beq_iff_eq.2 (mask_I (fields_encI ..).2.2.1 (fields_encI ..).1)⟩

theorem slti (rd rs1 : RegId) (imm : BitVec 12) : Statement (.slti rd rs1 imm) :=
  ⟨⟨"SLTI", 0x00002013, 0x0000707f⟩, by decide, rfl, beq_iff_eq.2 (mask_I (fields_encI ..).2.2.1 (fields_encI ..).1)⟩

theorem sltiu (rd rs1 : RegId) (imm : BitVec 12) : Statement (.sltiu rd rs1 imm) :=
  ⟨⟨"SLTIU", 0x00003013, 0x0000707f⟩, by decide, rfl, beq_iff_eq.2 (mask_I (fields_encI ..).2.2.1 (fields_encI ..).1)⟩

theorem xori (rd rs1 : RegId) (imm : BitVec 12) : Statement (.xori rd rs1 imm) :=
  ⟨⟨"XORI", 0x00004013, 0x0000707f⟩, by decide, rfl, beq_iff_eq.2 (mask_I (fields_encI ..).2.2.1 (fields_encI ..).1)⟩

theorem ori (rd rs1 : RegId) (imm : BitVec 12) : Statement (.ori rd rs1 imm) :=
  ⟨⟨"ORI", 0x00006013, 0x0000707f⟩, by decide, rfl, beq_iff_eq.2 (mask_I (fields_encI ..).2.2.1 (fields_encI ..).1)⟩

theorem andi (rd rs1 : RegId) (imm : BitVec 12) : Statement (.andi rd rs1 imm) :=
  ⟨⟨"ANDI", 0x00007013, 0x0000707f⟩, by decide, rfl, beq_iff_eq.2 (mask_I (fields_encI ..).2.2.1 (fields_encI ..).1)⟩

theorem slli (rd rs1 : RegId) (shamt : BitVec 6) : Statement (.slli rd rs1 shamt) :=
  ⟨⟨"SLLI", 0x00001013, 0xfc00707f⟩, by decide, rfl, beq_iff_eq.2 (mask_sh6 (fields_encSh6 ..).2.2.2.2.2 (fields_encSh6 ..).2.2.1 (fields_encSh6 ..).1)⟩

theorem srli (rd rs1 : RegId) (shamt : BitVec 6) : Statement (.srli rd rs1 shamt) :=
  ⟨⟨"SRLI", 0x00005013, 0xfc00707f⟩, by decide, rfl, beq_iff_eq.2 (mask_sh6 (fields_encSh6 ..).2.2.2.2.2 (fields_encSh6 ..).2.2.1 (fields_encSh6 ..).1)⟩

theorem srai (rd rs1 : RegId) (shamt : BitVec 6) : Statement (.srai rd rs1 shamt) :=
  ⟨⟨"SRAI", 0x40005013, 0xfc00707f⟩, by decide, rfl, beq_iff_eq.2 (mask_sh6 (fields_encSh6 ..).2.2.2.2.2 (fields_encSh6 ..).2.2.1 (fields_encSh6 ..).1)⟩

theorem add (rd rs1 rs2 : RegId) : Statement (.add rd rs1 rs2) :=
  ⟨⟨"ADD", 0x00000033, 0xfe00707f⟩, by decide, rfl, beq_iff_eq.2 (mask_R (fields_encR ..).2.2.2.2.2 (fields_encR ..).2.2.1 (fields_encR ..).1)⟩

theorem sub (rd rs1 rs2 : RegId) : Statement (.sub rd rs1 rs2) :=
  ⟨⟨"SUB", 0x40000033, 0xfe00707f⟩, by decide, rfl, beq_iff_eq.2 (mask_R (fields_encR ..).2.2.2.2.2 (fields_encR ..).2.2.1 (fields_encR ..).1)⟩

theorem sll (rd rs1 rs2 : RegId) : Statement (.sll rd rs1 rs2) :=
  ⟨⟨"SLL", 0x00001033, 0xfe00707f⟩, by decide, rfl, beq_iff_eq.2 (mask_R (fields_encR ..).2.2.2.2.2 (fields_encR ..).2.2.1 (fields_encR ..).1)⟩

theorem slt (rd rs1 rs2 : RegId) : Statement (.slt rd rs1 rs2) :=
  ⟨⟨"SLT", 0x00002033, 0xfe00707f⟩, by decide, rfl, beq_iff_eq.2 (mask_R (fields_encR ..).2.2.2.2.2 (fields_encR ..).2.2.1 (fields_encR ..).1)⟩

theorem sltu (rd rs1 rs2 : RegId) : Statement (.sltu rd rs1 rs2) :=
  ⟨⟨"SLTU", 0x00003033, 0xfe00707f⟩, by decide, rfl, beq_iff_eq.2 (mask_R (fields_encR ..).2.2.2.2.2 (fields_encR ..).2.2.1 (fields_encR ..).1)⟩

theorem xor (rd rs1 rs2 : RegId) : Statement (.xor rd rs1 rs2) :=
  ⟨⟨"XOR", 0x00004033, 0xfe00707f⟩, by decide, rfl, beq_iff_eq.2 (mask_R (fields_encR ..).2.2.2.2.2 (fields_encR ..).2.2.1 (fields_encR ..).1)⟩

theorem srl (rd rs1 rs2 : RegId) : Statement (.srl rd rs1 rs2) :=
  ⟨⟨"SRL", 0x00005033, 0xfe00707f⟩, by decide, rfl, beq_iff_eq.2 (mask_R (fields_encR ..).2.2.2.2.2 (fields_encR ..).2.2.1 (fields_encR ..).1)⟩

theorem sra (rd rs1 rs2 : RegId) : Statement (.sra rd rs1 rs2) :=
  ⟨⟨"SRA", 0x40005033, 0xfe00707f⟩, by decide, rfl, beq_iff_eq.2 (mask_R (fields_encR ..).2.2.2.2.2 (fields_encR ..).2.2.1 (fields_encR ..).1)⟩

theorem or (rd rs1 rs2 : RegId) : Statement (.or rd rs1 rs2) :=
  ⟨⟨"OR", 0x00006033, 0xfe00707f⟩, by decide, rfl, beq_iff_eq.2 (mask_R (fields_encR ..).2.2.2.2.2 (fields_encR ..).2.2.1 (fields_encR ..).1)⟩

theorem and (rd rs1 rs2 : RegId) : Statement (.and rd rs1 rs2) :=
  ⟨⟨"AND", 0x00007033, 0xfe00707f⟩, by decide, rfl, beq_iff_eq.2 (mask_R (fields_encR ..).2.2.2.2.2 (fields_encR ..).2.2.1 (fields_encR ..).1)⟩

theorem addiw (rd rs1 : RegId) (imm : BitVec 12) : Statement (.addiw rd rs1 imm) :=
  ⟨⟨"ADDIW", 0x0000001b, 0x0000707f⟩, by decide, rfl, beq_iff_eq.2 (mask_I (fields_encI ..).2.2.1 (fields_encI ..).1)⟩

theorem slliw (rd rs1 : RegId) (shamt : BitVec 5) : Statement (.slliw rd rs1 shamt) :=
  ⟨⟨"SLLIW", 0x0000101b, 0xfe00707f⟩, by decide, rfl, beq_iff_eq.2 (mask_R (fields_encR ..).2.2.2.2.2 (fields_encR ..).2.2.1 (fields_encR ..).1)⟩

theorem srliw (rd rs1 : RegId) (shamt : BitVec 5) : Statement (.srliw rd rs1 shamt) :=
  ⟨⟨"SRLIW", 0x0000501b, 0xfe00707f⟩, by decide, rfl, beq_iff_eq.2 (mask_R (fields_encR ..).2.2.2.2.2 (fields_encR ..).2.2.1 (fields_encR ..).1)⟩

theorem sraiw (rd rs1 : RegId) (shamt : BitVec 5) : Statement (.sraiw rd rs1 shamt) :=
  ⟨⟨"SRAIW", 0x4000501b, 0xfe00707f⟩, by decide, rfl, beq_iff_eq.2 (mask_R (fields_encR ..).2.2.2.2.2 (fields_encR ..).2.2.1 (fields_encR ..).1)⟩

theorem addw (rd rs1 rs2 : RegId) : Statement (.addw rd rs1 rs2) :=
  ⟨⟨"ADDW", 0x0000003b, 0xfe00707f⟩, by decide, rfl, beq_iff_eq.2 (mask_R (fields_encR ..).2.2.2.2.2 (fields_encR ..).2.2.1 (fields_encR ..).1)⟩

theorem subw (rd rs1 rs2 : RegId) : Statement (.subw rd rs1 rs2) :=
  ⟨⟨"SUBW", 0x4000003b, 0xfe00707f⟩, by decide, rfl, beq_iff_eq.2 (mask_R (fields_encR ..).2.2.2.2.2 (fields_encR ..).2.2.1 (fields_encR ..).1)⟩

theorem sllw (rd rs1 rs2 : RegId) : Statement (.sllw rd rs1 rs2) :=
  ⟨⟨"SLLW", 0x0000103b, 0xfe00707f⟩, by decide, rfl, beq_iff_eq.2 (mask_R (fields_encR ..).2.2.2.2.2 (fields_encR ..).2.2.1 (fields_encR ..).1)⟩

theorem srlw (rd rs1 rs2 : RegId) : Statement (.srlw rd rs1 rs2) :=
  ⟨⟨"SRLW", 0x0000503b, 0xfe00707f⟩, by decide, rfl, beq_iff_eq.2 (mask_R (fields_encR ..).2.2.2.2.2 (fields_encR ..).2.2.1 (fields_encR ..).1)⟩

theorem sraw (rd rs1 rs2 : RegId) : Statement (.sraw rd rs1 rs2) :=
  ⟨⟨"SRAW", 0x4000503b, 0xfe00707f⟩, by decide, rfl, beq_iff_eq.2 (mask_R (fields_encR ..).2.2.2.2.2 (fields_encR ..).2.2.1 (fields_encR ..).1)⟩

theorem jal (rd : RegId) (imm : BitVec 21) : Statement (.jal rd imm) :=
  ⟨⟨"JAL", 0x0000006f, 0x0000007f⟩, by decide, rfl, beq_iff_eq.2 (mask_U (fields_encJ ..).1)⟩

theorem jalr (rd rs1 : RegId) (imm : BitVec 12) : Statement (.jalr rd rs1 imm) :=
  ⟨⟨"JALR", 0x00000067, 0x0000707f⟩, by decide, rfl, beq_iff_eq.2 (mask_I (fields_encI ..).2.2.1 (fields_encI ..).1)⟩

theorem beq (rs1 rs2 : RegId) (imm : BitVec 13) : Statement (.beq rs1 rs2 imm) :=
  ⟨⟨"BEQ", 0x00000063, 0x0000707f⟩, by decide, rfl, beq_iff_eq.2 (mask_I (fields_encB ..).2.1 (fields_encB ..).1)⟩

theorem bne (rs1 rs2 : RegId) (imm : BitVec 13) : Statement (.bne rs1 rs2 imm) :=
  ⟨⟨"BNE", 0x00001063, 0x0000707f⟩, by decide, rfl, beq_iff_eq.2 (mask_I (fields_encB ..).2.1 (fields_encB ..).1)⟩

theorem blt (rs1 rs2 : RegId) (imm : BitVec 13) : Statement (.blt rs1 rs2 imm) :=
  ⟨⟨"BLT", 0x00004063, 0x0000707f⟩, by decide, rfl, beq_iff_eq.2 (mask_I (fields_encB ..).2.1 (fields_encB ..).1)⟩

theorem bge (rs1 rs2 : RegId) (imm : BitVec 13) : Statement (.bge rs1 rs2 imm) :=
  ⟨⟨"BGE", 0x00005063, 0x0000707f⟩, by decide, rfl, beq_iff_eq.2 (mask_I (fields_encB ..).2.1 (fields_encB ..).1)⟩

theorem bltu (rs1 rs2 : RegId) (imm : BitVec 13) : Statement (.bltu rs1 rs2 imm) :=
  ⟨⟨"BLTU", 0x00006063, 0x0000707f⟩, by decide, rfl, beq_iff_eq.2 (mask_I (fields_encB ..).2.1 (fields_encB ..).1)⟩

theorem bgeu (rs1 rs2 : RegId) (imm : BitVec 13) : Statement (.bgeu rs1 rs2 imm) :=
  ⟨⟨"BGEU", 0x00007063, 0x0000707f⟩, by decide, rfl, beq_iff_eq.2 (mask_I (fields_encB ..).2.1 (fields_encB ..).1)⟩

theorem lb (rd rs1 : RegId) (imm : BitVec 12) : Statement (.lb rd rs1 imm) :=
  ⟨⟨"LB", 0x00000003, 0x0000707f⟩, by decide, rfl, beq_iff_eq.2 (mask_I (fields_encI ..).2.2.1 (fields_encI ..).1)⟩

theorem lh (rd rs1 : RegId) (imm : BitVec 12) : Statement (.lh rd rs1 imm) :=
  ⟨⟨"LH", 0x00001003, 0x0000707f⟩, by decide, rfl, beq_iff_eq.2 (mask_I (fields_encI ..).2.2.1 (fields_encI ..).1)⟩

theorem lw (rd rs1 : RegId) (imm : BitVec 12) : Statement (.lw rd rs1 imm) :=
  ⟨⟨"LW", 0x00002003, 0x0000707f⟩, by decide, rfl, beq_iff_eq.2 (mask_I (fields_encI ..).2.2.1 (fields_encI ..).1)⟩

theorem ld (rd rs1 : RegId) (imm : BitVec 12) : Statement (.ld rd rs1 imm) :=
  ⟨⟨"LD", 0x00003003, 0x0000707f⟩, by decide, rfl, beq_iff_eq.2 (mask_I (fields_encI ..).2.2.1 (fields_encI ..).1)⟩

theorem lbu (rd rs1 : RegId) (imm : BitVec 12) : Statement (.lbu rd rs1 imm) :=
  ⟨⟨"LBU", 0x00004003, 0x0000707f⟩, by decide, rfl, beq_iff_eq.2 (mask_I (fields_encI ..).2.2.1 (fields_encI ..).1)⟩

theorem lhu (rd rs1 : RegId) (imm : BitVec 12) : Statement (.lhu rd rs1 imm) :=
  ⟨⟨"LHU", 0x00005003, 0x0000707f⟩, by decide, rfl, beq_iff_eq.2 (mask_I (fields_encI ..).2.2.1 (fields_encI ..).1)⟩

theorem lwu (rd rs1 : RegId) (imm : BitVec 12) : Statement (.lwu rd rs1 imm) :=
  ⟨⟨"LWU", 0x00006003, 0x0000707f⟩, by decide, rfl, beq_iff_eq.2 (mask_I (fields_encI ..).2.2.1 (fields_encI ..).1)⟩

theorem sb (rs1 rs2 : RegId) (imm : BitVec 12) : Statement (.sb rs1 rs2 imm) :=
  ⟨⟨"SB", 0x00000023, 0x0000707f⟩, by decide, rfl, beq_iff_eq.2 (mask_I (fields_encS ..).2.1 (fields_encS ..).1)⟩

theorem sh (rs1 rs2 : RegId) (imm : BitVec 12) : Statement (.sh rs1 rs2 imm) :=
  ⟨⟨"SH", 0x00001023, 0x0000707f⟩, by decide, rfl, beq_iff_eq.2 (mask_I (fields_encS ..).2.1 (fields_encS ..).1)⟩

theorem sw (rs1 rs2 : RegId) (imm : BitVec 12) : Statement (.sw rs1 rs2 imm) :=
  ⟨⟨"SW", 0x00002023, 0x0000707f⟩, by decide, rfl, beq_iff_eq.2 (mask_I (fields_encS ..).2.1 (fields_encS ..).1)⟩

theorem sd (rs1 rs2 : RegId) (imm : BitVec 12) : Statement (.sd rs1 rs2 imm) :=
  ⟨⟨"SD", 0x00003023, 0x0000707f⟩, by decide, rfl, beq_iff_eq.2 (mask_I (fields_encS ..).2.1 (fields_encS ..).1)⟩

theorem mul (rd rs1 rs2 : RegId) : Statement (.mul rd rs1 rs2) :=
  ⟨⟨"MUL", 0x02000033, 0xfe00707f⟩, by decide, rfl, beq_iff_eq.2 (mask_R (fields_encR ..).2.2.2.2.2 (fields_encR ..).2.2.1 (fields_encR ..).1)⟩

theorem mulh (rd rs1 rs2 : RegId) : Statement (.mulh rd rs1 rs2) :=
  ⟨⟨"MULH", 0x02001033, 0xfe00707f⟩, by decide, rfl, beq_iff_eq.2 (mask_R (fields_encR ..).2.2.2.2.2 (fields_encR ..).2.2.1 (fields_encR ..).1)⟩

theorem mulhsu (rd rs1 rs2 : RegId) : Statement (.mulhsu rd rs1 rs2) :=
  ⟨⟨"MULHSU", 0x02002033, 0xfe00707f⟩, by decide, rfl, beq_iff_eq.2 (mask_R (fields_encR ..).2.2.2.2.2 (fields_encR ..).2.2.1 (fields_encR ..).1)⟩

theorem mulhu (rd rs1 rs2 : RegId) : Statement (.mulhu rd rs1 rs2) :=
  ⟨⟨"MULHU", 0x02003033, 0xfe00707f⟩, by decide, rfl, beq_iff_eq.2 (mask_R (fields_encR ..).2.2.2.2.2 (fields_encR ..).2.2.1 (fields_encR ..).1)⟩

theorem div (rd rs1 rs2 : RegId) : Statement (.div rd rs1 rs2) :=
  ⟨⟨"DIV", 0x02004033, 0xfe00707f⟩, by decide, rfl, beq_iff_eq.2 (mask_R (fields_encR ..).2.2.2.2.2 (fields_encR ..).2.2.1 (fields_encR ..).1)⟩

theorem divu (rd rs1 rs2 : RegId) : Statement (.divu rd rs1 rs2) :=
  ⟨⟨"DIVU", 0x02005033, 0xfe00707f⟩, by decide, rfl, beq_iff_eq.2 (mask_R (fields_encR ..).2.2.2.2.2 (fields_encR ..).2.2.1 (fields_encR ..).1)⟩

theorem rem (rd rs1 rs2 : RegId) : Statement (.rem rd rs1 rs2) :=
  ⟨⟨"REM", 0x02006033, 0xfe00707f⟩, by decide, rfl, beq_iff_eq.2 (mask_R (fields_encR ..).2.2.2.2.2 (fields_encR ..).2.2.1 (fields_encR ..).1)⟩

theorem remu (rd rs1 rs2 : RegId) : Statement (.remu rd rs1 rs2) :=
  ⟨⟨"REMU", 0x02007033, 0xfe00707f⟩, by decide, rfl, beq_iff_eq.2 (mask_R (fields_encR ..).2.2.2.2.2 (fields_encR ..).2.2.1 (fields_encR ..).1)⟩

theorem mulw (rd rs1 rs2 : RegId) : Statement (.mulw rd rs1 rs2) :=
  ⟨⟨"MULW", 0x0200003b, 0xfe00707f⟩, by decide, rfl, beq_iff_eq.2 (mask_R (fields_encR ..).2.2.2.2.2 (fields_encR ..).2.2.1 (fields_encR ..).1)⟩

theorem divw (rd rs1 rs2 : RegId) : Statement (.divw rd rs1 rs2) :=
  ⟨⟨"DIVW", 0x0200403b, 0xfe00707f⟩, by decide, rfl, beq_iff_eq.2 (mask_R (fields_encR ..).2.2.2.2.2 (fields_encR ..).2.2.1 (fields_encR ..).1)⟩

theorem divuw (rd rs1 rs2 : RegId) : Statement (.divuw rd rs1 rs2) :=
  ⟨⟨"DIVUW", 0x0200503b, 0xfe00707f⟩, by decide, rfl, beq_iff_eq.2 (mask_R (fields_encR ..).2.2.2.2.2 (fields_encR ..).2.2.1 (fields_encR ..).1)⟩

theorem remw (rd rs1 rs2 : RegId) : Statement (.remw rd rs1 rs2) :=
  ⟨⟨"REMW", 0x0200603b, 0xfe00707f⟩, by decide, rfl, beq_iff_eq.2 (mask_R (fields_encR ..).2.2.2.2.2 (fields_encR ..).2.2.1 (fields_encR ..).1)⟩

theorem remuw (rd rs1 rs2 : RegId) : Statement (.remuw rd rs1 rs2) :=
  ⟨⟨"REMUW", 0x0200703b, 0xfe00707f⟩, by decide, rfl, beq_iff_eq.2 (mask_R (fields_encR ..).2.2.2.2.2 (fields_encR ..).2.2.1 (fields_encR ..).1)⟩

theorem csrrw (rd rs1 : RegId) (csr : CsrAddr) : Statement (.csrrw rd rs1 csr) :=
  ⟨⟨"CSRRW", 0x00001073, 0x0000707f⟩, by decide, rfl, beq_iff_eq.2 (mask_I (fields_encI ..).2.2.1 (fields_encI ..).1)⟩

theorem csrrs (rd rs1 : RegId) (csr : CsrAddr) : Statement (.csrrs rd rs1 csr) :=
  ⟨⟨"CSRRS", 0x00002073, 0x0000707f⟩, by decide, rfl, beq_iff_eq.2 (mask_I (fields_encI ..).2.2.1 (fields_encI ..).1)⟩

theorem csrrc (rd rs1 : RegId) (csr : CsrAddr) : Statement (.csrrc rd rs1 csr) :=
  ⟨⟨"CSRRC", 0x00003073, 0x0000707f⟩, by decide, rfl, beq_iff_eq.2 (mask_I (fields_encI ..).2.2.1 (fields_encI ..).1)⟩

theorem csrrwi (rd : RegId) (uimm : BitVec 5) (csr : CsrAddr) : Statement (.csrrwi rd uimm csr) :=
  ⟨⟨"CSRRWI", 0x00005073, 0x0000707f⟩, by decide, rfl, beq_iff_eq.2 (mask_I (fields_encI ..).2.2.1 (fields_encI ..).1)⟩

theorem csrrsi (rd : RegId) (uimm : BitVec 5) (csr : CsrAddr) : Statement (.csrrsi rd uimm csr) :=
  ⟨⟨"CSRRSI", 0x00006073, 0x0000707f⟩, by decide, rfl, beq_iff_eq.2 (mask_I (fields_encI ..).2.2.1 (fields_encI ..).1)⟩

theorem csrrci (rd : RegId) (uimm : BitVec 5) (csr : CsrAddr) : Statement (.csrrci rd uimm csr) :=
  ⟨⟨"CSRRCI", 0x00007073, 0x0000707f⟩, by decide, rfl, beq_iff_eq.2 (mask_I (fields_encI ..).2.2.1 (fields_encI ..).1)⟩

theorem fence : Statement .fence :=
  ⟨⟨"FENCE", 0x0000000f, 0x0000707f⟩, by decide, rfl, by decide⟩

theorem ecall : Statement .ecall :=
  ⟨⟨"ECALL", 0x00000073, 0xfff0707f⟩, by decide, rfl, by decide⟩

theorem ebreak : Statement .ebreak :=
  ⟨⟨"EBREAK", 0x00100073, 0xfff0707f⟩, by decide, rfl, by decide⟩

end Sys2Proof.Laws.EncodesRow
end

