-- ==== Sys2Proof/Tests/Slice0.lean ====
section
/-! SUPPORT. The model's own tests. Words and expected values are the spec's: the worked encodings of R104 `30_encoding.md`, words
written out bit by bit from the Encoding lines, and the Example line of each instruction's rule. Last, for every statement with
hypotheses, a concrete state and operands that meet them. -/

namespace Sys2Proof.Tests

open Sys2Proof Sys2Proof.Machine

/-! ## WellFormed refuses ill-formed terms -/

theorem test_wf_refuses_odd_branch_offset : (Instr.beq 1 2 3).wf = false ∧ (Instr.bne 1 2 0x1FFF).wf = false ∧
    (Instr.blt 1 2 1).wf = false ∧ (Instr.bge 1 2 5).wf = false ∧ (Instr.bltu 1 2 7).wf = false ∧
    (Instr.bgeu 1 2 9).wf = false := by decide

theorem test_wf_refuses_odd_jump_offset : (Instr.jal 1 1).wf = false ∧ (Instr.jal 1 0x1FFFFF).wf = false := by decide

theorem test_wf_refuses_low_bits_of_upper_immediate : (Instr.lui 5 0x12345001).wf = false ∧ (Instr.auipc 5 0x800).wf = false := by
  decide

theorem test_wf_accepts_boundary_operands : (Instr.beq 0 31 0x1000).wf = true ∧ (Instr.bgeu 31 0 0xFFE).wf = true ∧
    (Instr.jal 0 0x100000).wf = true ∧ (Instr.jal 31 0xFFFFE).wf = true ∧ (Instr.lui 1 0xFFFFF000).wf = true ∧
    (Instr.auipc 1 0x80000000).wf = true := by decide

/-! ## Decode: a word for every constructor -/

theorem test_decode_integer_immediate :
    decode 0x123452B7 = .ok (.lui 5 0x12345000) ∧
    decode 0x00001297 = .ok (.auipc 5 0x1000) ∧
    decode 0x80010093 = .ok (.addi 1 2 0x800) ∧
    decode 0xFFC12093 = .ok (.slti 1 2 0xFFC) ∧
    decode 0xFFF13093 = .ok (.sltiu 1 2 0xFFF) ∧
    decode 0xFFF14093 = .ok (.xori 1 2 0xFFF) ∧
    decode 0x00F16093 = .ok (.ori 1 2 0x00F) ∧
    decode 0x0FF17093 = .ok (.andi 1 2 0x0FF) ∧
    decode 0x03F31293 = .ok (.slli 5 6 63) ∧
    decode 0x02035293 = .ok (.srli 5 6 32) ∧
    decode 0x43F35293 = .ok (.srai 5 6 63) := by decide

theorem test_decode_integer_register :
    decode 0x002081B3 = .ok (.add 3 1 2) ∧
    decode 0x402081B3 = .ok (.sub 3 1 2) ∧
    decode 0x002091B3 = .ok (.sll 3 1 2) ∧
    decode 0x0020A1B3 = .ok (.slt 3 1 2) ∧
    decode 0x0020B1B3 = .ok (.sltu 3 1 2) ∧
    decode 0x0020C1B3 = .ok (.xor 3 1 2) ∧
    decode 0x0020D1B3 = .ok (.srl 3 1 2) ∧
    decode 0x4020D1B3 = .ok (.sra 3 1 2) ∧
    decode 0x0020E1B3 = .ok (.or 3 1 2) ∧
    decode 0x0020F1B3 = .ok (.and 3 1 2) := by decide

theorem test_decode_word_forms :
    decode 0xFFF3029B = .ok (.addiw 5 6 0xFFF) ∧
    decode 0x01F3129B = .ok (.slliw 5 6 31) ∧
    decode 0x01F1509B = .ok (.srliw 1 2 31) ∧
    decode 0x41F3529B = .ok (.sraiw 5 6 31) ∧
    decode 0x002081BB = .ok (.addw 3 1 2) ∧
    decode 0x402081BB = .ok (.subw 3 1 2) ∧
    decode 0x002091BB = .ok (.sllw 3 1 2) ∧
    decode 0x0020D1BB = .ok (.srlw 3 1 2) ∧
    decode 0x4020D1BB = .ok (.sraw 3 1 2) := by decide

theorem test_decode_control :
    decode 0xFF1FF0EF = .ok (.jal 1 0x1FFFF0) ∧
    decode 0x0010006F = .ok (.jal 0 0x800) ∧
    decode 0x00008067 = .ok (.jalr 0 1 0) ∧
    decode 0x800100E7 = .ok (.jalr 1 2 0x800) ∧
    decode 0x80000063 = .ok (.beq 0 0 0x1000) ∧
    decode 0xFE009CE3 = .ok (.bne 1 0 0x1FF8) ∧
    decode 0x0020C863 = .ok (.blt 1 2 16) ∧
    decode 0x0020D863 = .ok (.bge 1 2 16) ∧
    decode 0x0020E863 = .ok (.bltu 1 2 16) ∧
    decode 0x0020F863 = .ok (.bgeu 1 2 16) := by decide

theorem test_decode_loads :
    decode 0xFFF10283 = .ok (.lb 5 2 0xFFF) ∧
    decode 0x00011283 = .ok (.lh 5 2 0) ∧
    decode 0x00812283 = .ok (.lw 5 2 8) ∧
    decode 0x8005B503 = .ok (.ld 10 11 0x800) ∧
    decode 0x00814283 = .ok (.lbu 5 2 8) ∧
    decode 0x00015283 = .ok (.lhu 5 2 0) ∧
    decode 0x00016283 = .ok (.lwu 5 2 0) := by decide

theorem test_decode_stores :
    decode 0x003104A3 = .ok (.sb 2 3 9) ∧
    decode 0x003113A3 = .ok (.sh 2 3 7) ∧
    decode 0xFE512E23 = .ok (.sw 2 5 0xFFC) ∧
    decode 0x7EA5BFA3 = .ok (.sd 11 10 0x7FF) := by decide

theorem test_decode_muldiv :
    decode 0x022081B3 = .ok (.mul 3 1 2) ∧
    decode 0x022091B3 = .ok (.mulh 3 1 2) ∧
    decode 0x0220A1B3 = .ok (.mulhsu 3 1 2) ∧
    decode 0x0220B1B3 = .ok (.mulhu 3 1 2) ∧
    decode 0x0220C1B3 = .ok (.div 3 1 2) ∧
    decode 0x0220D1B3 = .ok (.divu 3 1 2) ∧
    decode 0x0220E1B3 = .ok (.rem 3 1 2) ∧
    decode 0x0220F1B3 = .ok (.remu 3 1 2) ∧
    decode 0x022081BB = .ok (.mulw 3 1 2) ∧
    decode 0x0220C1BB = .ok (.divw 3 1 2) ∧
    decode 0x0220D1BB = .ok (.divuw 3 1 2) ∧
    decode 0x0220E1BB = .ok (.remw 3 1 2) ∧
    decode 0x0220F1BB = .ok (.remuw 3 1 2) := by decide

theorem test_decode_system :
    decode 0x34039073 = .ok (.csrrw 0 7 0x340) ∧
    decode 0xF14022F3 = .ok (.csrrs 5 0 0xF14) ∧
    decode 0x340332F3 = .ok (.csrrc 5 6 0x340) ∧
    decode 0x340FD2F3 = .ok (.csrrwi 5 31 0x340) ∧
    decode 0x3402E2F3 = .ok (.csrrsi 5 5 0x340) ∧
    decode 0x30047073 = .ok (.csrrci 0 8 0x300) ∧
    decode 0x0FF0000F = .ok .fence ∧
    decode 0x8330000F = .ok .fence ∧
    decode 0x0FF0028F = .ok .fence ∧
    decode 0x00000073 = .ok .ecall ∧
    decode 0x00100073 = .ok .ebreak := by decide

/-- The encoder gives the spec's words back. -/
theorem test_encode_each_format : encode (.add 3 1 2) = 0x002081B3 ∧ encode (.addi 1 0 5) = 0x00500093 ∧
    encode (.srai 5 6 63) = 0x43F35293 ∧ encode (.sraiw 5 6 31) = 0x41F3529B ∧ encode (.sw 2 5 0xFFC) = 0xFE512E23 ∧
    encode (.bne 1 0 0x1FF8) = 0xFE009CE3 ∧ encode (.lui 5 0x12345000) = 0x123452B7 ∧ encode (.jal 1 0x1FFFF0) = 0xFF1FF0EF ∧
    encode (.csrrwi 5 31 0x340) = 0x340FD2F3 ∧ encode .ebreak = 0x00100073 := by decide

theorem test_decode_refuses_reserved_neighbours : decode 0x0000100F = .error (.undecodableInstruction 0x0000100F) ∧
    decode 0x06001013 = .error (.undecodableInstruction 0x06001013) ∧
    decode 0x0200101B = .error (.undecodableInstruction 0x0200101B) ∧
    decode 0x30200073 = .error (.undecodableInstruction 0x30200073) := by decide

theorem test_decodeTableWord : decodeTableWord 32 0x00500093 = some (.addi 1 0 5) ∧ decodeTableWord 32 0 = none := by decide

/-! ## One step: the Example lines -/

/-- The state after Fetch of the instruction at `ia`, with the registers given. -/
def st (ia : Word) (regs : List (RegId × Word)) : State :=
  regs.foldl (fun s p => s.writeReg p.1 p.2) (State.reset.setPc (ia + 4))

/-- The bytes of the load examples, `11 22 .. 88 80 99 AA BB CC DD EE FF` at `0x8000_0100`. -/
def withBytes (s : State) : State :=
  s.setMem ((s.mem.setLe 0x100 0x8877665544332211 8).setLe 0x108 0xFFEEDDCCBBAA9980 8)

/-- What register `r` holds when the step retired. -/
def reg (r : RegId) : Result → Option Word
  | .next t => if t.outcome = .retired then some (t.readReg r) else none
  | _ => none

/-- The pc when the step retired. -/
def pcOf : Result → Option Word
  | .next t => if t.outcome = .retired then some t.pc else none
  | _ => none

/-- A CSR when the step retired. -/
def csrOf (a : CsrAddr) : Result → Option Word
  | .next t => if t.outcome = .retired then some (csrRead t a) else none
  | _ => none

/-- The whole state the step answers as next. -/
def nextOf : Result → Option State
  | .next t => some t
  | _ => none

/-- The bytes at `a` when the step retired, the byte at `a + 7` first. -/
def bytesOf (a : Word) : Result → Option Word
  | .next t => if t.outcome = .retired then (busRead t a .b8).toOption else none
  | _ => none

/-- The exception the step raised. -/
def raised : Result → Option ExceptionKind
  | .fault (.exception k _) => some k
  | _ => none

/-- `x[3]` after `mk x3, x1, x2`. -/
def rrr (mk : RegId → RegId → RegId → Instr) (a b : Word) : Option Word :=
  reg 3 (exec (mk 3 1 2) (st 0x80000000 [(1, a), (2, b)]))

/-- `x[1]` after `mk x1, x2, imm`. -/
def rri (mk : RegId → RegId → BitVec 12 → Instr) (a : Word) (imm : BitVec 12) : Option Word :=
  reg 1 (exec (mk 1 2 imm) (st 0x80000000 [(2, a)]))

theorem test_lui : reg 5 (exec (.lui 5 0x80000000) (st 0x80000000 [])) = some 0xFFFFFFFF80000000 ∧
    reg 5 (exec (.lui 5 0x12345000) (st 0x80000000 [])) = some 0x12345000 := by decide
theorem test_auipc : reg 5 (exec (.auipc 5 0x1000) (st 0x80000010 [])) = some 0x80001010 ∧
    reg 5 (exec (.auipc 5 0x80000000) (st 0x80000000 [])) = some 0 := by decide
theorem test_addi : rri .addi 0xFFFFFFFFFFFFFFFF 0x1 = some 0x0 ∧
    rri .addi 0x0 0x800 = some 0xFFFFFFFFFFFFF800 := by decide
theorem test_slti : rri .slti 0xFFFFFFFFFFFFFFFB 0xFFC = some 0x1 ∧
    rri .slti 0x5 0xFFC = some 0x0 ∧
    rri .slti 0x7 0x7 = some 0x0 := by decide
theorem test_sltiu : rri .sltiu 0x5 0xFFF = some 0x1 ∧
    rri .sltiu 0xFFFFFFFFFFFFFFFF 0xFFF = some 0x0 ∧
    rri .sltiu 0xFFFFFFFFFFFFF7FF 0x800 = some 0x1 := by decide
theorem test_xori : rri .xori 0x00FF00FF00FF00FF 0xFFF = some 0xFF00FF00FF00FF00 := by decide
theorem test_ori : rri .ori 0x100 0xF = some 0x10F ∧
    rri .ori 0x0 0x800 = some 0xFFFFFFFFFFFFF800 := by decide
theorem test_andi : rri .andi 0x123456789ABCDEF0 0xFF = some 0xF0 ∧
    rri .andi 0x123456789ABCDEF0 0xFF0 = some 0x123456789ABCDEF0 := by decide
theorem test_slli : reg 1 (exec (.slli 1 2 63) (st 0x80000000 [(2, 0x1)])) = some 0x8000000000000000 ∧
    reg 1 (exec (.slli 1 2 32) (st 0x80000000 [(2, 0xDEADBEEF)])) = some 0xDEADBEEF00000000 := by decide
theorem test_srli : reg 1 (exec (.srli 1 2 63) (st 0x80000000 [(2, 0x8000000000000000)])) = some 0x1 ∧
    reg 1 (exec (.srli 1 2 32) (st 0x80000000 [(2, 0xFFFFFFFF00000000)])) = some 0xFFFFFFFF := by decide
theorem test_srai : reg 1 (exec (.srai 1 2 63) (st 0x80000000 [(2, 0x8000000000000000)])) = some 0xFFFFFFFFFFFFFFFF ∧
    reg 1 (exec (.srai 1 2 1) (st 0x80000000 [(2, 0xFFFFFFFFFFFFFFF8)])) = some 0xFFFFFFFFFFFFFFFC := by decide
theorem test_add : rrr .add 0x7FFFFFFFFFFFFFFF 0x1 = some 0x8000000000000000 ∧
    rrr .add 0x5 0xFFFFFFFFFFFFFFF9 = some 0xFFFFFFFFFFFFFFFE := by decide
theorem test_add_source_is_destination : reg 1 (exec (.add 1 1 1) (st 0x80000000 [(1, 7)])) = some 14 := by decide
theorem test_sub : rrr .sub 0x0 0x1 = some 0xFFFFFFFFFFFFFFFF ∧
    rrr .sub 0x8000000000000000 0x1 = some 0x7FFFFFFFFFFFFFFF := by decide
theorem test_sll : rrr .sll 0x1 0x40 = some 0x1 ∧
    rrr .sll 0x1 0xFFFFFFFFFFFFFFC1 = some 0x2 := by decide
theorem test_slt : rrr .slt 0xFFFFFFFFFFFFFFFF 0x0 = some 0x1 ∧
    rrr .slt 0x0 0xFFFFFFFFFFFFFFFF = some 0x0 ∧
    rrr .slt 0x8000000000000000 0x7FFFFFFFFFFFFFFF = some 0x1 := by decide
theorem test_sltu : rrr .sltu 0xFFFFFFFFFFFFFFFF 0x0 = some 0x0 ∧
    rrr .sltu 0x0 0xFFFFFFFFFFFFFFFF = some 0x1 := by decide
theorem test_xor : rrr .xor 0xFF00 0x0FF0 = some 0xF0F0 := by decide
theorem test_srl : rrr .srl 0x8000000000000000 0x3F = some 0x1 ∧
    rrr .srl 0xF0 0x44 = some 0xF := by decide
theorem test_sra : rrr .sra 0x8000000000000000 0x3F = some 0xFFFFFFFFFFFFFFFF ∧
    rrr .sra 0xFFFFFFFFFFFFFFF0 0x2 = some 0xFFFFFFFFFFFFFFFC := by decide
theorem test_or : rrr .or 0xF0F0 0x0F0F = some 0xFFFF := by decide
theorem test_and : rrr .and 0xFF00 0x0FF0 = some 0x0F00 := by decide
theorem test_addiw : rri .addiw 0x7FFFFFFF 0x1 = some 0xFFFFFFFF80000000 ∧
    rri .addiw 0x00000001FFFFFFFF 0x1 = some 0x0 := by decide
theorem test_slliw : reg 1 (exec (.slliw 1 2 31) (st 0x80000000 [(2, 0x1)])) = some 0xFFFFFFFF80000000 ∧
    reg 1 (exec (.slliw 1 2 0) (st 0x80000000 [(2, 0xFFFFFFFF00000001)])) = some 0x1 := by decide
theorem test_srliw : reg 1 (exec (.srliw 1 2 31) (st 0x80000000 [(2, 0x80000000)])) = some 0x1 ∧
    reg 1 (exec (.srliw 1 2 0) (st 0x80000000 [(2, 0xFFFFFFFF80000000)])) = some 0xFFFFFFFF80000000 := by decide
theorem test_sraiw : reg 1 (exec (.sraiw 1 2 4) (st 0x80000000 [(2, 0x180000000)])) = some 0xFFFFFFFFF8000000 ∧
    reg 1 (exec (.sraiw 1 2 30) (st 0x80000000 [(2, 0xFFFFFFFF7FFFFFFF)])) = some 0x1 := by decide
theorem test_addw : rrr .addw 0x7FFFFFFF 0x1 = some 0xFFFFFFFF80000000 ∧
    rrr .addw 0x100000000 0x200000003 = some 0x3 := by decide
theorem test_subw : rrr .subw 0x0 0x1 = some 0xFFFFFFFFFFFFFFFF ∧
    rrr .subw 0x80000000 0x1 = some 0x7FFFFFFF := by decide
theorem test_sllw : rrr .sllw 0x1 0x3F = some 0xFFFFFFFF80000000 ∧
    rrr .sllw 0xFFFFFFFF00000003 0x1 = some 0x6 := by decide
theorem test_srlw : rrr .srlw 0x80000000 0x20 = some 0xFFFFFFFF80000000 ∧
    rrr .srlw 0xFFFFFFFFFFFFFFFF 0x1 = some 0x7FFFFFFF := by decide
theorem test_sraw : rrr .sraw 0x80000000 0x1F = some 0xFFFFFFFFFFFFFFFF ∧
    rrr .sraw 0x1F0000000 0x4 = some 0xFFFFFFFFFF000000 := by decide
theorem test_jal : pcOf (exec (.jal 1 0x1FFFF0) (st 0x80000020 [])) = some 0x80000010 ∧
    reg 1 (exec (.jal 1 0x1FFFF0) (st 0x80000020 [])) = some 0x80000024 := by decide
theorem test_jal_target_is_not_checked : pcOf (exec (.jal 1 2) (st 0x80000000 [])) = some 0x80000002 := by decide
theorem test_jalr : pcOf (exec (.jalr 1 2 3) (st 0x80000000 [(2, 0x80000100)])) = some 0x80000102 ∧
    pcOf (exec (.jalr 1 1 8) (st 0x80000000 [(1, 0x80000040)])) = some 0x80000048 ∧
    reg 1 (exec (.jalr 1 1 8) (st 0x80000000 [(1, 0x80000040)])) = some 0x80000004 := by decide
theorem test_beq : pcOf (exec (.beq 1 2 16) (st 0x80000010 [(1, 0x5), (2, 0x5)])) = some 0x80000020 ∧
    pcOf (exec (.beq 1 2 16) (st 0x80000010 [(1, 0x5), (2, 0x6)])) = some 0x80000014 := by decide
theorem test_beq_extremes : pcOf (exec (.beq 0 0 0xFFE) (st 0x80000000 [])) = some 0x80000FFE ∧
    pcOf (exec (.beq 0 0 0x1000) (st 0x80000000 [])) = some 0x7FFFF000 := by decide
theorem test_bne : pcOf (exec (.bne 1 2 16) (st 0x80000010 [(1, 0x5), (2, 0x6)])) = some 0x80000020 ∧
    pcOf (exec (.bne 1 2 16) (st 0x80000010 [(1, 0x5), (2, 0x5)])) = some 0x80000014 := by decide
theorem test_blt : pcOf (exec (.blt 1 2 16) (st 0x80000010 [(1, 0xFFFFFFFFFFFFFFFF), (2, 0x0)])) = some 0x80000020 ∧
    pcOf (exec (.blt 1 2 16) (st 0x80000010 [(1, 0x0), (2, 0xFFFFFFFFFFFFFFFF)])) = some 0x80000014 ∧
    pcOf (exec (.blt 1 2 16) (st 0x80000010 [(1, 0x3), (2, 0x3)])) = some 0x80000014 := by decide
theorem test_bge : pcOf (exec (.bge 1 2 16) (st 0x80000010 [(1, 0x3), (2, 0x3)])) = some 0x80000020 ∧
    pcOf (exec (.bge 1 2 16) (st 0x80000010 [(1, 0xFFFFFFFFFFFFFFFF), (2, 0x0)])) = some 0x80000014 := by decide
theorem test_bltu : pcOf (exec (.bltu 1 2 16) (st 0x80000010 [(1, 0x0), (2, 0xFFFFFFFFFFFFFFFF)])) = some 0x80000020 ∧
    pcOf (exec (.bltu 1 2 16) (st 0x80000010 [(1, 0xFFFFFFFFFFFFFFFF), (2, 0x0)])) = some 0x80000014 := by decide
theorem test_bgeu : pcOf (exec (.bgeu 1 2 16) (st 0x80000010 [(1, 0xFFFFFFFFFFFFFFFF), (2, 0x0)])) = some 0x80000020 ∧
    pcOf (exec (.bgeu 1 2 16) (st 0x80000010 [(1, 0x0), (2, 0xFFFFFFFFFFFFFFFF)])) = some 0x80000014 ∧
    pcOf (exec (.bgeu 1 2 16) (st 0x80000010 [(1, 0x3), (2, 0x3)])) = some 0x80000020 := by decide
theorem test_lb : reg 5 (exec (.lb 5 2 0) (withBytes (st 0x80000000 [(2, 0x80000100)]))) = some 0x11 ∧
    reg 5 (exec (.lb 5 2 8) (withBytes (st 0x80000000 [(2, 0x80000100)]))) = some 0xFFFFFFFFFFFFFF80 := by decide
theorem test_lb_raises : raised (exec (.lb 5 2 0xFFF) (st 0x80000000 [(2, 0x80000000)])) = some (.invalidMemoryAccess 0x7FFFFFFF .b1) := by decide
theorem test_lh : reg 5 (exec (.lh 5 2 8) (withBytes (st 0x80000000 [(2, 0x80000100)]))) = some 0xFFFFFFFFFFFF9980 ∧
    reg 5 (exec (.lh 5 2 7) (withBytes (st 0x80000000 [(2, 0x80000100)]))) = some 0xFFFFFFFFFFFF8088 := by decide
theorem test_lh_raises : raised (exec (.lh 5 2 0) (st 0x80000000 [(2, 0x80000FFF)])) = some (.invalidMemoryAccess 0x80000FFF .b2) := by decide
theorem test_lw : reg 5 (exec (.lw 5 2 8) (withBytes (st 0x80000000 [(2, 0x80000100)]))) = some 0xFFFFFFFFBBAA9980 ∧
    reg 5 (exec (.lw 5 2 5) (withBytes (st 0x80000000 [(2, 0x80000100)]))) = some 0xFFFFFFFF80887766 := by decide
theorem test_lw_raises : raised (exec (.lw 5 2 4) (st 0x80000000 [(2, 0xFFFFFFFFFFFFFFFC)])) = some (.invalidMemoryAccess 0x0 .b4) := by decide
theorem test_ld : reg 5 (exec (.ld 5 2 8) (withBytes (st 0x80000000 [(2, 0x80000100)]))) = some 0xFFEEDDCCBBAA9980 ∧
    reg 5 (exec (.ld 5 2 3) (withBytes (st 0x80000000 [(2, 0x80000100)]))) = some 0xAA99808877665544 := by decide
theorem test_ld_raises : raised (exec (.ld 5 2 0) (st 0x80000000 [(2, 0xFFFFFFFFFFFFFFFC)])) = some (.invalidMemoryAccess 0xFFFFFFFFFFFFFFFC .b8) := by decide
theorem test_lbu : reg 5 (exec (.lbu 5 2 8) (withBytes (st 0x80000000 [(2, 0x80000100)]))) = some 0x80 ∧
    reg 5 (exec (.lbu 5 2 7) (withBytes (st 0x80000000 [(2, 0x80000100)]))) = some 0x88 := by decide
theorem test_lhu : reg 5 (exec (.lhu 5 2 8) (withBytes (st 0x80000000 [(2, 0x80000100)]))) = some 0x9980 ∧
    reg 5 (exec (.lhu 5 2 7) (withBytes (st 0x80000000 [(2, 0x80000100)]))) = some 0x8088 := by decide
theorem test_lwu : reg 5 (exec (.lwu 5 2 8) (withBytes (st 0x80000000 [(2, 0x80000100)]))) = some 0xBBAA9980 ∧
    reg 5 (exec (.lwu 5 2 5) (withBytes (st 0x80000000 [(2, 0x80000100)]))) = some 0x80887766 := by decide
theorem test_lwu_raises : raised (exec (.lwu 5 2 0) (st 0x80000000 [(2, 0x7FFFFFFF)])) = some (.invalidMemoryAccess 0x7FFFFFFF .b4) := by decide
theorem test_sb : bytesOf 0x80000100 (exec (.sb 2 3 0) (withBytes (st 0x80000000 [(2, 0x80000100), (3, 0x1234567890ABCDEF)]))) = some 0x88776655443322EF ∧
    bytesOf 0x80000108 (exec (.sb 2 3 9) (withBytes (st 0x80000000 [(2, 0x80000100), (3, 0xFF00)]))) = some 0xFFEEDDCCBBAA0080 := by decide
theorem test_sh : bytesOf 0x80000100 (exec (.sh 2 3 0) (withBytes (st 0x80000000 [(2, 0x80000100), (3, 0x1234567890ABCDEF)]))) = some 0x887766554433CDEF ∧
    bytesOf 0x80000104 (exec (.sh 2 3 7) (withBytes (st 0x80000000 [(2, 0x80000100), (3, 0xBEEF)]))) = some 0xBBAA99BEEF776655 := by decide
theorem test_sw : bytesOf 0x80000100 (exec (.sw 2 3 0) (withBytes (st 0x80000000 [(2, 0x80000100), (3, 0x1234567890ABCDEF)]))) = some 0x8877665590ABCDEF ∧
    bytesOf 0x80000104 (exec (.sw 2 3 6) (withBytes (st 0x80000000 [(2, 0x80000100), (3, 0xCAFEBABE)]))) = some 0xBBAACAFEBABE6655 := by decide
theorem test_sd : bytesOf 0x80000100 (exec (.sd 2 3 0) (withBytes (st 0x80000000 [(2, 0x80000100), (3, 0x1234567890ABCDEF)]))) = some 0x1234567890ABCDEF ∧
    bytesOf 0x80000103 (exec (.sd 2 3 3) (withBytes (st 0x80000000 [(2, 0x80000100), (3, 0x0102030405060708)]))) = some 0x0102030405060708 := by decide
theorem test_sd_raises : raised (exec (.sd 2 3 0) (st 0x80000000 [(2, 0x80000FF9)])) = some (.invalidMemoryAccess 0x80000FF9 .b8) := by decide
theorem test_mul : rrr .mul 0xFFFFFFFFFFFFFFF9 0x6 = some 0xFFFFFFFFFFFFFFD6 ∧
    rrr .mul 0x100000000 0x100000000 = some 0x0 ∧
    rrr .mul 0x8000000000000000 0xFFFFFFFFFFFFFFFF = some 0x8000000000000000 := by decide
theorem test_mulh : rrr .mulh 0x8000000000000000 0x8000000000000000 = some 0x4000000000000000 ∧
    rrr .mulh 0xFFFFFFFFFFFFFFFF 0x1 = some 0xFFFFFFFFFFFFFFFF ∧
    rrr .mulh 0x8000000000000000 0xFFFFFFFFFFFFFFFF = some 0x0 := by decide
theorem test_mulhsu : rrr .mulhsu 0xFFFFFFFFFFFFFFFF 0xFFFFFFFFFFFFFFFF = some 0xFFFFFFFFFFFFFFFF ∧
    rrr .mulhsu 0x1 0xFFFFFFFFFFFFFFFF = some 0x0 ∧
    rrr .mulhsu 0x8000000000000000 0xFFFFFFFFFFFFFFFF = some 0x8000000000000000 := by decide
theorem test_mulhu : rrr .mulhu 0xFFFFFFFFFFFFFFFF 0xFFFFFFFFFFFFFFFF = some 0xFFFFFFFFFFFFFFFE ∧
    rrr .mulhu 0x8000000000000000 0x2 = some 0x1 := by decide
theorem test_div : rrr .div 0xFFFFFFFFFFFFFFF9 0x2 = some 0xFFFFFFFFFFFFFFFD ∧
    rrr .div 0x7 0x0 = some 0xFFFFFFFFFFFFFFFF ∧
    rrr .div 0x8000000000000000 0xFFFFFFFFFFFFFFFF = some 0x8000000000000000 := by decide
theorem test_divu : rrr .divu 0xFFFFFFFFFFFFFFFF 0x2 = some 0x7FFFFFFFFFFFFFFF ∧
    rrr .divu 0x7 0x0 = some 0xFFFFFFFFFFFFFFFF ∧
    rrr .divu 0x8000000000000000 0xFFFFFFFFFFFFFFFF = some 0x0 := by decide
theorem test_rem : rrr .rem 0xFFFFFFFFFFFFFFF9 0x2 = some 0xFFFFFFFFFFFFFFFF ∧
    rrr .rem 0xFFFFFFFFFFFFFFF9 0x0 = some 0xFFFFFFFFFFFFFFF9 ∧
    rrr .rem 0x8000000000000000 0xFFFFFFFFFFFFFFFF = some 0x0 := by decide
theorem test_remu : rrr .remu 0xFFFFFFFFFFFFFFFF 0x2 = some 0x1 ∧
    rrr .remu 0x7 0x0 = some 0x7 ∧
    rrr .remu 0x8000000000000000 0xFFFFFFFFFFFFFFFF = some 0x8000000000000000 := by decide
theorem test_mulw : rrr .mulw 0x7FFFFFFF 0x2 = some 0xFFFFFFFFFFFFFFFE ∧
    rrr .mulw 0x100000003 0x200000005 = some 0xF ∧
    rrr .mulw 0xFFFF 0x8001 = some 0xFFFFFFFF80007FFF := by decide
theorem test_divw : rrr .divw 0x80000000 0xFFFFFFFF = some 0xFFFFFFFF80000000 ∧
    rrr .divw 0x100000007 0x500000002 = some 0x3 ∧
    rrr .divw 0x100000000 0x100000000 = some 0xFFFFFFFFFFFFFFFF := by decide
theorem test_divuw : rrr .divuw 0xFFFFFFFF 0x1 = some 0xFFFFFFFFFFFFFFFF ∧
    rrr .divuw 0x7 0x0 = some 0xFFFFFFFFFFFFFFFF ∧
    rrr .divuw 0x180000001 0x900000002 = some 0x40000000 := by decide
theorem test_remw : rrr .remw 0xFFFFFFFFFFFFFFF9 0x2 = some 0xFFFFFFFFFFFFFFFF ∧
    rrr .remw 0x80000000 0xFFFFFFFF = some 0x0 ∧
    rrr .remw 0x100000007 0x500000002 = some 0x1 := by decide
theorem test_remuw : rrr .remuw 0x80000000 0xFFFFFFFF = some 0xFFFFFFFF80000000 ∧
    rrr .remuw 0x80000000 0x0 = some 0xFFFFFFFF80000000 ∧
    rrr .remuw 0x180000001 0x900000002 = some 0x1 := by decide
theorem test_csrrw : reg 5 (exec (.csrrw 5 5 0x340) (csrWrite (st 0x80000000 [(5, 0x2222)]) 0x340 0x1111)) = some 0x1111 ∧
    csrOf 0x340 (exec (.csrrw 5 5 0x340) (csrWrite (st 0x80000000 [(5, 0x2222)]) 0x340 0x1111)) = some 0x2222 := by decide
theorem test_csrrw_virtual : reg 5 (exec (.csrrw 5 6 0x301) (st 0x80000000 [(6, 7)])) = some 0x8000000000001104 ∧
    csrOf 0x301 (exec (.csrrw 5 6 0x301) (st 0x80000000 [(6, 7)])) = some 0x8000000000001104 ∧
    csrOf 0xF14 (exec (.csrrw 5 6 0xF14) (st 0x80000000 [(6, 7)])) = some 0 := by decide
theorem test_csrrs : reg 5 (exec (.csrrs 5 5 0x340) (csrWrite (st 0x80000000 [(5, 0x100)]) 0x340 0xF0)) = some 0xF0 ∧
    csrOf 0x340 (exec (.csrrs 5 5 0x340) (csrWrite (st 0x80000000 [(5, 0x100)]) 0x340 0xF0)) = some 0x1F0 := by decide
theorem test_csrrc : reg 5 (exec (.csrrc 5 5 0x340) (csrWrite (st 0x80000000 [(5, 0xF0)]) 0x340 0xFF)) = some 0xFF ∧
    csrOf 0x340 (exec (.csrrc 5 5 0x340) (csrWrite (st 0x80000000 [(5, 0xF0)]) 0x340 0xFF)) = some 0x0F := by decide
theorem test_csrrwi : reg 5 (exec (.csrrwi 5 6 0x340) (csrWrite (st 0x80000000 [(6, 0xDEAD)]) 0x340 0x1111)) = some 0x1111 ∧
    csrOf 0x340 (exec (.csrrwi 5 6 0x340) (csrWrite (st 0x80000000 [(6, 0xDEAD)]) 0x340 0x1111)) = some 0x6 := by decide
theorem test_csrrsi : reg 5 (exec (.csrrsi 5 5 0x340) (csrWrite (st 0x80000000 []) 0x340 0x100)) = some 0x100 ∧
    csrOf 0x340 (exec (.csrrsi 5 5 0x340) (csrWrite (st 0x80000000 []) 0x340 0x100)) = some 0x105 := by decide
theorem test_csrrci : reg 5 (exec (.csrrci 5 17 0x340) (csrWrite (st 0x80000000 []) 0x340 0xFF)) = some 0xFF ∧
    csrOf 0x340 (exec (.csrrci 5 17 0x340) (csrWrite (st 0x80000000 []) 0x340 0xFF)) = some 0xEE := by decide
theorem test_fence : nextOf (exec .fence (st 0x80000000 [(5, 9)])) = some (st 0x80000000 [(5, 9)]) := by decide
theorem test_ecall : nextOf (exec .ecall (st 0x80000000 [(5, 9)])) = some ((st 0x80000000 [(5, 9)]).setOutcome (.halt .ecall)) := by decide
theorem test_ebreak : nextOf (exec .ebreak (st 0x80000000 [(5, 9)])) = some ((st 0x80000000 [(5, 9)]).setOutcome (.halt .ebreak)) := by decide

/-! ## One whole step from a placed word (R114, V1 S1) -/

/-- Reset with the word `w` placed at `p` and the pc there. -/
def placed (p : Word) (w : BitVec 32) : State := placeWord (State.reset.setPc p) w

/-- Reset with a pc outside RAM. -/
def lost : State := State.reset.setPc 0x80000FFD

theorem test_step_addi : reg 1 (step (placed 0x80000000 0x00500093)) = some 5 ∧
    pcOf (step (placed 0x80000000 0x00500093)) = some 0x80000004 := by decide
theorem test_step_misaligned_pc : reg 1 (step (placed 0x80000FFA 0x00500093)) = some 5 := by decide
theorem test_withFetchWord_runs : reg 1 (step (State.reset.withFetchWord 32 0x00500093)) = some 5 := by decide
/-- R120: only EBREAK is the normal end of a program. -/
theorem test_runSafe : runSafe 2 (placed 0x80000000 0x00100073) = true ∧ runSafe 2 (placed 0x80000000 0x00000073) = false ∧
    runSafe 2 (placed 0x80000000 0x00500093) = false ∧ runSafe 1 (placed 0x80000000 0x00500093) = true ∧
    runSafe 1 lost = false := by decide
theorem test_fetch_boundary : raised (step (State.reset.setPc 0x7FFFFFFC)) = some (.invalidMemoryAccess 0x7FFFFFFC .b4) ∧
    raised (step (State.reset.setPc 0x80000FFC)) = some (.undecodableInstruction 0) ∧
    raised (step (State.reset.setPc 0x80000FFE)) = some (.invalidMemoryAccess 0x80000FFE .b4) ∧
    raised (step (State.reset.setPc 0x80001000)) = some (.invalidMemoryAccess 0x80001000 .b4) := by decide

/-! ## Witnesses: the hypotheses of every statement that has some, met by a concrete state and operands; where a statement has
several clauses, at the boundary of each -/

/-- Reset with `lb x5, -1(x2)` at `0x8000_0000`; `x[2]` is 0, so its address is outside RAM. -/
def lbMiss : State := placed 0x80000000 0xFFF10283

theorem test_witness_RegisterZeroIsHardwired : (1 : RegId) ≠ 0 ∧ (31 : RegId) ≠ 0 ∧
    raised (exec (.ld 31 0 0) State.reset) = some (.invalidMemoryAccess 0 .b8) ∧
    (nextOf (exec (.csrrs 1 0 0x301) State.reset)).isSome ∧ (nextOf (exec (.jal 1 8) State.reset)).isSome ∧
    (nextOf (exec (.jalr 1 0 8) State.reset)).isSome := by decide

theorem test_witness_RegisterWriteFrame : (1 : RegId) = 1 ∧ (1 : RegId) ≠ 0 := by decide

/-- One address of each clause, none under two of them with different outcomes. -/
theorem test_witness_CsrWriteRule : ((0xF14 : CsrAddr) = 0xF14 ∨ (0xF14 : CsrAddr) = 0x301) ∧
    ((0x301 : CsrAddr) = 0xF14 ∨ (0x301 : CsrAddr) = 0x301) ∧ ¬ ((0x300 : CsrAddr) = 0xF14 ∨ (0x300 : CsrAddr) = 0x301) ∧
    ¬ ((0xFFF : CsrAddr) = 0xF14 ∨ (0xFFF : CsrAddr) = 0x301) ∧ (0x000 : CsrAddr) ≠ 0xFFF := by decide

theorem test_witness_InvalidCsrAccessUnreachable : 4096 ≤ 4096 ∧ (0xFFF : CsrAddr).toNat < 4096 := by decide

theorem test_witness_MemoryReadIsLittleEndian : 0xFF8 + AccessSize.b8.bytes ≤ State.reset.mem.size ∧ 7 < AccessSize.b8.bytes := by
  decide

theorem test_witness_MemoryWriteChangesExactlyItsBytes : 0xFF8 + AccessSize.b8.bytes ≤ State.reset.mem.size ∧
    State.reset.mem.size < 0xFF9 + AccessSize.b8.bytes := by decide

theorem test_witness_WriteThenReadReturnsTheValue : State.reset.wf = true ∧
    (busWrite State.reset 0x80000FF8 .b8 0x0102030405060708).toOption.isSome ∧ 7 < AccessSize.b8.bytes := by decide

theorem test_witness_BusAccessIsAllOrNothing : InRam State.reset 0x80000FFC 4 ∧ InRam State.reset 0x80000000 8 ∧
    ¬ InRam State.reset 0x80000FFD 4 ∧ ¬ InRam State.reset 0x7FFFFFFF 1 ∧ ¬ InRam State.reset 0xFFFFFFFFFFFFFFFC 8 := by decide

theorem test_witness_AddressMapIsTheRamWindow :
    (Config.memBase ≤ (0x80000FFF : Word).toNat ∧ (0x80000FFF : Word).toNat < Config.memBase + State.reset.mem.size) ∧
    ¬ (Config.memBase ≤ (0x80001000 : Word).toNat ∧ (0x80001000 : Word).toNat < Config.memBase + State.reset.mem.size) ∧
    ¬ (Config.memBase ≤ (0x7FFFFFFF : Word).toNat ∧ (0x7FFFFFFF : Word).toNat < Config.memBase + State.reset.mem.size) := by decide

theorem test_witness_StepKeepsWellFormed : (placed 0x80000000 0x00500093).wf = true ∧
    (nextOf (step (placed 0x80000000 0x00500093))).isSome ∧ State.reset.wf = true ∧ (raised (step State.reset)).isSome := by decide

theorem test_witness_DecodeInvertsEncode : (Instr.jal 31 0xFFFFE).wf = true ∧ (Instr.bgeu 31 0 0x1000).wf = true ∧
    (Instr.lui 1 0xFFFFF000).wf = true := by decide

theorem test_witness_EncodeInvertsDecode : decode 0x43F35293 = .ok (.srai 5 6 63) ∧ (Instr.srai 5 6 63) ≠ .fence ∧
    (Instr.srai 5 6 63) ≠ .ecall ∧ (Instr.srai 5 6 63) ≠ .ebreak := by decide

theorem test_witness_DecodeIsTheOpcodeTable :
    (∃ r ∈ opcodeTable, r.matches 0x43F35293 = true) ∧ (∀ r ∈ opcodeTable, r.matches 0x06001013 = false) := by decide

theorem test_witness_ListedWordsAreUndecodable : (0x30200073 : BitVec 32) ∈ ([0x00000000, 0x30200073] : List (BitVec 32)) := by decide

theorem test_witness_StepIsFetchDecodeExecute : fetch lost = .error (.invalidMemoryAccess 0x80000FFD .b4) ∧
    (fetch (placed 0x80000FFC 0x00500093)).toOption.map (fun p => p.1) = some 0x00500093 ∧
    decode 0x00500093 = .ok (.addi 1 0 5) ∧ (fetch State.reset).toOption.map (fun p => p.1) = some 0 ∧
    decode 0 = .error (.undecodableInstruction 0) := by decide

theorem test_witness_FetchReadsThenAdvances : busRead (placed 0x80000FFC 0x00500093) 0x80000FFC .b4 = .ok 0x00500093 ∧
    (0x80000FFC : Word).toNat = Config.memBase + 0xFFC ∧ 0xFFC + 4 ≤ State.reset.mem.size ∧
    busRead lost lost.pc .b4 = .error (.invalidMemoryAccess 0x80000FFD .b4) := by decide

theorem test_witness_StepRunsTheBytesAtThePc : (placed 0x80000002 0x00500093).byteAt 0x80000002 = some 0x93 ∧
    (placed 0x80000002 0x00500093).byteAt 0x80000003 = some 0x00 ∧ (placed 0x80000002 0x00500093).byteAt 0x80000004 = some 0x50 ∧
    (placed 0x80000002 0x00500093).byteAt 0x80000005 = some 0x00 ∧ (placed 0x80000002 0x00500093).pc = 0x80000002 ∧
    decode ((0x00#8 : Byte) ++ (0x50#8 : Byte) ++ (0x00#8 : Byte) ++ (0x93#8 : Byte)) = .ok (.addi 1 0 5) := by decide

theorem test_witness_FetchOutsideRamRaises : ¬ InRam lost lost.pc 4 ∧ ¬ InRam (State.reset.setPc 0x7FFFFFFF) 0x7FFFFFFF 4 := by decide

/-- A step that fails in Fetch, in Decode, in Execute, and one that halts. -/
theorem test_witness_FailedStepLeavesTheState : raised (step lost) = some (.invalidMemoryAccess 0x80000FFD .b4) ∧
    raised (step State.reset) = some (.undecodableInstruction 0) ∧
    dataAccess (.lb 5 2 0xFFF) = some (2, 0xFFF, .b1) ∧ decode 0xFFF10283 = .ok (.lb 5 2 0xFFF) ∧
    raised (step lbMiss) = some (.invalidMemoryAccess 0xFFFFFFFFFFFFFFFF .b1) ∧
    (nextOf (step (placed 0x80000000 0x00100073))).map (fun t => t.outcome) = some (.halt .ebreak) := by decide

theorem test_witness_OutcomesByFamily : family (.add 3 1 2) = .integer ∧ family (.jal 1 8) = .control ∧
    family (.mul 3 1 2) = .mulDiv ∧ family (.csrrw 5 6 0x340) = .csr ∧ family .fence = .fence ∧ family (.lb 5 2 0) = .load ∧
    family (.sd 2 3 0) = .store ∧ family .ecall = .halt := by decide

theorem test_witness_HaltsComeOnlyFromEcallEbreak :
    (nextOf (step (placed 0x80000000 0x00000073))).map (fun t => t.outcome) = some (.halt .ecall) ∧
    (nextOf (step (placed 0x80000000 0x00100073))).map (fun t => t.outcome) = some (.halt .ebreak) := by decide

theorem test_witness_StepIsTotal : (stepOutcome State.reset).map (fun p => p.1) = some (.exception (.undecodableInstruction 0)) := by
  decide

theorem test_witness_OnlyStoresChangeMemory : family (.lb 5 2 0) ≠ .store ∧
    (nextOf (exec (.lb 5 2 0) (st 0x80000000 [(2, 0x80000FFF)]))).isSome := by decide

theorem test_witness_OnlyCsrInstructionsTouchTheCsrs : family (.add 3 1 2) ≠ .csr ∧
    (nextOf (exec (.add 3 1 2) State.reset)).isSome ∧ (raised (step State.reset)).isSome ∧
    (nextOf (step (placed 0x80000000 0x00000073))).map (fun t => t.outcome) = some (.halt .ecall) := by decide

theorem test_witness_OnlyControlTransfersWriteThePc : family (.add 3 1 2) ≠ .control ∧
    (nextOf (exec (.add 3 1 2) State.reset)).isSome ∧ (raised (exec (.sb 0 3 0) State.reset)).isSome := by decide

theorem test_witness_AtMostOneRegisterWritten : (nextOf (exec (.add 3 1 2) State.reset)).isSome ∧ (4 : RegId) ≠ 3 ∧
    (nextOf (exec .fence State.reset)).isSome ∧ family .fence = .fence := by decide

theorem test_witness_CsrsDoNotInfluenceExecution :
    ∀ w s1 i, fetch (placed 0x80000000 0x00500093) = .ok (w, s1) → decode w = .ok i → family i ≠ .csr := by
  intro w s1 i hf hd
  have he : fetch (placed 0x80000000 0x00500093) = .ok (0x00500093, (placed 0x80000000 0x00500093).setPc 0x80000004) := by decide
  rw [he] at hf
  cases hf
  have hi : decode 0x00500093 = .ok (.addi 1 0 5) := by decide
  rw [hi] at hd
  cases hd
  decide

theorem test_witness_EvenPcStaysEven : (placed 0x80000002 0x00500093).pc.getLsbD 0 = false ∧
    (nextOf (step (placed 0x80000002 0x00500093))).isSome ∧ (raised (step State.reset)).isSome := by decide

theorem test_witness_StoreIsSeenByTheNextFetch :
    (st 0x80000FF8 [(2, 0x80000FFC)]).ea 2 0 = (st 0x80000FF8 [(2, 0x80000FFC)]).pc ∧
    InRam (st 0x80000FF8 [(2, 0x80000FFC)]) ((st 0x80000FF8 [(2, 0x80000FFC)]).ea 2 0) 4 := by decide

/-- A run that goes on, one that ends at its first step by EBREAK, ECALL or an exception, and one that ends at its second. -/
theorem test_witness_RunEndsAtTheFirstFailure :
    (∃ t, runFor 1 (placed 0x80000000 0x00500093) = .running t) ∧
    (∃ t, runFor 1 (placed 0x80000000 0x00100073) = .ended (.halt .ebreak) t) ∧
    (∃ t, runFor 1 (placed 0x80000000 0x00000073) = .ended (.halt .ecall) t) ∧
    (∃ t, runFor 1 State.reset = .ended (.exception (.undecodableInstruction 0)) t) ∧
    (∃ t, runFor 2 (placed 0x80000000 0x00500093) = .ended (.exception (.undecodableInstruction 0)) t) :=
  ⟨⟨_, rfl⟩, ⟨_, rfl⟩, ⟨_, rfl⟩, ⟨_, rfl⟩, ⟨_, rfl⟩⟩

/-- Each mask of the rule shapes, met by a word whose free bits are not all 0. -/
theorem test_witness_encodings : (0x402081B3 : BitVec 32) &&& 0xFE00707F = 0x40000033 ∧
    (0x80010093 : BitVec 32) &&& 0x0000707F = 0x00000013 ∧ (0x43F35293 : BitVec 32) &&& 0xFC00707F = 0x40005013 ∧
    (0x41F3529B : BitVec 32) &&& 0xFE00707F = 0x4000501B ∧ (0x123452B7 : BitVec 32) &&& 0x0000007F = 0x00000037 ∧
    (0xFF1FF0EF : BitVec 32) &&& 0x0000007F = 0x0000006F ∧ (0xFE009CE3 : BitVec 32) &&& 0x0000707F = 0x00001063 ∧
    (0xFE512E23 : BitVec 32) &&& 0x0000707F = 0x00002023 ∧ (0x340FD2F3 : BitVec 32) &&& 0x0000707F = 0x00005073 ∧
    (0x001282F3 : BitVec 32) &&& 0xFFF0707F = 0x00100073 ∧ (0x000282F3 : BitVec 32) &&& 0xFFF0707F = 0x00000073 ∧
    (0x8330000F : BitVec 32) &&& 0x0000707F = 0x0000000F := by decide

/-- Words of `AddAndSubtract`, `BitwiseLogic`, `SetIfLessThan`, `ShiftByImmediate`, `ShiftByRegister`, `UpperImmediates`. -/
theorem test_witness_integer_rules : (0x80010093 : BitVec 32) &&& 0x0000707F = 0x00000013 ∧
    (0xFFF14093 : BitVec 32) &&& 0x0000707F = 0x00004013 ∧ (0xFFF13093 : BitVec 32) &&& 0x0000707F = 0x00003013 ∧
    (0x03F31293 : BitVec 32) &&& 0xFC00707F = 0x00001013 ∧ (0x4020D1B3 : BitVec 32) &&& 0xFE00707F = 0x40005033 ∧
    (0x00001297 : BitVec 32) &&& 0x0000007F = 0x00000017 ∧ (0x06001013 : BitVec 32) &&& 0x0000707F = 0x00001013 ∧
    (0x06001013 : BitVec 32).extractLsb' 26 6 ≠ 0 ∧ (0x44005013 : BitVec 32) &&& 0x0000707F = 0x00005013 ∧
    (0x44005013 : BitVec 32).extractLsb' 26 6 ≠ 0 ∧ (0x44005013 : BitVec 32).extractLsb' 26 6 ≠ 0x10 := by decide

/-- Words of `AddAndSubtractWord`, `ShiftWordByImmediate`, `ShiftWordByRegister`, `Multiply`, `SignedDivision`,
`UnsignedDivision`, `MultiplyAndDivideWord`. -/
theorem test_witness_word_and_muldiv_rules : (0xFFF3029B : BitVec 32) &&& 0x0000707F = 0x0000001B ∧
    (0x01F3129B : BitVec 32) &&& 0xFE00707F = 0x0000101B ∧ (0x4020D1BB : BitVec 32) &&& 0xFE00707F = 0x4000503B ∧
    (0x0220A1B3 : BitVec 32) &&& 0xFE00707F = 0x02002033 ∧ (0x0220C1B3 : BitVec 32) &&& 0xFE00707F = 0x02004033 ∧
    (0x0220F1B3 : BitVec 32) &&& 0xFE00707F = 0x02007033 ∧ (0x0220E1BB : BitVec 32) &&& 0xFE00707F = 0x0200603B ∧
    (0x0200101B : BitVec 32) &&& 0x0000707F = 0x0000101B ∧ (0x0200101B : BitVec 32).extractLsb' 25 7 ≠ 0 ∧
    (0x4200501B : BitVec 32) &&& 0x0000707F = 0x0000501B ∧ (0x4200501B : BitVec 32).extractLsb' 25 7 ≠ 0 ∧
    (0x4200501B : BitVec 32).extractLsb' 25 7 ≠ 0x20 := by decide

theorem test_witness_DivisionIdentity : (3 : RegId) ≠ 0 ∧
    (nextOf (exec (.div 3 1 2) (st 0x80000000 [(1, 7)]))).isSome ∧ (nextOf (exec (.rem 3 1 2) (st 0x80000000 [(1, 7)]))).isSome ∧
    (nextOf (exec (.divu 3 1 2) State.reset)).isSome ∧ (nextOf (exec (.remu 3 1 2) State.reset)).isSome ∧
    (nextOf (exec (.mul 3 1 2) State.reset)).isSome ∧ (nextOf (exec (.mulw 3 1 2) State.reset)).isSome := by decide

theorem test_witness_JumpAndLink : (0xFF1FF0EF : BitVec 32) &&& 0x0000007F = 0x0000006F ∧
    (0x800100E7 : BitVec 32) &&& 0x0000707F = 0x00000067 := by decide

/-- For each condition, operands that meet it and operands that do not. -/
theorem test_witness_ConditionalBranches : (0xFE009CE3 : BitVec 32) &&& 0x0000707F = 0x00001063 ∧
    (5 : Word) = 5 ∧ ¬ (5 : Word) = 6 ∧ (-1 : Word).toInt < (0 : Word).toInt ∧ ¬ (3 : Word).toInt < (3 : Word).toInt ∧
    (3 : Word).toInt ≤ (3 : Word).toInt ∧ ¬ (0 : Word).toInt ≤ (-1 : Word).toInt ∧ (0 : Word).toNat < (-1 : Word).toNat ∧
    ¬ (-1 : Word).toNat < (0 : Word).toNat ∧ (3 : Word).toNat ≤ (3 : Word).toNat ∧ ¬ (-1 : Word).toNat ≤ (0 : Word).toNat := by
  decide

/-- The last access in RAM and the first out of it, for every width. -/
theorem test_witness_Loads : (0x8005B503 : BitVec 32) &&& 0x0000707F = 0x00003003 ∧
    InRam (st 0x80000000 [(2, 0x80000FFF)]) ((st 0x80000000 [(2, 0x80000FFF)]).ea 2 0) 1 ∧
    InRam (st 0x80000000 [(2, 0x80000FFF)]) ((st 0x80000000 [(2, 0x80000FFF)]).ea 2 0xFFF) 2 ∧
    ¬ InRam (st 0x80000000 [(2, 0x80000FFF)]) ((st 0x80000000 [(2, 0x80000FFF)]).ea 2 0) 2 ∧
    ¬ InRam (st 0x80000000 [(2, 0x80000FFF)]) ((st 0x80000000 [(2, 0x80000FFF)]).ea 2 1) 1 := by decide

theorem test_witness_Stores : (0xFE512E23 : BitVec 32) &&& 0x0000707F = 0x00002023 ∧
    InRam (st 0x80000000 [(2, 0x80000FF8)]) ((st 0x80000000 [(2, 0x80000FF8)]).ea 2 0) 8 ∧
    ¬ InRam (st 0x80000000 [(2, 0x80000FF8)]) ((st 0x80000000 [(2, 0x80000FF8)]).ea 2 1) 8 ∧
    InRange (0x80000FFF : Word) 0x80000FF8 8 ∧ ¬ InRange (0x80000FF7 : Word) 0x80000FF8 8 ∧
    ¬ InRange (0x80001000 : Word) 0x80000FF8 8 := by decide

theorem test_witness_CsrReadWrite : (0x340312F3 : BitVec 32) &&& 0x0000707F = 0x00001073 ∧
    (0x340FD2F3 : BitVec 32) &&& 0x0000707F = 0x00005073 := by decide

theorem test_witness_CsrSetClearImmediate : (0x3402E2F3 : BitVec 32) &&& 0x0000707F = 0x00006073 ∧
    (nextOf (exec (.csrrsi 5 0 0x340) State.reset)).isSome ∧ (nextOf (exec (.csrrci 5 0 0x340) State.reset)).isSome := by decide

theorem test_witness_CsrSetClearRegister : (0x340322F3 : BitVec 32) &&& 0x0000707F = 0x00002073 ∧
    State.reset.readReg 6 = 0 ∧ (nextOf (exec (.csrrs 5 6 0x340) State.reset)).isSome ∧
    (nextOf (exec (.csrrc 5 6 0x340) State.reset)).isSome := by decide

theorem test_witness_FenceDoesNothing : (0x8330000F : BitVec 32) &&& 0x0000707F = 0x0000000F := by decide

theorem test_witness_EcallAndEbreakHalt : (0x000282F3 : BitVec 32) &&& 0xFFF0707F = 0x00000073 ∧
    (0x001282F3 : BitVec 32) &&& 0xFFF0707F = 0x00100073 := by decide

end Sys2Proof.Tests
end

section
/-! PROOFS. The scope's invariant (R11, R39, R291): the canonical forms and the capacity hold at reset, and every step keeps them. -/

namespace Sys2Proof.Machine

/-- The state meets the invariant, and its RAM has `n` bytes. -/
def State.WfOfSize (n : Nat) (s : State) : Prop := s.wf = true ∧ s.mem.size = n

section Effects

variable {n : Nat} {s : State} (hs : s.WfOfSize n)
include hs

theorem wfOfSize_setPc (p : Word) : (s.setPc p).WfOfSize n := hs

theorem wfOfSize_setOutcome (o : StepOutcome) : (s.setOutcome o).WfOfSize n := hs

theorem wfOfSize_writeReg (r : RegId) (v : Word) : (s.writeReg r v).WfOfSize n := by
  obtain ⟨hwf, hsize⟩ := hs
  exact ⟨(writeReg_wf s r v).trans hwf, by rw [writeReg_mem, hsize]⟩

theorem wfOfSize_csrWrite (a : CsrAddr) (v : Word) : (csrWrite s a v).WfOfSize n := by
  obtain ⟨hwf, hsize⟩ := hs
  exact ⟨csrWrite_wf a v hwf, by rw [csrWrite_mem, hsize]⟩

/-- A store inside RAM (R60): it keeps the canonical form and the capacity of the memory. -/
theorem wfOfSize_setLe {a : Word} {k : AccessSize} (v : Word) (hr : InRam s a k.bytes) :
    (s.setMem (s.mem.setLe (ramOffset a) v k.bytes)).WfOfSize n := by
  obtain ⟨hwf, hsize⟩ := hs
  exact ⟨busWrite_wf (busWrite_ok v hr) hwf, by rw [setMem_mem, setLe_size, hsize]⟩

end Effects

/-- What the invariant asks of a step's answer: the state in it, retired, halted or raised, meets it, and there is one. -/
def AnswerWfOfSize (n : Nat) : Result → Prop
  | .next t => t.WfOfSize n
  | .fault (.exception _ t) => t.WfOfSize n
  | .refused _ => False

section Answers

variable {n : Nat} {s : State} (hs : s.WfOfSize n)
include hs

theorem answerWfOfSize_retire : AnswerWfOfSize n (retire s) := wfOfSize_setOutcome hs _

theorem answerWfOfSize_halt (h : HaltKind) : AnswerWfOfSize n (halt h s) := wfOfSize_setOutcome hs _

theorem answerWfOfSize_raise (k : ExceptionKind) : AnswerWfOfSize n (raise k s) := wfOfSize_setOutcome hs _

/-- Execute keeps the invariant: each kind of effect of `exec_cases` does. -/
theorem answerWfOfSize_exec (i : Instr) : AnswerWfOfSize n (exec i s) := by
  rcases exec_cases i s with ⟨rd, v, p, he, -⟩ | ⟨-, rs1, imm, k, -, hr, v, he⟩ | ⟨-, rd, v, a, w, he⟩ | ⟨-, h, he⟩ |
    ⟨-, rs1, imm, k, -, -, he⟩ <;> rw [he]
  case inl => exact answerWfOfSize_retire (wfOfSize_setPc (wfOfSize_writeReg hs rd v) p)
  case inr.inl => exact answerWfOfSize_retire (wfOfSize_setLe hs v hr)
  case inr.inr.inl => exact answerWfOfSize_retire (wfOfSize_writeReg (wfOfSize_csrWrite hs a w) rd v)
  case inr.inr.inr.inl => exact answerWfOfSize_halt hs h
  case inr.inr.inr.inr => exact answerWfOfSize_raise hs _

/-- A step keeps the invariant, whichever of Fetch, Decode and Execute ends it. -/
theorem answerWfOfSize_step : AnswerWfOfSize n (step s) := by
  have hadv : (s.setPc (s.pc + 4)).WfOfSize n := wfOfSize_setPc hs _
  rcases step_cases s with ⟨-, hfetch⟩ | ⟨-, w, -, ⟨-, hdecode⟩ | ⟨i, -, hexec⟩⟩
  · rw [hfetch]; exact answerWfOfSize_raise hs _
  · rw [hdecode]; exact answerWfOfSize_raise hadv _
  · rw [hexec]; exact answerWfOfSize_exec hadv i

end Answers

/-- Settles O13: `answerWfOfSize_step` at the state's own capacity, read for each form of answer. -/
theorem stepKeepsWellFormed : Obligations.StepKeepsWellFormed := by
  unfold Obligations.StepKeepsWellFormed
  intro s hwf
  have hstep : AnswerWfOfSize s.mem.size (step s) := answerWfOfSize_step ⟨hwf, rfl⟩
  refine ⟨fun t ht => ?_, fun k t ht => ?_, fun r hr => ?_⟩
  · rw [ht] at hstep; exact hstep
  · rw [ht] at hstep; exact hstep
  · rw [hr] at hstep; exact hstep

/-- Settles O12: RAM is created with no cell and an admissible capacity, and the CSR bank with no cell. -/
theorem resetIsWellFormed : Obligations.ResetIsWellFormed := by
  have hcsrs : csrsWf State.reset.csrs = true := rfl
  unfold Obligations.ResetIsWellFormed State.wf
  rw [reset_mem_wf, hcsrs]
  rfl

end Sys2Proof.Machine
end

section
/-! PROOFS. The register file, the CSR bank and the state after reset (R21 to R23, R31 to R37, R43 `10_state.md`). -/

namespace Sys2Proof.Machine

/-! ## Register file -/

/-- Settles O2: `readReg_writeReg` for the registers, `writeReg_fields` for everything else. -/
theorem registerWriteFrame : Obligations.RegisterWriteFrame :=
  fun s r q v => ⟨readReg_writeReg s r q v, writeReg_fields s r v⟩

theorem readReg_writeReg_same (s : State) {r : RegId} (v : Word) (hr : r ≠ 0) : (s.writeReg r v).readReg r = v := by
  rw [readReg_writeReg, if_pos ⟨rfl, hr⟩]

/-- A load that raises does so whatever register it would write (R187: the read comes first). -/
theorem load_fault_anyRd {n : AccessSize} {ext : Word → Word} {rd rs1 : RegId} {imm : BitVec 12} {s : State} {f : Fault}
    (rd' : RegId) (h : load n ext rd rs1 imm s = .fault f) : load n ext rd' rs1 imm s = .fault f := by
  by_cases hr : InRam s (s.ea rs1 imm) n.bytes
  · simp only [load, busRead_ok hr] at h
    cases h
  · simp only [load, busRead_error hr] at h ⊢
    exact h

/-- The CSR side of a CSRRS-shaped instruction does not depend on the register it writes. -/
theorem csrModify_anyRd {f : Word → Word → Word} {rd : RegId} {csr : CsrAddr} {v : Word} {s t : State}
    (h : csrModify f rd csr v s = .next t) :
    ∃ u, csrModify f 0 csr v s = .next u ∧ SameRegs s u ∧ u.csrs = t.csrs := by
  rw [csrModify_eq] at h
  cases h
  refine ⟨_, csrModify_eq .., sameRegs_of_x ?_, ?_⟩
  · change (if v = 0 then s else csrWrite s csr (f (csrRead s csr) v)).x = s.x
    split
    · rfl
    · exact csrWrite_x ..
  · rw [setOutcome_csrs, setOutcome_csrs, writeReg_csrs, writeReg_csrs]

/-- `x0` discards the link, and the jump is made (R22, R170). -/
theorem linkAndJump_zero {rd : RegId} {target : Word} {s t : State} (h : linkAndJump rd target s = .next t) :
    ∃ u, linkAndJump 0 target s = .next u ∧ SameRegs s u ∧ u.pc = t.pc := by
  cases h
  exact ⟨_, rfl, sameRegs_of_x rfl, rfl⟩

/-- Settles O1: a write to `x0` leaves the very same state, so an instruction with `rd = 0` has its other effects alone. -/
theorem registerZeroIsHardwired : Obligations.RegisterZeroIsHardwired := by
  unfold Obligations.RegisterZeroIsHardwired
  refine ⟨readReg_zero, writeReg_zero, fun s r v => readReg_writeReg_same s v, fun mk hmk rd rs1 imm s u k h => ?_,
    fun rd rs1 csr s t => csrModify_anyRd, fun rd imm s t => linkAndJump_zero, fun rd rs1 imm s t => linkAndJump_zero⟩
  simp only [List.mem_cons, List.not_mem_nil, or_false] at hmk
  rcases hmk with rfl | rfl | rfl | rfl | rfl | rfl | rfl <;> exact load_fault_anyRd 0 h

/-! ## CSR bank -/

/-- Settles O3: `csrRead_csrWrite` at the address written and at another one, and the components no CSR write touches. -/
theorem csrWriteRule : Obligations.CsrWriteRule := by
  unfold Obligations.CsrWriteRule
  intro s a v
  refine ⟨csrWrite_virtual s a v, fun ha => ?_, fun b hb => ?_, (readReg_csrWrite s · a v), csrWrite_pc s a v, csrWrite_mem s a v,
    csrWrite_outcome s a v⟩
  · obtain ⟨hhart, hisa⟩ := not_or.1 ha
    rw [csrRead_csrWrite, if_pos ⟨rfl, hisa, hhart⟩]
  · rw [csrRead_csrWrite, if_neg fun h => hb h.1]

theorem csrRead_mhartid (s : State) : csrRead s mhartidAddr = 0 := rfl

theorem csrRead_misa (s : State) : csrRead s misaAddr = 0x8000000000001104 := rfl

/-- Settles O4: the two reads look at no cell, so no write matters. -/
theorem virtualCsrsReadConstants : Obligations.VirtualCsrsReadConstants := by
  unfold Obligations.VirtualCsrsReadConstants
  intro s a v
  have hbits : ∀ n < 64, (0x8000000000001104 : Word).getLsbD n = true ↔ (n = 63 ∨ n = 12 ∨ n = 8 ∨ n = 2) := by decide
  exact ⟨csrRead_mhartid _, csrRead_misa _, hbits⟩

theorem csrPort_refuses (s : State) {a : Nat} (v : Word) (ha : 4096 ≤ a) :
    csrPortRead s a = .error (.invalidCsrAccess a) ∧ csrPortWrite s a v = .error (.invalidCsrAccess a) := by
  have hn : ¬ a < Config.ncsr := not_lt.2 ha
  exact ⟨if_neg hn, if_neg hn⟩

theorem csrPort_serves (s : State) (a : CsrAddr) (v : Word) :
    csrPortRead s a.toNat = .ok (csrRead s a) ∧ csrPortWrite s a.toNat v = .ok (csrWrite s a v) := by
  have hlt : a.toNat < Config.ncsr := a.isLt
  simp only [csrPortRead, csrPortWrite, if_pos hlt, BitVec.ofNat_toNat, BitVec.setWidth_eq, and_self]

/-- Settles O5: Fetch and the data accesses raise InvalidMemoryAccess, Decode raises UndecodableInstruction. -/
theorem invalidCsrAccessUnreachable : Obligations.InvalidCsrAccessUnreachable := by
  unfold Obligations.InvalidCsrAccessUnreachable
  refine ⟨fun s a v => csrPort_refuses s v, csrPort_serves, fun s t a h => ?_⟩
  rcases step_cases s with ⟨-, he⟩ | ⟨-, w, -, ⟨-, he⟩ | ⟨i, -, he⟩⟩ <;> rw [he] at h
  · cases h
  · cases h
  · obtain ⟨-, rs1, imm, n, -, hk, -⟩ := exec_fault h
    cases hk

/-! ## Reset -/

/-- `x[1]` to `x[31]` are 0 at reset. -/
theorem readReg_reset (r : RegId) : State.reset.readReg r = 0 := by
  unfold State.readReg
  split
  · rfl
  · exact Vector.getElem_replicate ..

theorem csrRead_reset (a : CsrAddr) : csrRead State.reset a = if a = 0x301 then 0x8000000000001104 else 0 := by
  by_cases hhart : a = mhartidAddr
  · subst hhart; rfl
  · by_cases hisa : a = misaAddr
    · subst hisa; rfl
    · have hstored : csrRead State.reset a = 0 := by rw [csrRead, if_neg hhart, if_neg hisa]; rfl
      rw [hstored]
      exact (if_neg hisa).symm

/-- Settles O11: the registers and the CSRs by their own lemmas, every other component is written out in `State.reset`. -/
theorem resetState : Obligations.ResetState :=
  ⟨rfl, rfl, readReg_reset, fun _ => rfl, rfl, csrRead_reset⟩

end Sys2Proof.Machine
end

section
/-! PROOFS. What an instruction leaves unchanged (R23, R26, R38, R39): the states Execute can answer, and from them which component
of the state each family writes. -/

namespace Sys2Proof.Machine

/-! ## The states Execute answers -/

/-- The state an Execute that gives one leaves: `exec_cases` read on the answer. -/
theorem exec_next {i : Instr} {s t : State} (h : exec i s = .next t) :
    (∃ rd v p, t = ((s.writeReg rd v).setPc p).setOutcome .retired ∧ (p = s.pc ∨ family i = .control)) ∨
    (family i = .store ∧ ∃ m : Memory, m.size = s.mem.size ∧ t = (s.setMem m).setOutcome .retired) ∨
    (family i = .csr ∧ ∃ rd v a w, t = ((csrWrite s a w).writeReg rd v).setOutcome .retired) ∨
    (family i = .halt ∧ ∃ k, t = s.setOutcome (.halt k)) := by
  rcases exec_cases i s with ⟨rd, v, p, he, hp⟩ | ⟨hi, rs1, imm, n, -, -, v, he⟩ | ⟨hi, rd, v, a, w, he⟩ | ⟨hi, k, he⟩ |
    ⟨-, rs1, imm, n, -, -, he⟩ <;> rw [he] at h <;> cases h
  · exact .inl ⟨rd, v, p, rfl, hp⟩
  · exact .inr (.inl ⟨hi, _, setLe_size .., rfl⟩)
  · exact .inr (.inr (.inl ⟨hi, rd, v, a, w, rfl⟩))
  · exact .inr (.inr (.inr ⟨hi, k, rfl⟩))

theorem eq_fence {i : Instr} (hi : family i = .fence) : i = .fence := by
  cases i
  case fence => rfl
  all_goals cases hi

theorem eq_ecall_or_ebreak {i : Instr} (hi : family i = .halt) : i = .ecall ∨ i = .ebreak := by
  cases i
  case ecall => exact .inl rfl
  case ebreak => exact .inr rfl
  all_goals cases hi

/-! ## Memory (R39) -/

/-- Settles O28: of the effects of `exec_next` only a store's touches the memory, and it keeps the capacity. -/
theorem onlyStoresChangeMemory : Obligations.OnlyStoresChangeMemory := by
  unfold Obligations.OnlyStoresChangeMemory
  intro i s t h
  rcases exec_next h with ⟨rd, v, p, rfl, -⟩ | ⟨hstore, m, hsize, rfl⟩ | ⟨-, rd, v, a, w, rfl⟩ | ⟨-, k, rfl⟩
  case inr.inl => exact ⟨fun hi => absurd hstore hi, hsize⟩
  all_goals simp

/-! ## CSR bank (R38) -/

theorem exec_next_csrs {i : Instr} {s t : State} (hi : family i ≠ .csr) (h : exec i s = .next t) : t.csrs = s.csrs := by
  rcases exec_next h with ⟨rd, v, p, rfl, -⟩ | ⟨-, m, -, rfl⟩ | ⟨hcsr, -⟩ | ⟨-, k, rfl⟩
  case inr.inr.inl => exact absurd hcsr hi
  all_goals simp

/-- A raise, whether Fetch, Decode or Execute raises, leaves the CSR bank. -/
theorem step_fault_csrs {s t : State} {k : ExceptionKind} (h : step s = .fault (.exception k t)) : t.csrs = s.csrs := by
  rcases step_cases s with ⟨-, he⟩ | ⟨-, w, -, ⟨-, he⟩ | ⟨i, -, he⟩⟩ <;> rw [he] at h
  · cases h; rfl
  · cases h; rfl
  · obtain ⟨rfl, -⟩ := exec_fault h
    rfl

theorem step_halt_csrs {s t : State} {k : HaltKind} (h : step s = .next t) (ho : t.outcome = .halt k) : t.csrs = s.csrs := by
  rcases step_cases s with ⟨-, he⟩ | ⟨-, w, -, ⟨-, he⟩ | ⟨i, -, he⟩⟩ <;> rw [he] at h
  · cases h
  · cases h
  · obtain ⟨rfl, -⟩ := exec_halted h ho
    rfl

/-- Settles O29: an instruction of another family, a raise and a halt, each by its own lemma. -/
theorem onlyCsrInstructionsTouchTheCsrs : Obligations.OnlyCsrInstructionsTouchTheCsrs :=
  ⟨fun _ _ _ => exec_next_csrs, fun _ _ _ => step_fault_csrs, fun _ _ _ => step_halt_csrs⟩

/-! ## The pc (R26, R170) -/

theorem exec_next_pc {i : Instr} {s t : State} (hi : family i ≠ .control) (h : exec i s = .next t) : t.pc = s.pc := by
  rcases exec_next h with ⟨rd, v, p, rfl, hp | hcontrol⟩ | ⟨-, m, -, rfl⟩ | ⟨-, rd, v, a, w, rfl⟩ | ⟨-, k, rfl⟩
  case inl.inl => exact hp
  case inl.inr => exact absurd hcontrol hi
  all_goals simp

/-- Settles O30: by `exec_next_pc`, and because a raise leaves the state as it was. -/
theorem onlyControlTransfersWriteThePc : Obligations.OnlyControlTransfersWriteThePc := by
  refine ⟨fun _ _ _ => exec_next_pc, fun i s t k h => ?_⟩
  obtain ⟨rfl, -⟩ := exec_fault h
  rfl

/-! ## Registers (R23) -/

theorem readReg_writeReg_ne {s : State} {r rd : RegId} (v : Word) (h : r ≠ rd) : (s.writeReg rd v).readReg r = s.readReg r := by
  rw [readReg_writeReg, if_neg fun hr => h hr.1]

theorem exec_next_oneReg {i : Instr} {s t : State} (h : exec i s = .next t) :
    ∃ rd : RegId, ∀ r : RegId, r ≠ rd → t.readReg r = s.readReg r := by
  rcases exec_next h with ⟨rd, v, p, rfl, -⟩ | ⟨-, m, -, rfl⟩ | ⟨-, rd, v, a, w, rfl⟩ | ⟨-, k, rfl⟩
  · exact ⟨rd, fun r hr => readReg_writeReg_ne v hr⟩
  · exact ⟨0, fun _ _ => rfl⟩
  · exact ⟨rd, fun r hr => (readReg_writeReg_ne v hr).trans (readReg_csrWrite s r a w)⟩
  · exact ⟨0, fun _ _ => rfl⟩

/-- A store, FENCE, ECALL and EBREAK leave the register file (R188, R233, R250). -/
theorem exec_next_sameRegs {i : Instr} {s t : State} (hi : family i = .store ∨ family i = .fence ∨ family i = .halt)
    (h : exec i s = .next t) : SameRegs s t := by
  rcases hi with hstore | hfence | hhalt
  · obtain ⟨rs1, imm, n, -, ⟨-, v, he⟩ | ⟨-, he⟩⟩ := exec_store hstore s <;> rw [he] at h <;> cases h
    exact sameRegs_of_x rfl
  · cases eq_fence hfence
    cases h
    exact sameRegs_of_x rfl
  · rcases eq_ecall_or_ebreak hhalt with rfl | rfl <;> cases h <;> exact sameRegs_of_x rfl

/-- Settles O31: `exec_next_oneReg` for every family, `exec_next_sameRegs` for those that write none. -/
theorem atMostOneRegisterWritten : Obligations.AtMostOneRegisterWritten :=
  fun _ _ _ h => ⟨exec_next_oneReg h, fun hi => exec_next_sameRegs hi h⟩

end Sys2Proof.Machine
end

section
/-! PROOFS. No CSR has any effect on execution (R35, R287): each shape of instruction but the CSR instructions commutes with a
replacement of the CSR cells. -/

namespace Sys2Proof.Machine

section Noninterference

variable (l : List (Nat × Word)) (s : State)

theorem writeBack_setCsrs (rd : RegId) (v : Word) : writeBack rd v (s.setCsrs l) = withCsrs l (writeBack rd v s) := by
  rw [writeBack, writeReg_setCsrs]; rfl

theorem linkAndJump_setCsrs (rd : RegId) (target : Word) :
    linkAndJump rd target (s.setCsrs l) = withCsrs l (linkAndJump rd target s) := by
  rw [linkAndJump, writeReg_setCsrs]; rfl

theorem branch_setCsrs (cond : Word → Word → Bool) (rs1 rs2 : RegId) (imm : BitVec 13) :
    branch cond rs1 rs2 imm (s.setCsrs l) = withCsrs l (branch cond rs1 rs2 imm s) := by
  unfold branch
  rw [readReg_setCsrs, readReg_setCsrs, apply_ite (withCsrs l)]
  rfl

theorem load_setCsrs (n : AccessSize) (ext : Word → Word) (rd rs1 : RegId) (imm : BitVec 12) :
    load n ext rd rs1 imm (s.setCsrs l) = withCsrs l (load n ext rd rs1 imm s) := by
  have hread : busRead (s.setCsrs l) ((s.setCsrs l).ea rs1 imm) n = busRead s (s.ea rs1 imm) n := rfl
  unfold load
  rw [hread]
  cases busRead s (s.ea rs1 imm) n with
  | error k => rfl
  | ok v => exact writeBack_setCsrs l s rd (ext v)

theorem busWrite_setCsrs (a v : Word) (n : AccessSize) :
    busWrite (s.setCsrs l) a n v = (busWrite s a n v).map (State.setCsrs · l) := by
  by_cases hr : InRam s a n.bytes
  · rw [busWrite_ok v hr, busWrite_ok (s := s.setCsrs l) v hr]; rfl
  · rw [busWrite_error v hr, busWrite_error (s := s.setCsrs l) v hr]; rfl

theorem store_setCsrs (n : AccessSize) (rs1 rs2 : RegId) (imm : BitVec 12) :
    store n rs1 rs2 imm (s.setCsrs l) = withCsrs l (store n rs1 rs2 imm s) := by
  have hea : (s.setCsrs l).ea rs1 imm = s.ea rs1 imm := rfl
  unfold store
  rw [hea, readReg_setCsrs, busWrite_setCsrs]
  cases busWrite s (s.ea rs1 imm) n (s.readReg rs2) <;> rfl

/-- Execute of an instruction that is no CSR instruction, by its shape. -/
theorem exec_setCsrs {i : Instr} (hi : family i ≠ .csr) : exec i (s.setCsrs l) = withCsrs l (exec i s) := by
  cases i
  case csrrw | csrrs | csrrc | csrrwi | csrrsi | csrrci => exact absurd rfl hi
  case jal | jalr => exact linkAndJump_setCsrs l s _ _
  case beq | bne | blt | bge | bltu | bgeu => exact branch_setCsrs l s _ _ _ _
  case lb | lh | lw | ld | lbu | lhu | lwu => exact load_setCsrs l s _ _ _ _ _
  case sb | sh | sw | sd => exact store_setCsrs l s _ _ _ _
  case fence | ecall | ebreak => rfl
  all_goals exact writeBack_setCsrs l s _ _

theorem fetch_setCsrs {w : BitVec 32} {s1 : State} (hf : fetch s = .ok (w, s1)) :
    fetch (s.setCsrs l) = .ok (w, s1.setCsrs l) := by
  by_cases hr : InRam s s.pc 4
  · rw [fetch_ok hr] at hf
    cases hf
    exact fetch_ok (s := s.setCsrs l) hr
  · rw [fetch_error hr] at hf
    cases hf

end Noninterference

/-- Settles O32: Fetch and Decode look at no CSR, and by `exec_setCsrs` neither does the instruction fetched. -/
theorem csrsDoNotInfluenceExecution : Obligations.CsrsDoNotInfluenceExecution := by
  unfold Obligations.CsrsDoNotInfluenceExecution
  intro s l hcsr
  rcases step_cases s with ⟨hr, he⟩ | ⟨-, w, hf, ⟨hd, he⟩ | ⟨i, hd, he⟩⟩ <;> rw [he]
  · rw [step, fetch_error (s := s.setCsrs l) hr]
    rfl
  · rw [step, fetch_setCsrs l s hf]
    simp only [hd]
    rfl
  · rw [step_of_decode (fetch_setCsrs l s hf) hd]
    exact exec_setCsrs l _ (hcsr w _ i hf hd)

end Sys2Proof.Machine
end

section
/-! PROOFS. An even pc stays even (R27): Decode gives even branch and JAL offsets only (R86, R88), JALR clears bit 0 of its target
(R173), and Fetch adds 4 (R111). -/

namespace Sys2Proof.Machine

/-! ## What decodes is well-formed (R118) -/

/-- What Decode answers is a well-formed instruction, if it is an instruction. -/
def decodedWf : Except DecodeError Instr → Bool
  | .ok i => i.wf
  | .error _ => true

theorem decodedWf_decodeBranch (w : BitVec 32) : decodedWf (decodeBranch w) = true := by
  unfold decodeBranch
  split
  case h_7 => rfl
  all_goals exact wfB_immBOf w

/-- Only B and J offsets and U values are restricted (R86 to R88); every other instruction is well-formed by its type. -/
theorem decodedWf_decode (w : BitVec 32) : decodedWf (decode w) = true := by
  unfold decode
  split
  case h_1 | h_2 => exact wfU_immUOf w
  case h_3 => exact wfJ_immJOf w
  case h_5 => exact decodedWf_decodeBranch w
  case h_14 => rfl
  all_goals
    simp only [decodeJalr, decodeLoad, decodeStore, decodeOpImm, decodeOpImm32, decodeOp, decodeOp32, decodeMiscMem,
      decodeSystem]
    repeat' split
  all_goals rfl

theorem wf_of_decode {w : BitVec 32} {i : Instr} (hd : decode w = .ok i) : i.wf = true := by
  have hwf := decodedWf_decode w
  rwa [hd] at hwf

/-! ## Even addresses -/

/-- Bit 0 of the address is 0. -/
def EvenWord (p : Word) : Prop := p.getLsbD 0 = false

theorem evenWord_iff (p : Word) : EvenWord p ↔ p.toNat % 2 = 0 := by
  simp [EvenWord, BitVec.getLsbD, Nat.testBit_zero]

theorem evenWord_add {p q : Word} (hp : EvenWord p) (hq : EvenWord q) : EvenWord (p + q) := by
  rw [evenWord_iff] at *
  rw [BitVec.toNat_add]
  omega

theorem evenWord_sub {p q : Word} (hp : EvenWord p) (hq : EvenWord q) : EvenWord (p - q) := by
  rw [evenWord_iff] at *
  rw [BitVec.toNat_sub]
  omega

theorem evenWord_four : EvenWord 4 := rfl

/-- Sign-extension of an offset whose bit 0 is 0 (R86, R88). -/
theorem evenWord_signExtend {n : Nat} (hn : 0 < n) {imm : BitVec n} (h : imm.extractLsb' 0 1 = 0#1) :
    EvenWord (imm.signExtend 64) := by
  have hbit : imm.getLsbD 0 = false := by simpa using congrArg (BitVec.getLsbD · 0) h
  rw [EvenWord, BitVec.getLsbD_signExtend, hbit, if_pos hn]
  rfl

theorem evenWord_immB {imm : BitVec 13} (h : wfB imm = true) : EvenWord (immB imm) :=
  evenWord_signExtend (by decide) (beq_iff_eq.1 h)

theorem evenWord_immJ {imm : BitVec 21} (h : wfJ imm = true) : EvenWord (immJ imm) :=
  evenWord_signExtend (by decide) (beq_iff_eq.1 h)

theorem evenWord_clearBit0 (p : Word) : EvenWord (p &&& ~~~1#64) := by
  rw [evenWord_iff, clearBit0_toNat]
  omega

theorem evenWord_ia {s : State} (hs : EvenWord s.pc) : EvenWord s.ia := evenWord_sub hs evenWord_four

/-! ## The pc after a step -/

/-- The state a step answers, retired, halted or raised, has an even pc. -/
def AnswerPcEven : Result → Prop
  | .next t => EvenWord t.pc
  | .fault (.exception _ t) => EvenWord t.pc
  | .refused _ => True

section Answers

variable {s : State} (hs : EvenWord s.pc)
include hs

theorem answerPcEven_branch {imm : BitVec 13} (hwf : wfB imm = true) (cond : Word → Word → Bool) (rs1 rs2 : RegId) :
    AnswerPcEven (branch cond rs1 rs2 imm s) := by
  unfold branch
  split
  · exact evenWord_add (evenWord_ia hs) (evenWord_immB hwf)
  · exact hs

theorem answerPcEven_control {i : Instr} (hi : family i = .control) (hwf : i.wf = true) : AnswerPcEven (exec i s) := by
  cases i
  case jal => exact evenWord_add (evenWord_ia hs) (evenWord_immJ hwf)
  case jalr => exact evenWord_clearBit0 _
  case beq | bne | blt | bge | bltu | bgeu => exact answerPcEven_branch hs hwf _ _ _
  all_goals cases hi

/-- Execute of a well-formed instruction: only a control transfer puts another address into the pc. -/
theorem answerPcEven_exec {i : Instr} (hwf : i.wf = true) : AnswerPcEven (exec i s) := by
  rcases exec_cases i s with ⟨rd, v, p, he, rfl | hcontrol⟩ | ⟨-, rs1, imm, k, -, -, v, he⟩ | ⟨-, rd, v, a, w, he⟩ | ⟨-, h, he⟩ |
    ⟨-, rs1, imm, k, -, -, he⟩
  case inl.inr => exact answerPcEven_control hs hcontrol hwf
  all_goals rw [he]
  case inr.inr.inl =>
    change EvenWord ((csrWrite s a w).writeReg rd v).pc
    rwa [writeReg_pc, csrWrite_pc]
  all_goals exact hs

theorem answerPcEven_step : AnswerPcEven (step s) := by
  have hadv : EvenWord (s.setPc (s.pc + 4)).pc := evenWord_add hs evenWord_four
  rcases step_cases s with ⟨-, hfetch⟩ | ⟨-, w, -, ⟨-, hdecode⟩ | ⟨i, hd, hexec⟩⟩
  · rw [hfetch]; exact hs
  · rw [hdecode]; exact hadv
  · rw [hexec]; exact answerPcEven_exec hadv (wf_of_decode hd)

end Answers

/-- Settles O33: `answerPcEven_step`, read for each form of answer. -/
theorem evenPcStaysEven : Obligations.EvenPcStaysEven := by
  unfold Obligations.EvenPcStaysEven
  intro s t hs
  have hstep : AnswerPcEven (step s) := answerPcEven_step hs
  refine ⟨fun ht => ?_, fun k ht => ?_⟩
  · rw [ht] at hstep; exact hstep
  · rw [ht] at hstep; exact hstep

end Sys2Proof.Machine
end

section
/-! PROOFS. The memory controller, the Bus, and what Fetch reads through it (R51 to R60, R68, R71, R111, R117): a byte of a value
written or read is a byte of RAM, at the address the Bus was given. -/

namespace Sys2Proof.Machine

/-! ## Bytes of a value -/

theorem extractByte_toNat (v : Word) (i : Nat) : (v.extractLsb' (8 * i) 8).toNat = v.toNat / 256 ^ i % 256 := by
  rw [BitVec.extractLsb'_toNat, Nat.shiftRight_eq_div_pow, Nat.pow_mul]

/-- The value of an access fits the 64 bits it is read into. -/
theorem ofNat_leNat_toNat (m : Memory) (o : Nat) (n : AccessSize) :
    (BitVec.ofNat 64 (m.leNat o n.bytes)).toNat = m.leNat o n.bytes := by
  have hlt : m.leNat o n.bytes < 2 ^ 64 := calc
    m.leNat o n.bytes < 256 ^ n.bytes := leNat_lt m o n.bytes
    _ ≤ 256 ^ 8 := Nat.pow_le_pow_right (by decide) (bytes_le n)
  rw [BitVec.toNat_ofNat, Nat.mod_eq_of_lt hlt]

theorem extractByte_leNat (m : Memory) (o : Nat) (n : AccessSize) {i : Nat} (hi : i < n.bytes) :
    (BitVec.ofNat 64 (m.leNat o n.bytes)).extractLsb' (8 * i) 8 = m.byte (o + i) := by
  apply BitVec.eq_of_toNat_eq
  rw [extractByte_toNat, ofNat_leNat_toNat, leNat_digit m o n.bytes i hi]

/-- Byte `i` of a written range is byte `i` of the value. -/
theorem byte_setLe_inside (m : Memory) (o : Nat) (v : Word) {n i : Nat} (hi : i < n) :
    (m.setLe o v n).byte (o + i) = v.extractLsb' (8 * i) 8 := by
  rw [byte_setLe, if_pos ⟨Nat.le_add_right o i, Nat.add_lt_add_left hi o⟩, Nat.add_sub_cancel_left]

/-- The 32-bit word of four bytes, the least significant first (R111). -/
theorem word_leNat (m : Memory) (o : Nat) : (BitVec.ofNat 64 (m.leNat o 4)).setWidth 32 =
    m.byte (o + 3) ++ m.byte (o + 2) ++ m.byte (o + 1) ++ m.byte o := by
  have hlt : m.leNat o 4 < 2 ^ 32 := leNat_lt m o 4
  have hval : (BitVec.ofNat 64 (m.leNat o 4)).toNat = m.leNat o 4 := ofNat_leNat_toNat m o .b4
  apply BitVec.eq_of_toNat_eq
  rw [BitVec.toNat_setWidth, hval, Nat.mod_eq_of_lt hlt]
  simp only [append_toNat]
  simp only [Memory.leNat, Nat.add_assoc, Nat.reduceAdd]
  omega

/-! ## The memory controller (R51 to R53) -/

/-- Settles O6: the value is the controller's `leNat`, whose byte `i` is `extractByte_leNat`. -/
theorem memoryReadIsLittleEndian : Obligations.MemoryReadIsLittleEndian := by
  unfold Obligations.MemoryReadIsLittleEndian
  intro m o n hin
  refine ⟨_, if_pos hin, ?_, fun i hi => extractByte_leNat m o n hi⟩
  rw [ofNat_leNat_toNat]
  exact leNat_lt m o n.bytes

/-- Settles O7: `byte_setLe` inside the array; outside it neither operation answers. -/
theorem memoryWriteChangesExactlyItsBytes : Obligations.MemoryWriteChangesExactlyItsBytes := by
  unfold Obligations.MemoryWriteChangesExactlyItsBytes
  intro m o n v
  refine ⟨fun hin => ⟨_, if_pos hin, setLe_size .., fun p => byte_setLe m o p v n.bytes⟩, fun hout => ?_⟩
  exact ⟨if_neg (not_le.2 hout), if_neg (not_le.2 hout)⟩

/-! ## The address map (R56, R68) -/

theorem byteAt_of_inRam {s : State} {a : Word} (hr : InRam s a 1) : s.byteAt a = some (s.mem.byte (ramOffset a)) :=
  if_pos ((accessValid_iff s a .b1).2 hr)

theorem byteAt_of_not_inRam {s : State} {a : Word} (hr : ¬ InRam s a 1) : s.byteAt a = none :=
  if_neg (mt (accessValid_iff s a .b1).1 hr)

theorem inRam_one_iff (s : State) (a : Word) :
    InRam s a 1 ↔ Config.memBase ≤ a.toNat ∧ a.toNat < Config.memBase + s.mem.size := by
  unfold InRam
  omega

/-- Settles O10: an address of the window is a one-byte access in RAM. -/
theorem addressMapIsTheRamWindow : Obligations.AddressMapIsTheRamWindow := by
  refine ⟨rfl, fun s a => ?_⟩
  rw [← inRam_one_iff]
  exact ⟨byteAt_of_inRam, byteAt_of_not_inRam⟩

theorem ramOffset_add {a : Word} {i : Nat} (ha : Config.memBase ≤ a.toNat)
    (hsum : (a + BitVec.ofNat 64 i).toNat = a.toNat + i) : ramOffset (a + BitVec.ofNat 64 i) = ramOffset a + i := by
  rw [ramOffset, hsum]
  exact Nat.sub_add_comm ha

theorem byteAt_eq_some {s : State} {a : Word} {b : Byte} (h : s.byteAt a = some b) :
    InRam s a 1 ∧ s.mem.byte (ramOffset a) = b := by
  by_cases hr : InRam s a 1
  · rw [byteAt_of_inRam hr] at h
    exact ⟨hr, Option.some.inj h⟩
  · rw [byteAt_of_not_inRam hr] at h
    cases h

/-! ## The Bus (R57 to R60) -/

/-- Settles O9: the routing check decides both, and `byteAt_store` says what a served write changes. -/
theorem busAccessIsAllOrNothing : Obligations.BusAccessIsAllOrNothing := by
  unfold Obligations.BusAccessIsAllOrNothing
  intro s a v n
  refine ⟨fun hr => ⟨?_, _, busWrite_ok v hr, sameRegs_of_x rfl, rfl, sameCsrs_of_csrs rfl, setLe_size ..,
    fun b => byteAt_store s a b v n.bytes hr⟩, fun hr => ⟨busRead_error hr, busWrite_error v hr⟩⟩
  rw [leValue_eq]
  exact busRead_ok hr

/-- A Bus write that succeeded was wholly in RAM and changed the memory alone. -/
theorem busWrite_eq_ok {s t : State} {a v : Word} {n : AccessSize} (h : busWrite s a n v = .ok t) :
    InRam s a n.bytes ∧ t = s.setMem (s.mem.setLe (ramOffset a) v n.bytes) := by
  by_cases hr : InRam s a n.bytes
  · rw [busWrite_ok v hr] at h
    cases h
    exact ⟨hr, rfl⟩
  · rw [busWrite_error v hr] at h
    cases h

/-- A write keeps the capacity, and with it which accesses are in RAM. -/
theorem inRam_setLe {s : State} {a : Word} {n : Nat} (hr : InRam s a n) (o : Nat) (v : Word) (k : Nat) :
    InRam (s.setMem (s.mem.setLe o v k)) a n := by
  rwa [InRam, setMem_mem, setLe_size]

/-- R54, the whole value: a read of the range just written. -/
theorem busRead_setLe {s : State} {a : Word} {n : AccessSize} (v : Word) (hr : InRam s a n.bytes) :
    busRead (s.setMem (s.mem.setLe (ramOffset a) v n.bytes)) a n = .ok (BitVec.ofNat 64 (v.toNat % 256 ^ n.bytes)) := by
  rw [busRead_ok (inRam_setLe hr ..), setMem_mem, leNat_setLe]

theorem busRead_b1 {s : State} {a : Word} (hr : InRam s a 1) :
    busRead s a .b1 = .ok ((s.mem.byte (ramOffset a)).setWidth 64) := by
  rw [busRead_ok (n := .b1) hr]
  simp only [bytes_b1, Memory.leNat, Nat.mul_zero, Nat.add_zero, BitVec.ofNat_toNat]

/-- R11 bounds the capacity of a well-formed state, so the addresses of an access in RAM do not wrap. -/
theorem toNat_add_of_inRam {s : State} {a : Word} {n i : Nat} (hwf : s.wf = true) (hr : InRam s a n) (hi : i < n) :
    (a + BitVec.ofNat 64 i).toNat = a.toNat + i := by
  have hsize := size_of_wf hwf
  obtain ⟨hlow, hhigh⟩ := hr
  simp only [Config.memBase] at hlow hhigh
  rw [BitVec.toNat_add, BitVec.toNat_ofNat]
  omega

/-- Settles O8: `busRead_setLe` for the whole value, `byte_setLe_inside` for each byte of it. -/
theorem writeThenReadReturnsTheValue : Obligations.WriteThenReadReturnsTheValue := by
  unfold Obligations.WriteThenReadReturnsTheValue
  intro s t a v n hwf hwrite
  obtain ⟨hr, rfl⟩ := busWrite_eq_ok hwrite
  refine ⟨busRead_setLe v hr, fun i hi => ?_⟩
  have hsum : (a + BitVec.ofNat 64 i).toNat = a.toNat + i := toNat_add_of_inRam hwf hr hi
  have hin : InRam s (a + BitVec.ofNat 64 i) 1 := by
    unfold InRam at *
    omega
  rw [busRead_b1 (inRam_setLe hin ..), ramOffset_add hr.1 hsum, setMem_mem, byte_setLe_inside _ _ _ hi]

/-! ## What Fetch reads (R71, R111, R117) -/

/-- R111: where the four bytes from the pc on are those of `v`, Fetch gives the low 32 bits of `v`. -/
theorem fetch_of_bytes {s : State} {v : Word} (hr : InRam s s.pc 4)
    (hbytes : ∀ i < 4, s.mem.byte (ramOffset s.pc + i) = v.extractLsb' (8 * i) 8) :
    fetch s = .ok (v.extractLsb' 0 32, s.setPc (s.pc + 4)) := by
  have hword : (BitVec.ofNat 64 (v.toNat % 256 ^ 4)).setWidth 32 = v.extractLsb' 0 32 := by
    apply BitVec.eq_of_toNat_eq
    rw [BitVec.toNat_setWidth, BitVec.toNat_ofNat, BitVec.extractLsb'_toNat, Nat.shiftRight_zero]
    omega
  rw [fetch_ok hr, leNat_of_bytes s.mem _ 4 v hbytes, hword]

/-- Settles O34: the four bytes from the pc on are those of the register stored (`byte_setLe_inside`). -/
theorem storeIsSeenByTheNextFetch : Obligations.StoreIsSeenByTheNextFetch := by
  unfold Obligations.StoreIsSeenByTheNextFetch
  intro rs1 rs2 imm s hpc hr
  obtain ⟨-, hstore⟩ | ⟨hout, -⟩ := store_cases .b4 rs1 rs2 imm s
  · rw [hpc] at hr hstore
    exact ⟨_, hstore, fetch_of_bytes (inRam_setLe hr ..) fun i hi => byte_setLe_inside _ _ _ hi⟩
  · exact absurd hr hout

/-- A byte read a little above an address of RAM lies in RAM beyond it: the sum does not wrap, for the addresses below `MEM_BASE`
hold no byte. -/
theorem byteAt_add {s : State} {a : Word} {i : Nat} {b : Byte} (ha : Config.memBase ≤ a.toNat) (hi : i < Config.memBase)
    (h : s.byteAt (a + BitVec.ofNat 64 i) = some b) : InRam s a (i + 1) ∧ s.mem.byte (ramOffset a + i) = b := by
  obtain ⟨⟨hlow, hhigh⟩, hbyte⟩ := byteAt_eq_some h
  have hsum : (a + BitVec.ofNat 64 i).toNat = a.toNat + i := by
    rw [BitVec.toNat_add, BitVec.toNat_ofNat] at hlow ⊢
    unfold Config.memBase at *
    omega
  rw [ramOffset_add ha hsum] at hbyte
  exact ⟨⟨ha, by omega⟩, hbyte⟩

/-- Settles O22: the bytes read are in RAM without wrapping (`byteAt_add`), and Fetch gives them as one word (`word_leNat`). -/
theorem stepRunsTheBytesAtThePc : Obligations.StepRunsTheBytesAtThePc := by
  unfold Obligations.StepRunsTheBytesAtThePc
  intro s b0 b1 b2 b3 i h0 h1 h2 h3 hd
  obtain ⟨⟨hlow, -⟩, rfl⟩ := byteAt_eq_some h0
  obtain ⟨-, rfl⟩ := byteAt_add (i := 1) hlow (by decide) h1
  obtain ⟨-, rfl⟩ := byteAt_add (i := 2) hlow (by decide) h2
  obtain ⟨hr, rfl⟩ := byteAt_add (i := 3) hlow (by decide) h3
  rw [← word_leNat] at hd
  exact step_of_decode (fetch_ok hr) hd

end Sys2Proof.Machine
end

section
/-! PROOFS. Decode and Encode undo each other (R83 to R97): format by format, what the fields of an encoded word are, and how a
word is put together again from its own fields. -/

namespace Sys2Proof.Machine

/-! ## Encode, then Decode -/

/-- The encoded word's opcode, funct3 and upper bits lead Decode to the instruction's own branch, and its fields are the operands:
`fields_enc…` of the instruction's format. -/
theorem decode_encode {i : Instr} (hwf : i.wf = true) : decode (encode i) = .ok i := by
  cases i
  case lui rd imm | auipc rd imm => simp only [encode, decode, fields_encU, immUOf_encU _ rd hwf]
  case jal rd imm => simp only [encode, decode, fields_encJ, immJOf_encJ _ rd hwf]
  case beq rs1 rs2 imm | bne rs1 rs2 imm | blt rs1 rs2 imm | bge rs1 rs2 imm | bltu rs1 rs2 imm | bgeu rs1 rs2 imm =>
    simp only [encode, decode, decodeBranch, fields_encB, immBOf_encB _ _ rs1 rs2 hwf]
  case sb | sh | sw | sd => simp only [encode, decode, decodeStore, fields_encS]
  case addi | slti | sltiu | xori | ori | andi | addiw | jalr | lb | lh | lw | ld | lbu | lhu | lwu | csrrw | csrrs | csrrc |
      csrrwi | csrrsi | csrrci =>
    simp only [encode, decode, decodeOpImm, decodeOpImm32, decodeJalr, decodeLoad, decodeSystem, fields_encI]
  case slli | srli | srai =>
    simp only [encode, decode, decodeOpImm, fields_encSh6]
    rfl
  case fence | ecall | ebreak => decide
  all_goals
    simp only [encode, decode, decodeOp, decodeOp32, decodeOpImm32, shamt5Of_eq, fields_encR]
    rfl

/-- Settles O14: `decode_encode`. -/
theorem decodeInvertsEncode : Obligations.DecodeInvertsEncode := fun _ => decode_encode

/-! ## A word put together again from its own fields (R83) -/

section Fields

variable {w : BitVec 32} {op f7 : BitVec 7} {f6 : BitVec 6} {f3 : BitVec 3} (hop : opcodeOf w = op) (h3 : funct3Of w = f3)
include hop

theorem encU_of_fields : encU (immUOf w) (rdOf w) op = w := by
  subst hop; exact (word_eq_encU w).symm

theorem encJ_of_fields : encJ (immJOf w) (rdOf w) op = w := by
  subst hop; exact (word_eq_encJ w).symm

include h3

theorem encI_of_fields : encI (imm12Of w) (rs1Of w) f3 (rdOf w) op = w := by
  subst hop h3; exact (word_eq_encI w).symm

theorem encS_of_fields : encS (immSOf w) (rs2Of w) (rs1Of w) f3 op = w := by
  subst hop h3; exact (word_eq_encS w).symm

theorem encB_of_fields : encB (immBOf w) (rs2Of w) (rs1Of w) f3 op = w := by
  subst hop h3; exact (word_eq_encB w).symm

theorem encR_of_fields (h7 : funct7Of w = f7) : encR f7 (rs2Of w) (rs1Of w) f3 (rdOf w) op = w := by
  subst hop h3 h7; exact (word_eq_encR w).symm

theorem encSh6_of_fields (h6 : funct6Of w = f6) : encSh6 f6 (shamt6Of w) (rs1Of w) f3 (rdOf w) op = w := by
  subst hop h3 h6; exact (word_eq_encSh6 w).symm

end Fields

/-! ## Decode, then Encode -/

/-- The bits of an instruction's word that Decode examines: all, but for FENCE, ECALL and EBREAK (R97). -/
def examinedBits : Instr → BitVec 32
  | .fence => 0x0000707F
  | .ecall | .ebreak => 0xFFF0707F
  | _ => .allOnes 32

theorem examinedBits_eq_allOnes {i : Instr} (hf : i ≠ .fence) (hc : i ≠ .ecall) (hb : i ≠ .ebreak) :
    examinedBits i = .allOnes 32 := by
  cases i
  case fence => exact absurd rfl hf
  case ecall => exact absurd rfl hc
  case ebreak => exact absurd rfl hb
  all_goals rfl

/-- The instruction Decode answers for `w`, if any, encodes to the examined bits of `w`. -/
def EncodesBack (w : BitVec 32) : Except DecodeError Instr → Prop
  | .ok i => encode i = w &&& examinedBits i
  | .error _ => True

section EncodesBack

variable {w : BitVec 32}

theorem encodesBack_undecodable : EncodesBack w (undecodable w) := trivial

theorem encodesBack_ok {i : Instr} (hi : examinedBits i = .allOnes 32) (h : encode i = w) : EncodesBack w (.ok i) := by
  rw [EncodesBack, hi, BitVec.and_allOnes, h]

/-- One check of the upper bits: the branch taken encodes back, and so does whatever the checks after it answer. -/
theorem encodesBack_ite {p : Prop} [Decidable p] {i : Instr} {d : Except DecodeError Instr}
    (hi : examinedBits i = .allOnes 32) (h : p → encode i = w) (hd : EncodesBack w d) :
    EncodesBack w (if p then .ok i else d) := by
  split
  · exact encodesBack_ok hi (h ‹p›)
  · exact hd

theorem encodesBack_decodeJalr (hop : opcodeOf w = 0b1100111#7) : EncodesBack w (decodeJalr w) := by
  unfold decodeJalr
  split
  case h_1 h3 => exact encodesBack_ok rfl (encI_of_fields hop h3)
  case h_2 => exact encodesBack_undecodable

theorem encodesBack_decodeBranch (hop : opcodeOf w = 0b1100011#7) : EncodesBack w (decodeBranch w) := by
  unfold decodeBranch
  split
  case h_7 => exact encodesBack_undecodable
  all_goals exact encodesBack_ok rfl (encB_of_fields hop ‹funct3Of w = _›)

theorem encodesBack_decodeLoad (hop : opcodeOf w = 0b0000011#7) : EncodesBack w (decodeLoad w) := by
  unfold decodeLoad
  split
  case h_8 => exact encodesBack_undecodable
  all_goals exact encodesBack_ok rfl (encI_of_fields hop ‹funct3Of w = _›)

theorem encodesBack_decodeStore (hop : opcodeOf w = 0b0100011#7) : EncodesBack w (decodeStore w) := by
  unfold decodeStore
  split
  case h_5 => exact encodesBack_undecodable
  all_goals exact encodesBack_ok rfl (encS_of_fields hop ‹funct3Of w = _›)

theorem encodesBack_decodeOpImm (hop : opcodeOf w = 0b0010011#7) : EncodesBack w (decodeOpImm w) := by
  unfold decodeOpImm
  split
  case h_2 h3 => exact encodesBack_ite rfl (encSh6_of_fields hop h3) encodesBack_undecodable
  case h_6 h3 =>
    exact encodesBack_ite rfl (encSh6_of_fields hop h3)
      (encodesBack_ite rfl (encSh6_of_fields hop h3) encodesBack_undecodable)
  all_goals exact encodesBack_ok rfl (encI_of_fields hop ‹funct3Of w = _›)

theorem encodesBack_decodeOpImm32 (hop : opcodeOf w = 0b0011011#7) : EncodesBack w (decodeOpImm32 w) := by
  unfold decodeOpImm32
  split
  case h_1 h3 => exact encodesBack_ok rfl (encI_of_fields hop h3)
  case h_2 h3 => exact encodesBack_ite rfl (encR_of_fields hop h3) encodesBack_undecodable
  case h_3 h3 =>
    exact encodesBack_ite rfl (encR_of_fields hop h3)
      (encodesBack_ite rfl (encR_of_fields hop h3) encodesBack_undecodable)
  case h_4 => exact encodesBack_undecodable

theorem encodesBack_decodeOp (hop : opcodeOf w = 0b0110011#7) : EncodesBack w (decodeOp w) := by
  unfold decodeOp
  split
  all_goals
    repeat refine encodesBack_ite rfl (encR_of_fields hop ‹funct3Of w = _›) ?_
    exact encodesBack_undecodable

theorem encodesBack_decodeOp32 (hop : opcodeOf w = 0b0111011#7) : EncodesBack w (decodeOp32 w) := by
  unfold decodeOp32
  split
  all_goals
    repeat refine encodesBack_ite rfl (encR_of_fields hop ‹funct3Of w = _›) ?_
    exact encodesBack_undecodable

theorem encodesBack_decodeMiscMem (hop : opcodeOf w = 0b0001111#7) : EncodesBack w (decodeMiscMem w) := by
  unfold decodeMiscMem
  split
  case h_1 h3 => exact (mask_I h3 hop).symm
  case h_2 => exact encodesBack_undecodable

theorem encodesBack_decodeSystem (hop : opcodeOf w = 0b1110011#7) : EncodesBack w (decodeSystem w) := by
  unfold decodeSystem
  split
  case h_1 h3 =>
    split_ifs with hecall hebreak
    · exact (mask_sys hecall h3 hop).symm
    · exact (mask_sys hebreak h3 hop).symm
    · exact encodesBack_undecodable
  case h_8 => exact encodesBack_undecodable
  all_goals exact encodesBack_ok rfl (encI_of_fields hop ‹funct3Of w = _›)

/-- Every branch of Decode, by the opcode. -/
theorem encodesBack_decode (w : BitVec 32) : EncodesBack w (decode w) := by
  unfold decode
  split
  case h_1 hop | h_2 hop => exact encodesBack_ok rfl (encU_of_fields hop)
  case h_3 hop => exact encodesBack_ok rfl (encJ_of_fields hop)
  case h_4 hop => exact encodesBack_decodeJalr hop
  case h_5 hop => exact encodesBack_decodeBranch hop
  case h_6 hop => exact encodesBack_decodeLoad hop
  case h_7 hop => exact encodesBack_decodeStore hop
  case h_8 hop => exact encodesBack_decodeOpImm hop
  case h_9 hop => exact encodesBack_decodeOpImm32 hop
  case h_10 hop => exact encodesBack_decodeOp hop
  case h_11 hop => exact encodesBack_decodeOp32 hop
  case h_12 hop => exact encodesBack_decodeMiscMem hop
  case h_13 hop => exact encodesBack_decodeSystem hop
  case h_14 => exact encodesBack_undecodable

end EncodesBack

theorem encode_of_decode {w : BitVec 32} {i : Instr} (hd : decode w = .ok i) : encode i = w &&& examinedBits i := by
  have hback := encodesBack_decode w
  rwa [hd] at hback

/-- Where Decode examines every bit, Encode gives the whole word back. -/
theorem encode_eq_of_decode {w : BitVec 32} {i : Instr} (hd : decode w = .ok i) (hf : i ≠ .fence) (hc : i ≠ .ecall)
    (hb : i ≠ .ebreak) : encode i = w := by
  rw [encode_of_decode hd, examinedBits_eq_allOnes hf hc hb, BitVec.and_allOnes]

/-- Settles O15: `wf_of_decode` and `encode_eq_of_decode`. -/
theorem encodeInvertsDecode : Obligations.EncodeInvertsDecode :=
  fun _ _ hd => ⟨wf_of_decode hd, encode_eq_of_decode hd⟩

end Sys2Proof.Machine
end

section
/-! PROOFS. The opcode table (R91, R92, R101): the words of each row decode to one instruction form, and every word that decodes
lies in the row of its instruction. -/

namespace Sys2Proof.Machine

/-! ## The words of a row (R91): mask and match fix the fields that Encode fixes, so the word is an encoded word -/

theorem encodes_of_encode {mask p : BitVec 32} {mk : BitVec 32 → Instr} (hwf : ∀ w, (mk w).wf = true)
    (henc : ∀ w, w &&& mask = p → encode (mk w) = w) : Encodes mask p mk := by
  intro w hm
  calc decode w = decode (encode (mk w)) := by rw [henc w hm]
    _ = .ok (mk w) := decode_encode (hwf w)

section Masks

variable {w p : BitVec 32}

theorem opcode_of_mask_U (hm : w &&& 0x0000007F = p) : opcodeOf w = opcodeOf p := field_of_mask 0 7 hm (by decide)

theorem fields_of_mask_I (hm : w &&& 0x0000707F = p) : opcodeOf w = opcodeOf p ∧ funct3Of w = funct3Of p :=
  ⟨field_of_mask 0 7 hm (by decide), field_of_mask 12 3 hm (by decide)⟩

theorem fields_of_mask_sh6 (hm : w &&& 0xFC00707F = p) :
    opcodeOf w = opcodeOf p ∧ funct3Of w = funct3Of p ∧ funct6Of w = funct6Of p :=
  ⟨field_of_mask 0 7 hm (by decide), field_of_mask 12 3 hm (by decide), field_of_mask 26 6 hm (by decide)⟩

theorem fields_of_mask_R (hm : w &&& 0xFE00707F = p) :
    opcodeOf w = opcodeOf p ∧ funct3Of w = funct3Of p ∧ funct7Of w = funct7Of p :=
  ⟨field_of_mask 0 7 hm (by decide), field_of_mask 12 3 hm (by decide), field_of_mask 25 7 hm (by decide)⟩

theorem fields_of_mask_sys (hm : w &&& 0xFFF0707F = p) :
    opcodeOf w = opcodeOf p ∧ funct3Of w = funct3Of p ∧ imm12Of w = imm12Of p :=
  ⟨field_of_mask 0 7 hm (by decide), field_of_mask 12 3 hm (by decide), field_of_mask 20 12 hm (by decide)⟩

end Masks

/-! For each format, the Encoding line of an instruction `mk` of that format, from its clause in Encode. -/

section Formats

variable {p : BitVec 32}

theorem encodes_U (mk : RegId → BitVec 32 → Instr)
    (h : ∀ rd imm, encode (mk rd imm) = encU imm rd (opcodeOf p) ∧ (mk rd imm).wf = wfU imm) :
    Encodes 0x0000007F p (fun w => mk (rdOf w) (immUOf w)) :=
  encodes_of_encode (fun w => (h ..).2.trans (wfU_immUOf w)) fun _ hm => (h ..).1.trans (encU_of_fields (opcode_of_mask_U hm))

theorem encodes_J (mk : RegId → BitVec 21 → Instr)
    (h : ∀ rd imm, encode (mk rd imm) = encJ imm rd (opcodeOf p) ∧ (mk rd imm).wf = wfJ imm) :
    Encodes 0x0000007F p (fun w => mk (rdOf w) (immJOf w)) :=
  encodes_of_encode (fun w => (h ..).2.trans (wfJ_immJOf w)) fun _ hm => (h ..).1.trans (encJ_of_fields (opcode_of_mask_U hm))

theorem encodes_I (mk : RegId → RegId → BitVec 12 → Instr)
    (h : ∀ rd rs1 imm, encode (mk rd rs1 imm) = encI imm rs1 (funct3Of p) rd (opcodeOf p) ∧ (mk rd rs1 imm).wf = true) :
    Encodes 0x0000707F p (fun w => mk (rdOf w) (rs1Of w) (imm12Of w)) := by
  refine encodes_of_encode (fun _ => (h ..).2) fun w hm => ?_
  obtain ⟨hop, h3⟩ := fields_of_mask_I hm
  exact (h ..).1.trans (encI_of_fields hop h3)

theorem encodes_S (mk : RegId → RegId → BitVec 12 → Instr)
    (h : ∀ rs1 rs2 imm, encode (mk rs1 rs2 imm) = encS imm rs2 rs1 (funct3Of p) (opcodeOf p) ∧ (mk rs1 rs2 imm).wf = true) :
    Encodes 0x0000707F p (fun w => mk (rs1Of w) (rs2Of w) (immSOf w)) := by
  refine encodes_of_encode (fun _ => (h ..).2) fun w hm => ?_
  obtain ⟨hop, h3⟩ := fields_of_mask_I hm
  exact (h ..).1.trans (encS_of_fields hop h3)

theorem encodes_B (mk : RegId → RegId → BitVec 13 → Instr)
    (h : ∀ rs1 rs2 imm, encode (mk rs1 rs2 imm) = encB imm rs2 rs1 (funct3Of p) (opcodeOf p) ∧
      (mk rs1 rs2 imm).wf = wfB imm) :
    Encodes 0x0000707F p (fun w => mk (rs1Of w) (rs2Of w) (immBOf w)) := by
  refine encodes_of_encode (fun w => (h ..).2.trans (wfB_immBOf w)) fun w hm => ?_
  obtain ⟨hop, h3⟩ := fields_of_mask_I hm
  exact (h ..).1.trans (encB_of_fields hop h3)

theorem encodes_sh6 (mk : RegId → RegId → BitVec 6 → Instr)
    (h : ∀ rd rs1 shamt, encode (mk rd rs1 shamt) = encSh6 (funct6Of p) shamt rs1 (funct3Of p) rd (opcodeOf p) ∧
      (mk rd rs1 shamt).wf = true) :
    Encodes 0xFC00707F p (fun w => mk (rdOf w) (rs1Of w) (shamt6Of w)) := by
  refine encodes_of_encode (fun _ => (h ..).2) fun w hm => ?_
  obtain ⟨hop, h3, h6⟩ := fields_of_mask_sh6 hm
  exact (h ..).1.trans (encSh6_of_fields hop h3 h6)

/-- The R-type, and the W-form shift-immediates, whose amount sits where `rs2` does (R89). -/
theorem encodes_R (mk : RegId → RegId → RegId → Instr)
    (h : ∀ rd rs1 rs2, encode (mk rd rs1 rs2) = encR (funct7Of p) rs2 rs1 (funct3Of p) rd (opcodeOf p) ∧
      (mk rd rs1 rs2).wf = true) :
    Encodes 0xFE00707F p (fun w => mk (rdOf w) (rs1Of w) (rs2Of w)) := by
  refine encodes_of_encode (fun _ => (h ..).2) fun w hm => ?_
  obtain ⟨hop, h3, h7⟩ := fields_of_mask_R hm
  exact (h ..).1.trans (encR_of_fields hop h3 h7)

end Formats

/-! FENCE, ECALL and EBREAK words may hold anything in the fields not examined (R97), so they are read off the decoder. -/

theorem encodes_fence : Encodes 0x0000707F 0x0000000F (fun _ => .fence) := by
  intro w hm
  obtain ⟨hop, h3⟩ := fields_of_mask_I hm
  rw [decode, hop, decodeMiscMem, h3]
  rfl

theorem encodes_ecall : Encodes 0xFFF0707F 0x00000073 (fun _ => .ecall) := by
  intro w hm
  obtain ⟨hop, h3, hi⟩ := fields_of_mask_sys hm
  rw [decode, hop, decodeSystem, h3, hi]
  rfl

theorem encodes_ebreak : Encodes 0xFFF0707F 0x00100073 (fun _ => .ebreak) := by
  intro w hm
  obtain ⟨hop, h3, hi⟩ := fields_of_mask_sys hm
  rw [decode, hop, decodeSystem, h3, hi]
  rfl

/-! ## The table -/

/-- The words of the row decode, to an instruction of its mnemonic. -/
def RowDecodes (r : OpcodeRow) : Prop :=
  ∃ mk, Encodes r.mask r.pattern mk ∧ ∀ w, (mk w).mnemonic = r.mnemonic

theorem rowDecodes_integer : ∀ r ∈ integerRows, RowDecodes r := by
  simp only [integerRows, List.forall_mem_cons]
  exact ⟨⟨_, encodes_U .lui fun _ _ => ⟨rfl, rfl⟩, fun _ => rfl⟩,
    ⟨_, encodes_U .auipc fun _ _ => ⟨rfl, rfl⟩, fun _ => rfl⟩,
    ⟨_, encodes_I .addi fun _ _ _ => ⟨rfl, rfl⟩, fun _ => rfl⟩,
    ⟨_, encodes_I .slti fun _ _ _ => ⟨rfl, rfl⟩, fun _ => rfl⟩,
    ⟨_, encodes_I .sltiu fun _ _ _ => ⟨rfl, rfl⟩, fun _ => rfl⟩,
    ⟨_, encodes_I .xori fun _ _ _ => ⟨rfl, rfl⟩, fun _ => rfl⟩,
    ⟨_, encodes_I .ori fun _ _ _ => ⟨rfl, rfl⟩, fun _ => rfl⟩,
    ⟨_, encodes_I .andi fun _ _ _ => ⟨rfl, rfl⟩, fun _ => rfl⟩,
    ⟨_, encodes_sh6 .slli fun _ _ _ => ⟨rfl, rfl⟩, fun _ => rfl⟩,
    ⟨_, encodes_sh6 .srli fun _ _ _ => ⟨rfl, rfl⟩, fun _ => rfl⟩,
    ⟨_, encodes_sh6 .srai fun _ _ _ => ⟨rfl, rfl⟩, fun _ => rfl⟩,
    ⟨_, encodes_R .add fun _ _ _ => ⟨rfl, rfl⟩, fun _ => rfl⟩,
    ⟨_, encodes_R .sub fun _ _ _ => ⟨rfl, rfl⟩, fun _ => rfl⟩,
    ⟨_, encodes_R .sll fun _ _ _ => ⟨rfl, rfl⟩, fun _ => rfl⟩,
    ⟨_, encodes_R .slt fun _ _ _ => ⟨rfl, rfl⟩, fun _ => rfl⟩,
    ⟨_, encodes_R .sltu fun _ _ _ => ⟨rfl, rfl⟩, fun _ => rfl⟩,
    ⟨_, encodes_R .xor fun _ _ _ => ⟨rfl, rfl⟩, fun _ => rfl⟩,
    ⟨_, encodes_R .srl fun _ _ _ => ⟨rfl, rfl⟩, fun _ => rfl⟩,
    ⟨_, encodes_R .sra fun _ _ _ => ⟨rfl, rfl⟩, fun _ => rfl⟩,
    ⟨_, encodes_R .or fun _ _ _ => ⟨rfl, rfl⟩, fun _ => rfl⟩,
    ⟨_, encodes_R .and fun _ _ _ => ⟨rfl, rfl⟩, fun _ => rfl⟩,
    ⟨_, encodes_I .addiw fun _ _ _ => ⟨rfl, rfl⟩, fun _ => rfl⟩,
    ⟨_, encodes_R .slliw fun _ _ _ => ⟨rfl, rfl⟩, fun _ => rfl⟩,
    ⟨_, encodes_R .srliw fun _ _ _ => ⟨rfl, rfl⟩, fun _ => rfl⟩,
    ⟨_, encodes_R .sraiw fun _ _ _ => ⟨rfl, rfl⟩, fun _ => rfl⟩,
    ⟨_, encodes_R .addw fun _ _ _ => ⟨rfl, rfl⟩, fun _ => rfl⟩,
    ⟨_, encodes_R .subw fun _ _ _ => ⟨rfl, rfl⟩, fun _ => rfl⟩,
    ⟨_, encodes_R .sllw fun _ _ _ => ⟨rfl, rfl⟩, fun _ => rfl⟩,
    ⟨_, encodes_R .srlw fun _ _ _ => ⟨rfl, rfl⟩, fun _ => rfl⟩,
    ⟨_, encodes_R .sraw fun _ _ _ => ⟨rfl, rfl⟩, fun _ => rfl⟩, List.forall_mem_nil _⟩

theorem rowDecodes_control : ∀ r ∈ controlRows, RowDecodes r := by
  simp only [controlRows, List.forall_mem_cons]
  exact ⟨⟨_, encodes_J .jal fun _ _ => ⟨rfl, rfl⟩, fun _ => rfl⟩,
    ⟨_, encodes_I .jalr fun _ _ _ => ⟨rfl, rfl⟩, fun _ => rfl⟩,
    ⟨_, encodes_B .beq fun _ _ _ => ⟨rfl, rfl⟩, fun _ => rfl⟩,
    ⟨_, encodes_B .bne fun _ _ _ => ⟨rfl, rfl⟩, fun _ => rfl⟩,
    ⟨_, encodes_B .blt fun _ _ _ => ⟨rfl, rfl⟩, fun _ => rfl⟩,
    ⟨_, encodes_B .bge fun _ _ _ => ⟨rfl, rfl⟩, fun _ => rfl⟩,
    ⟨_, encodes_B .bltu fun _ _ _ => ⟨rfl, rfl⟩, fun _ => rfl⟩,
    ⟨_, encodes_B .bgeu fun _ _ _ => ⟨rfl, rfl⟩, fun _ => rfl⟩, List.forall_mem_nil _⟩

theorem rowDecodes_loadStore : ∀ r ∈ loadStoreRows, RowDecodes r := by
  simp only [loadStoreRows, List.forall_mem_cons]
  exact ⟨⟨_, encodes_I .lb fun _ _ _ => ⟨rfl, rfl⟩, fun _ => rfl⟩,
    ⟨_, encodes_I .lh fun _ _ _ => ⟨rfl, rfl⟩, fun _ => rfl⟩,
    ⟨_, encodes_I .lw fun _ _ _ => ⟨rfl, rfl⟩, fun _ => rfl⟩,
    ⟨_, encodes_I .ld fun _ _ _ => ⟨rfl, rfl⟩, fun _ => rfl⟩,
    ⟨_, encodes_I .lbu fun _ _ _ => ⟨rfl, rfl⟩, fun _ => rfl⟩,
    ⟨_, encodes_I .lhu fun _ _ _ => ⟨rfl, rfl⟩, fun _ => rfl⟩,
    ⟨_, encodes_I .lwu fun _ _ _ => ⟨rfl, rfl⟩, fun _ => rfl⟩,
    ⟨_, encodes_S .sb fun _ _ _ => ⟨rfl, rfl⟩, fun _ => rfl⟩,
    ⟨_, encodes_S .sh fun _ _ _ => ⟨rfl, rfl⟩, fun _ => rfl⟩,
    ⟨_, encodes_S .sw fun _ _ _ => ⟨rfl, rfl⟩, fun _ => rfl⟩,
    ⟨_, encodes_S .sd fun _ _ _ => ⟨rfl, rfl⟩, fun _ => rfl⟩, List.forall_mem_nil _⟩

theorem rowDecodes_mulDiv : ∀ r ∈ mulDivRows, RowDecodes r := by
  simp only [mulDivRows, List.forall_mem_cons]
  exact ⟨⟨_, encodes_R .mul fun _ _ _ => ⟨rfl, rfl⟩, fun _ => rfl⟩,
    ⟨_, encodes_R .mulh fun _ _ _ => ⟨rfl, rfl⟩, fun _ => rfl⟩,
    ⟨_, encodes_R .mulhsu fun _ _ _ => ⟨rfl, rfl⟩, fun _ => rfl⟩,
    ⟨_, encodes_R .mulhu fun _ _ _ => ⟨rfl, rfl⟩, fun _ => rfl⟩,
    ⟨_, encodes_R .div fun _ _ _ => ⟨rfl, rfl⟩, fun _ => rfl⟩,
    ⟨_, encodes_R .divu fun _ _ _ => ⟨rfl, rfl⟩, fun _ => rfl⟩,
    ⟨_, encodes_R .rem fun _ _ _ => ⟨rfl, rfl⟩, fun _ => rfl⟩,
    ⟨_, encodes_R .remu fun _ _ _ => ⟨rfl, rfl⟩, fun _ => rfl⟩,
    ⟨_, encodes_R .mulw fun _ _ _ => ⟨rfl, rfl⟩, fun _ => rfl⟩,
    ⟨_, encodes_R .divw fun _ _ _ => ⟨rfl, rfl⟩, fun _ => rfl⟩,
    ⟨_, encodes_R .divuw fun _ _ _ => ⟨rfl, rfl⟩, fun _ => rfl⟩,
    ⟨_, encodes_R .remw fun _ _ _ => ⟨rfl, rfl⟩, fun _ => rfl⟩,
    ⟨_, encodes_R .remuw fun _ _ _ => ⟨rfl, rfl⟩, fun _ => rfl⟩, List.forall_mem_nil _⟩

theorem rowDecodes_system : ∀ r ∈ systemRows, RowDecodes r := by
  simp only [systemRows, List.forall_mem_cons]
  exact ⟨⟨_, encodes_I .csrrw fun _ _ _ => ⟨rfl, rfl⟩, fun _ => rfl⟩,
    ⟨_, encodes_I .csrrs fun _ _ _ => ⟨rfl, rfl⟩, fun _ => rfl⟩,
    ⟨_, encodes_I .csrrc fun _ _ _ => ⟨rfl, rfl⟩, fun _ => rfl⟩,
    ⟨_, encodes_I .csrrwi fun _ _ _ => ⟨rfl, rfl⟩, fun _ => rfl⟩,
    ⟨_, encodes_I .csrrsi fun _ _ _ => ⟨rfl, rfl⟩, fun _ => rfl⟩,
    ⟨_, encodes_I .csrrci fun _ _ _ => ⟨rfl, rfl⟩, fun _ => rfl⟩,
    ⟨_, encodes_fence, fun _ => rfl⟩, ⟨_, encodes_ecall, fun _ => rfl⟩, ⟨_, encodes_ebreak, fun _ => rfl⟩,
    List.forall_mem_nil _⟩

theorem rowDecodes_opcodeTable : ∀ r ∈ opcodeTable, RowDecodes r := by
  simp only [opcodeTable, List.forall_mem_append]
  exact ⟨⟨⟨⟨rowDecodes_integer, rowDecodes_control⟩, rowDecodes_loadStore⟩, rowDecodes_mulDiv⟩, rowDecodes_system⟩

/-! ## The row of an instruction -/

open Laws in
/-- The laws of `EncodesRow`, one per instruction, as one. -/
theorem encodesRow : ∀ i : Instr, EncodesRow.Statement i
  | .lui .. => EncodesRow.lui ..
  | .auipc .. => EncodesRow.auipc ..
  | .addi .. => EncodesRow.addi ..
  | .slti .. => EncodesRow.slti ..
  | .sltiu .. => EncodesRow.sltiu ..
  | .xori .. => EncodesRow.xori ..
  | .ori .. => EncodesRow.ori ..
  | .andi .. => EncodesRow.andi ..
  | .slli .. => EncodesRow.slli ..
  | .srli .. => EncodesRow.srli ..
  | .srai .. => EncodesRow.srai ..
  | .add .. => EncodesRow.add ..
  | .sub .. => EncodesRow.sub ..
  | .sll .. => EncodesRow.sll ..
  | .slt .. => EncodesRow.slt ..
  | .sltu .. => EncodesRow.sltu ..
  | .xor .. => EncodesRow.xor ..
  | .srl .. => EncodesRow.srl ..
  | .sra .. => EncodesRow.sra ..
  | .or .. => EncodesRow.or ..
  | .and .. => EncodesRow.and ..
  | .addiw .. => EncodesRow.addiw ..
  | .slliw .. => EncodesRow.slliw ..
  | .srliw .. => EncodesRow.srliw ..
  | .sraiw .. => EncodesRow.sraiw ..
  | .addw .. => EncodesRow.addw ..
  | .subw .. => EncodesRow.subw ..
  | .sllw .. => EncodesRow.sllw ..
  | .srlw .. => EncodesRow.srlw ..
  | .sraw .. => EncodesRow.sraw ..
  | .jal .. => EncodesRow.jal ..
  | .jalr .. => EncodesRow.jalr ..
  | .beq .. => EncodesRow.beq ..
  | .bne .. => EncodesRow.bne ..
  | .blt .. => EncodesRow.blt ..
  | .bge .. => EncodesRow.bge ..
  | .bltu .. => EncodesRow.bltu ..
  | .bgeu .. => EncodesRow.bgeu ..
  | .lb .. => EncodesRow.lb ..
  | .lh .. => EncodesRow.lh ..
  | .lw .. => EncodesRow.lw ..
  | .ld .. => EncodesRow.ld ..
  | .lbu .. => EncodesRow.lbu ..
  | .lhu .. => EncodesRow.lhu ..
  | .lwu .. => EncodesRow.lwu ..
  | .sb .. => EncodesRow.sb ..
  | .sh .. => EncodesRow.sh ..
  | .sw .. => EncodesRow.sw ..
  | .sd .. => EncodesRow.sd ..
  | .mul .. => EncodesRow.mul ..
  | .mulh .. => EncodesRow.mulh ..
  | .mulhsu .. => EncodesRow.mulhsu ..
  | .mulhu .. => EncodesRow.mulhu ..
  | .div .. => EncodesRow.div ..
  | .divu .. => EncodesRow.divu ..
  | .rem .. => EncodesRow.rem ..
  | .remu .. => EncodesRow.remu ..
  | .mulw .. => EncodesRow.mulw ..
  | .divw .. => EncodesRow.divw ..
  | .divuw .. => EncodesRow.divuw ..
  | .remw .. => EncodesRow.remw ..
  | .remuw .. => EncodesRow.remuw ..
  | .csrrw .. => EncodesRow.csrrw ..
  | .csrrs .. => EncodesRow.csrrs ..
  | .csrrc .. => EncodesRow.csrrc ..
  | .csrrwi .. => EncodesRow.csrrwi ..
  | .csrrsi .. => EncodesRow.csrrsi ..
  | .csrrci .. => EncodesRow.csrrci ..
  | .fence => EncodesRow.fence
  | .ecall => EncodesRow.ecall
  | .ebreak => EncodesRow.ebreak

/-- Settles O16: `encodesRow`. -/
theorem encodedWordLiesInItsRow : Obligations.EncodedWordLiesInItsRow := encodesRow

/-- A word that decodes lies in its instruction's row: where every bit is examined it is the encoded word, and the rows of FENCE,
ECALL and EBREAK mask the bits that are not. -/
theorem row_of_decode {w : BitVec 32} {i : Instr} (hd : decode w = .ok i) :
    ∃ r ∈ opcodeTable, r.mnemonic = i.mnemonic ∧ r.matches w = true := by
  have hback := encode_of_decode hd
  by_cases hf : i = .fence
  · subst hf
    exact ⟨⟨"FENCE", 0x0000000F, 0x0000707F⟩, by decide, rfl, beq_iff_eq.2 hback.symm⟩
  by_cases hc : i = .ecall
  · subst hc
    exact ⟨⟨"ECALL", 0x00000073, 0xFFF0707F⟩, by decide, rfl, beq_iff_eq.2 hback.symm⟩
  by_cases hb : i = .ebreak
  · subst hb
    exact ⟨⟨"EBREAK", 0x00100073, 0xFFF0707F⟩, by decide, rfl, beq_iff_eq.2 hback.symm⟩
  have hrow := encodedWordLiesInItsRow i
  rwa [encode_eq_of_decode hd hf hc hb] at hrow

/-- Settles O17: `rowDecodes_opcodeTable` for the words of a row; a word of no row does not decode, by `row_of_decode`. -/
theorem decodeIsTheOpcodeTable : Obligations.DecodeIsTheOpcodeTable := by
  unfold Obligations.DecodeIsTheOpcodeTable
  intro w
  refine ⟨fun r hr hm => ?_, fun hnone => ?_⟩
  · obtain ⟨mk, hdec, hname⟩ := rowDecodes_opcodeTable r hr
    exact ⟨mk w, hdec w (beq_iff_eq.1 hm), hname w⟩
  · cases hd : decode w with
    | error e => rw [decode_error hd]
    | ok i =>
      obtain ⟨r, hr, -, hm⟩ := row_of_decode hd
      rw [hnone r hr] at hm
      cases hm

/-! ## Words and instructions the spec lists -/

/-- Settles O58: `encodes_fence`, and FENCE retires the state it was given (R233). -/
theorem fenceDoesNothing : Obligations.FenceDoesNothing :=
  ⟨encodes_fence, fun s => ⟨_, exec_fence_eq s, rfl, sameRegs_of_x rfl, rfl, sameMem_of_mem rfl, sameCsrs_of_csrs rfl⟩⟩

/-- Settles O18: twelve evaluations of the decoder. -/
theorem workedEncodingsDecode : Obligations.WorkedEncodingsDecode := by
  unfold Obligations.WorkedEncodingsDecode
  decide

/-- Settles O19: twenty evaluations of the decoder. -/
theorem listedWordsAreUndecodable : Obligations.ListedWordsAreUndecodable := by
  unfold Obligations.ListedWordsAreUndecodable
  repeat refine List.forall_mem_cons.2 ⟨rfl, ?_⟩
  exact List.forall_mem_nil _

end Sys2Proof.Machine
end

section
/-! PROOFS. Fetch, Decode and Execute make a step (R111, R114), and no step looks at the outcome of the step before it (R121, R258):
each shape of instruction answers the same whatever the outcome field holds. -/

namespace Sys2Proof.Machine

/-! ## Fetch (R111) -/

theorem fetch_of_busRead_ok {s : State} {v : Word} (h : busRead s s.pc .b4 = .ok v) :
    fetch s = .ok (v.extractLsb' 0 32, s.setPc (s.pc + 4)) := by
  rw [fetch, h, ← BitVec.setWidth_eq_extractLsb' (by decide)]

theorem fetch_of_busRead_error {s : State} {k : ExceptionKind} (h : busRead s s.pc .b4 = .error k) : fetch s = .error k := by
  rw [fetch, h]

/-- Settles O21: the Bus read decides both, and in RAM the word is that of the four bytes (`word_leNat`). -/
theorem fetchReadsThenAdvances : Obligations.FetchReadsThenAdvances := by
  unfold Obligations.FetchReadsThenAdvances
  intro s
  refine ⟨fun v => fetch_of_busRead_ok, fun o hpc hsize => ?_, fun k => fetch_of_busRead_error⟩
  have hoffset : ramOffset s.pc = o := by rw [ramOffset, hpc, Nat.add_sub_cancel_left]
  have hin : InRam s s.pc 4 := ⟨by omega, by omega⟩
  rw [fetch_ok hin, hoffset, word_leNat]

/-! ## Step (R114) -/

theorem step_of_fetch_error {s : State} {k : ExceptionKind} (hf : fetch s = .error k) : step s = raise k s := by
  simp only [step, hf]

theorem step_of_decode_error {s s1 : State} {w : BitVec 32} {e : DecodeError} (hf : fetch s = .ok (w, s1))
    (hd : decode w = .error e) : step s = raise (.undecodableInstruction w) s1 := by
  obtain rfl := decode_error hd
  simp only [step, hf, hd]

/-- Settles O20: one equation of `step` for each of Fetch, Decode and Execute that can end it. -/
theorem stepIsFetchDecodeExecute : Obligations.StepIsFetchDecodeExecute :=
  fun _ => ⟨fun _ => step_of_fetch_error, fun _ _ hf => ⟨fun _ => step_of_decode hf, fun _ => step_of_decode_error hf⟩⟩

/-! ## The outcome of the step before (R121, R258) -/

section OutcomeIsNotRead

variable (o : StepOutcome) (s : State)

theorem retire_setOutcome : retire (s.setOutcome o) = retire s := rfl

theorem raise_setOutcome (k : ExceptionKind) : raise k (s.setOutcome o) = raise k s := rfl

theorem writeBack_setOutcome (rd : RegId) (v : Word) : writeBack rd v (s.setOutcome o) = writeBack rd v s := by
  rw [writeBack, writeReg_setOutcome, retire_setOutcome, writeBack]

theorem linkAndJump_setOutcome (rd : RegId) (target : Word) :
    linkAndJump rd target (s.setOutcome o) = linkAndJump rd target s := by
  rw [linkAndJump, writeReg_setOutcome, setPc_setOutcome, retire_setOutcome]
  rfl

theorem load_setOutcome (n : AccessSize) (ext : Word → Word) (rd rs1 : RegId) (imm : BitVec 12) :
    load n ext rd rs1 imm (s.setOutcome o) = load n ext rd rs1 imm s := by
  have hread : busRead (s.setOutcome o) ((s.setOutcome o).ea rs1 imm) n = busRead s (s.ea rs1 imm) n := rfl
  unfold load
  rw [hread]
  cases busRead s (s.ea rs1 imm) n with
  | error k => rfl
  | ok v => exact writeBack_setOutcome o s rd (ext v)

theorem busWrite_setOutcome (a v : Word) (n : AccessSize) :
    busWrite (s.setOutcome o) a n v = (busWrite s a n v).map (State.setOutcome · o) := by
  by_cases hr : InRam s a n.bytes
  · rw [busWrite_ok v hr, busWrite_ok (s := s.setOutcome o) v hr]; rfl
  · rw [busWrite_error v hr, busWrite_error (s := s.setOutcome o) v hr]; rfl

theorem store_setOutcome (n : AccessSize) (rs1 rs2 : RegId) (imm : BitVec 12) :
    store n rs1 rs2 imm (s.setOutcome o) = store n rs1 rs2 imm s := by
  have hea : (s.setOutcome o).ea rs1 imm = s.ea rs1 imm := rfl
  unfold store
  rw [hea, readReg_setOutcome, busWrite_setOutcome]
  cases busWrite s (s.ea rs1 imm) n (s.readReg rs2) <;> rfl

theorem csrSwap_setOutcome (rd : RegId) (csr : CsrAddr) (v : Word) :
    csrSwap rd csr v (s.setOutcome o) = csrSwap rd csr v s := by
  rw [csrSwap_eq, csrSwap_eq, csrWrite_setOutcome, writeReg_setOutcome, csrRead_setOutcome, retire_setOutcome]

theorem csrModify_setOutcome (f : Word → Word → Word) (rd : RegId) (csr : CsrAddr) (v : Word) :
    csrModify f rd csr v (s.setOutcome o) = csrModify f rd csr v s := by
  rw [csrModify_eq, csrModify_eq, csrRead_setOutcome, csrWrite_setOutcome, ← apply_ite (State.setOutcome · o),
    writeReg_setOutcome, retire_setOutcome]

/-- Execute of an instruction, by its shape. -/
theorem exec_setOutcome (i : Instr) : exec i (s.setOutcome o) = exec i s := by
  cases i
  case jal | jalr => exact linkAndJump_setOutcome o s _ _
  case beq | bne | blt | bge | bltu | bgeu => rfl
  case lb | lh | lw | ld | lbu | lhu | lwu => exact load_setOutcome o s _ _ _ _ _
  case sb | sh | sw | sd => exact store_setOutcome o s _ _ _ _
  case csrrw | csrrwi => exact csrSwap_setOutcome o s _ _ _
  case csrrs | csrrc | csrrsi | csrrci => exact csrModify_setOutcome o s _ _ _ _
  case fence | ecall | ebreak => rfl
  all_goals exact writeBack_setOutcome o s _ _

theorem fetch_setOutcome : fetch (s.setOutcome o) = (fetch s).map (Prod.map id (State.setOutcome · o)) := by
  have hread : busRead (s.setOutcome o) (s.setOutcome o).pc .b4 = busRead s s.pc .b4 := rfl
  unfold fetch
  rw [hread]
  cases busRead s s.pc .b4 <;> rfl

theorem step_setOutcome : step (s.setOutcome o) = step s := by
  rcases step_cases s with ⟨hr, he⟩ | ⟨-, w, hf, hdec⟩
  · rw [he, step_of_fetch_error (fetch_error (s := s.setOutcome o) hr)]
    rfl
  · have hf' : fetch (s.setOutcome o) = .ok (w, (s.setPc (s.pc + 4)).setOutcome o) := by rw [fetch_setOutcome, hf]; rfl
    rcases hdec with ⟨hd, he⟩ | ⟨i, hd, he⟩
    · rw [he, step_of_decode_error hf' hd, raise_setOutcome]
    · rw [he, step_of_decode hf' hd, exec_setOutcome]

end OutcomeIsNotRead

/-- Settles O36: Fetch gives the same word whatever the outcome field holds, and Execute answers the same (`exec_setOutcome`). -/
theorem noHaltedLatch : Obligations.NoHaltedLatch := fun s o => step_setOutcome o s

end Sys2Proof.Machine
end

section
/-! PROOFS. What a step that does not retire leaves (R112, R115, R252): the state as it was but for the pc and the outcome, and which
of Fetch, Decode and Execute ended it. -/

namespace Sys2Proof.Machine

/-- Moving the pc and noting an outcome leaves registers, memory and CSRs. -/
theorem frame_setPc_setOutcome (s : State) (p : Word) (o : StepOutcome) :
    SameRegs s ((s.setPc p).setOutcome o) ∧ SameMem s ((s.setPc p).setOutcome o) ∧ SameCsrs s ((s.setPc p).setOutcome o) :=
  ⟨sameRegs_of_x rfl, sameMem_of_mem rfl, sameCsrs_of_csrs rfl⟩

/-- `step_cases` read on a raise: Fetch raised and the pc is where it was, or Decode or a data access did, behind the advanced pc
(R115). -/
theorem step_fault {s t : State} {k : ExceptionKind} (h : step s = .fault (.exception k t)) :
    ∃ p, t = (s.setPc p).setOutcome (.exception k) ∧
      ((¬ InRam s s.pc 4 ∧ k = .invalidMemoryAccess s.pc .b4 ∧ p = s.pc) ∨
       (InRam s s.pc 4 ∧ p = s.pc + 4 ∧ ∃ w, fetch s = .ok (w, s.setPc (s.pc + 4)) ∧
         ((decode w = .error (.undecodableInstruction w) ∧ k = .undecodableInstruction w) ∨
          ∃ i rs1 imm n, decode w = .ok i ∧ dataAccess i = some (rs1, imm, n) ∧
            k = .invalidMemoryAccess (s.ea rs1 imm) n ∧ ¬ InRam s (s.ea rs1 imm) n.bytes))) := by
  rcases step_cases s with ⟨hr, he⟩ | ⟨hr, w, hf, ⟨hd, he⟩ | ⟨i, hd, he⟩⟩ <;> rw [he] at h
  · cases h
    exact ⟨s.pc, rfl, .inl ⟨hr, rfl, rfl⟩⟩
  · cases h
    exact ⟨s.pc + 4, rfl, .inr ⟨hr, rfl, w, hf, .inl ⟨hd, rfl⟩⟩⟩
  · obtain ⟨rfl, rs1, imm, n, ha, hk, hout⟩ := exec_fault h
    exact ⟨s.pc + 4, rfl, .inr ⟨hr, rfl, w, hf, .inr ⟨i, rs1, imm, n, hd, ha, hk, hout⟩⟩⟩

/-- `step_cases` read on a halt, which only Execute answers (R250). -/
theorem step_halted {s t : State} {k : HaltKind} (h : step s = .next t) (ho : t.outcome = .halt k) :
    t = (s.setPc (s.pc + 4)).setOutcome (.halt k) := by
  rcases step_cases s with ⟨-, he⟩ | ⟨-, w, -, ⟨-, he⟩ | ⟨i, -, he⟩⟩ <;> rw [he] at h
  · cases h
  · cases h
  · obtain ⟨ht, -⟩ := exec_halted h ho
    exact ht

/-- Settles O24: `step_fault` and `step_halted` say which state is left, `frame_setPc_setOutcome` what of it is as it was. -/
theorem failedStepLeavesTheState : Obligations.FailedStepLeavesTheState := by
  unfold Obligations.FailedStepLeavesTheState
  intro s t
  refine ⟨fun k h => ?_, fun k h ho => ?_⟩
  · obtain ⟨p, rfl, hwhy⟩ := step_fault h
    obtain ⟨hregs, hmem, hcsrs⟩ := frame_setPc_setOutcome s p (.exception k)
    refine ⟨hregs, hmem, hcsrs, ?_⟩
    rcases hwhy with hfetch | ⟨hr, hp, w, hf, hdecode | ⟨i, rs1, imm, n, hd, ha, hk, hout⟩⟩
    · exact .inl hfetch
    · exact .inr ⟨hr, hp, w, hf, .inl hdecode⟩
    · exact .inr ⟨hr, hp, w, hf, .inr ⟨i, rs1, imm, n, hd, ha, ea_eq_effAddr s rs1 imm, hk, hout⟩⟩
  · obtain rfl := step_halted h ho
    obtain ⟨hregs, hmem, hcsrs⟩ := frame_setPc_setOutcome s (s.pc + 4) (.halt k)
    exact ⟨hregs, hmem, hcsrs, rfl⟩

/-- Settles O23: the raise leaves the state but for the outcome, which the next step does not look at (`step_setOutcome`). -/
theorem fetchOutsideRamRaises : Obligations.FetchOutsideRamRaises := by
  unfold Obligations.FetchOutsideRamRaises
  intro s hout
  have hstep : step s = raise (.invalidMemoryAccess s.pc .b4) s := step_of_fetch_error (fetch_error hout)
  exact ⟨_, hstep, sameRegs_of_x rfl, rfl, sameMem_of_mem rfl, sameCsrs_of_csrs rfl, (step_setOutcome ..).trans hstep⟩

end Sys2Proof.Machine
end

section
/-! PROOFS. Where a run ends (R119, R120): a run of `m` steps goes on along `m` retired steps, and has ended at the first step of
another outcome. -/

namespace Sys2Proof.Machine

/-! ## Every step has an outcome (R291) -/

theorem exec_ne_refused (i : Instr) (s : State) (r : Refusal) : exec i s ≠ .refused r := by
  intro h
  rcases exec_cases i s with ⟨rd, v, p, he, -⟩ | ⟨-, rs1, imm, n, -, -, v, he⟩ | ⟨-, rd, v, a, w, he⟩ | ⟨-, k, he⟩ |
    ⟨-, rs1, imm, n, -, -, he⟩ <;> rw [he] at h <;> cases h

theorem step_ne_refused (s : State) (r : Refusal) : step s ≠ .refused r := by
  intro h
  rcases step_cases s with ⟨-, he⟩ | ⟨-, w, -, ⟨-, he⟩ | ⟨i, -, he⟩⟩ <;> rw [he] at h
  · cases h
  · cases h
  · exact exec_ne_refused i _ r h

theorem stepOutcome_isSome (s : State) : ∃ o t, stepOutcome s = some (o, t) := by
  unfold stepOutcome
  split
  case h_1 t _ => exact ⟨_, t, rfl⟩
  case h_2 k t _ => exact ⟨_, t, rfl⟩
  case h_3 r hr => exact absurd hr (step_ne_refused s r)

/-! ## Retired steps in a row -/

/-- `k` steps with outcome `Retired` lead one after the other from `s` to `t`. -/
def RetiresTo (k : Nat) (s t : State) : Prop := ∃ S, S 0 = s ∧ S k = t ∧ RetiresAlong S k

/-- The sequence of states with `s` put before it. -/
def precede (s : State) (S : Nat → State) : Nat → State
  | 0 => s
  | i + 1 => S i

theorem retiresAlong_succ (S : Nat → State) (k : Nat) :
    RetiresAlong S (k + 1) ↔ stepOutcome (S 0) = some (.retired, S 1) ∧ RetiresAlong (S <| · + 1) k :=
  Nat.forall_lt_succ_left

theorem retiresTo_zero {s t : State} : RetiresTo 0 s t ↔ s = t := by
  constructor
  · rintro ⟨S, rfl, rfl, -⟩
    rfl
  · rintro rfl
    exact ⟨fun _ => s, rfl, rfl, fun i hi => absurd hi (Nat.not_lt_zero i)⟩

theorem retiresTo_succ {k : Nat} {s t : State} :
    RetiresTo (k + 1) s t ↔ ∃ u, stepOutcome s = some (.retired, u) ∧ RetiresTo k u t := by
  constructor
  · rintro ⟨S, rfl, rfl, hS⟩
    obtain ⟨hfirst, hrest⟩ := (retiresAlong_succ S k).1 hS
    exact ⟨S 1, hfirst, (S <| · + 1), rfl, rfl, hrest⟩
  · rintro ⟨u, hfirst, S, rfl, rfl, hrest⟩
    exact ⟨precede s S, rfl, rfl, (retiresAlong_succ (precede s S) k).2 ⟨hfirst, hrest⟩⟩

/-! ## Where a run stands (R120) -/

theorem runFor_eq_running_iff {m : Nat} {s t : State} : runFor m s = .running t ↔ RetiresTo m s t := by
  induction m generalizing s with
  | zero => rw [retiresTo_zero, runFor, RunEnd.running.injEq]
  | succ m ih =>
    obtain ⟨o, u, hstep⟩ := stepOutcome_isSome s
    rw [retiresTo_succ, runFor_succ m hstep, hstep]
    by_cases ho : o = .retired
    · simp [ho, ih]
    · simp [ho]

theorem runFor_eq_ended_iff {m : Nat} {s t : State} {o : StepOutcome} :
    runFor m s = .ended o t ↔ o ≠ .retired ∧ ∃ j < m, ∃ u, RetiresTo j s u ∧ stepOutcome u = some (o, t) := by
  induction m generalizing s with
  | zero => simp [runFor]
  | succ m ih =>
    obtain ⟨o', u, hstep⟩ := stepOutcome_isSome s
    rw [Nat.exists_lt_succ_left, runFor_succ m hstep]
    simp only [retiresTo_zero, retiresTo_succ, exists_eq_left', hstep]
    by_cases ho : o' = .retired
    · subst ho
      rw [if_pos rfl, ih]
      refine and_congr_right fun hne => ?_
      simp [Ne.symm hne]
    · rw [if_neg ho]
      constructor
      · rintro ⟨⟩
        exact ⟨ho, .inl rfl⟩
      · rintro ⟨-, hnow | ⟨j, -, u', ⟨v, hretired, -⟩, -⟩⟩
        · cases hnow
          rfl
        · cases hretired
          exact absurd rfl ho

theorem runFor_ne_refused (m : Nat) (s : State) (r : Refusal) : runFor m s ≠ .refused r := by
  induction m generalizing s with
  | zero => exact RunEnd.noConfusion
  | succ m ih =>
    obtain ⟨o, t, hstep⟩ := stepOutcome_isSome s
    rw [runFor_succ m hstep]
    split
    · exact ih t
    · exact RunEnd.noConfusion

/-! ## A longer run -/

/-- Where a run that stands at `e` stands `n` steps later. -/
def RunEnd.after (n : Nat) : RunEnd → RunEnd
  | .running t => runFor n t
  | .ended o t => .ended o t
  | .refused r => .refused r

theorem runFor_add (m n : Nat) (s : State) : runFor (m + n) s = (runFor m s).after n := by
  induction m generalizing s with
  | zero => rw [Nat.zero_add]; rfl
  | succ m ih =>
    obtain ⟨o, t, hstep⟩ := stepOutcome_isSome s
    rw [Nat.succ_add, runFor_succ _ hstep, runFor_succ _ hstep]
    split
    · exact ih t
    · rfl

theorem runSafe_iff (m : Nat) (s : State) :
    runSafe m s = true ↔ (∃ t, runFor m s = .running t) ∨ ∃ t, runFor m s = .ended (.halt .ebreak) t := by
  unfold runSafe
  rcases runFor m s with t | ⟨_ | ⟨_ | _⟩ | k, t⟩ | r <;> simp

/-- Settles O35: each clause by its own lemma; `RetiresTo` is the sequence of retired steps the statement asks for. -/
theorem runEndsAtTheFirstFailure : Obligations.RunEndsAtTheFirstFailure := by
  unfold Obligations.RunEndsAtTheFirstFailure
  intro m s
  refine ⟨fun t => runFor_eq_running_iff, fun o t => ?_, runFor_ne_refused m s, fun n t h => ?_, fun n o t h => ?_,
    runSafe_iff m s⟩
  · rw [runFor_eq_ended_iff]
    refine and_congr_right fun _ => ⟨?_, ?_⟩
    · rintro ⟨j, hj, u, ⟨S, h0, rfl, hS⟩, hend⟩
      exact ⟨S, j, hj, h0, hS, hend⟩
    · rintro ⟨S, j, hj, h0, hS, hend⟩
      exact ⟨j, hj, S j, ⟨S, h0, rfl, hS⟩, hend⟩
  · rw [runFor_add, h, RunEnd.after]
  · rw [runFor_add, h, RunEnd.after]

end Sys2Proof.Machine
end

section
/-! PROOFS. LUI and AUIPC (R132, R133): the U-type words, and the signed 32-bit value they write or add to the instruction's address. -/

namespace Sys2Proof.Machine

theorem immU_eq_ofInt (imm : BitVec 32) : immU imm = BitVec.ofInt 64 imm.toInt := signExtend_eq_ofInt imm

/-- A U-type instruction whose Execute writes one value back (R130). -/
theorem upperRule_of_writeBack {p : BitVec 32} {mk : RegId → BitVec 32 → Instr} {val : State → Int → Word}
    (henc : ∀ rd imm, encode (mk rd imm) = encU imm rd (opcodeOf p) ∧ (mk rd imm).wf = wfU imm)
    (hexec : ∀ rd imm s, exec (mk rd imm) s = writeBack rd (val s imm.toInt) s) : UpperRule p mk val := by
  refine ⟨encodes_U mk henc, fun rd imm s => ?_⟩
  rw [hexec]
  exact writeBack_only rd _ s

theorem exec_lui_eq (rd : RegId) (imm : BitVec 32) (s : State) :
    exec (.lui rd imm) s = writeBack rd (BitVec.ofInt 64 imm.toInt) s := by
  rw [← immU_eq_ofInt]
  rfl

theorem exec_auipc_eq (rd : RegId) (imm : BitVec 32) (s : State) :
    exec (.auipc rd imm) s = writeBack rd (pcRelative s imm.toInt) s := by
  rw [← ia_add_eq_pcRelative s (immU_eq_ofInt imm)]
  rfl

/-- Settles O42: LUI's value is D20's sign extension, AUIPC's base is the instruction's own address (D11). -/
theorem upperImmediates : Obligations.UpperImmediates :=
  ⟨upperRule_of_writeBack (fun _ _ => ⟨rfl, rfl⟩) exec_lui_eq, upperRule_of_writeBack (fun _ _ => ⟨rfl, rfl⟩) exec_auipc_eq⟩

end Sys2Proof.Machine
end

section
/-! PROOFS. The outcomes each family of R267 can have: a retirement, a raise for an access out of RAM, or a halt. -/

namespace Sys2Proof.Machine

theorem exec_retires_of_eq {i : Instr} {s u : State} (h : exec i s = retire u) :
    ∃ t, exec i s = .next t ∧ t.outcome = .retired := ⟨_, h, rfl⟩

/-- Outside the loads, the stores and the halts an instruction retires, whatever the state (R130, R170, R206, R226). -/
theorem exec_retires {i : Instr}
    (hi : family i = .integer ∨ family i = .control ∨ family i = .mulDiv ∨ family i = .csr ∨ family i = .fence) (s : State) :
    ∃ t, exec i s = .next t ∧ t.outcome = .retired := by
  rcases hi with hint | hcontrol | hmul | hcsr | hfence
  · obtain ⟨rd, v, he⟩ := exec_computational (.inl hint) s
    exact exec_retires_of_eq he
  · obtain ⟨rd, v, p, he⟩ := exec_control hcontrol s
    exact exec_retires_of_eq he
  · obtain ⟨rd, v, he⟩ := exec_computational (.inr hmul) s
    exact exec_retires_of_eq he
  · obtain ⟨rd, v, he | ⟨a, w, he⟩⟩ := exec_csr hcsr s <;> exact exec_retires_of_eq he
  · cases eq_fence hfence
    exact exec_retires_of_eq (exec_fence_eq s)

/-- A load or store retires, or raises for an access that is not wholly in RAM (R190). -/
theorem exec_retires_or_raises {i : Instr} (hi : family i = .load ∨ family i = .store) (s : State) :
    (∃ t, exec i s = .next t ∧ t.outcome = .retired) ∨
      ∃ a n, ¬ InRam s a (AccessSize.bytes n) ∧ RaisesBadAccess i s a n := by
  rcases hi with hload | hstore
  · obtain ⟨rs1, imm, n, -, ⟨-, rd, v, he⟩ | ⟨hout, he⟩⟩ := exec_load hload s
    · exact .inl (exec_retires_of_eq he)
    · exact .inr ⟨_, n, hout, he⟩
  · obtain ⟨rs1, imm, n, -, ⟨-, v, he⟩ | ⟨hout, he⟩⟩ := exec_store hstore s
    · exact .inl (exec_retires_of_eq he)
    · exact .inr ⟨_, n, hout, he⟩

theorem exec_halts {i : Instr} (hi : family i = .halt) (s : State) : ∃ t h, exec i s = .next t ∧ t.outcome = .halt h := by
  rcases eq_ecall_or_ebreak hi with rfl | rfl
  · exact ⟨_, _, exec_ecall_eq s, rfl⟩
  · exact ⟨_, _, exec_ebreak_eq s, rfl⟩

/-- Settles O25: each row of R267 by its own lemma. -/
theorem outcomesByFamily : Obligations.OutcomesByFamily :=
  fun _ s => ⟨fun hi => exec_retires hi s, fun hi => exec_retires_or_raises hi s, fun hi => exec_halts hi s⟩

end Sys2Proof.Machine
end

section
/-! PROOFS. The computational instructions (R130 to R161, R215 to R219). First, for each operand form, how the rule shape follows from
the instruction's clause in Encode, its operation in Execute and the value of that operation; then the values; then the rules. -/

namespace Sys2Proof.Machine

/-! ## A rule from its operation (R130) -/

section Rules

variable {p : BitVec 32}

theorem regRegRule_of_opReg {mk : RegId → RegId → RegId → Instr} {f val : Word → Word → Word}
    (henc : ∀ rd rs1 rs2, encode (mk rd rs1 rs2) = encR (funct7Of p) rs2 rs1 (funct3Of p) rd (opcodeOf p) ∧
      (mk rd rs1 rs2).wf = true)
    (hexec : ∀ rd rs1 rs2 s, exec (mk rd rs1 rs2) s = opReg f rd rs1 rs2 s) (hval : ∀ a b, f a b = val a b) :
    RegRegRule p mk val := by
  refine ⟨encodes_R mk henc, fun rd rs1 rs2 s => ?_⟩
  rw [hexec, ← hval]
  exact writeBack_only rd _ s

theorem regImmRule_of_opImm {mk : RegId → RegId → BitVec 12 → Instr} {f : Word → Word → Word} {val : Word → Int → Word}
    (henc : ∀ rd rs1 imm, encode (mk rd rs1 imm) = encI imm rs1 (funct3Of p) rd (opcodeOf p) ∧ (mk rd rs1 imm).wf = true)
    (hexec : ∀ rd rs1 imm s, exec (mk rd rs1 imm) s = opImm f rd rs1 imm s)
    (hval : ∀ a imm, f a (imm12 imm) = val a imm.toInt) : RegImmRule p mk val := by
  refine ⟨encodes_I mk henc, fun rd rs1 imm s => ?_⟩
  rw [hexec, ← hval]
  exact writeBack_only rd _ s

theorem shift64Rule_of_opShift {mk : RegId → RegId → BitVec 6 → Instr} {f val : Word → Nat → Word}
    (henc : ∀ rd rs1 shamt, encode (mk rd rs1 shamt) = encSh6 (funct6Of p) shamt rs1 (funct3Of p) rd (opcodeOf p) ∧
      (mk rd rs1 shamt).wf = true)
    (hexec : ∀ rd rs1 shamt s, exec (mk rd rs1 shamt) s = opShift f rd rs1 shamt.toNat s) (hval : ∀ a n, f a n = val a n) :
    Shift64Rule p mk val := by
  refine ⟨encodes_sh6 mk henc, fun rd rs1 shamt s => ?_⟩
  rw [hexec, ← hval]
  exact writeBack_only rd _ s

theorem shift32Rule_of_opShift {mk : RegId → RegId → BitVec 5 → Instr} {f val : Word → Nat → Word}
    (henc : ∀ rd rs1 shamt, encode (mk rd rs1 shamt) = encR (funct7Of p) shamt rs1 (funct3Of p) rd (opcodeOf p) ∧
      (mk rd rs1 shamt).wf = true)
    (hexec : ∀ rd rs1 shamt s, exec (mk rd rs1 shamt) s = opShift f rd rs1 shamt.toNat s) (hval : ∀ a n, f a n = val a n) :
    Shift32Rule p mk val := by
  refine ⟨encodes_R mk henc, fun rd rs1 shamt s => ?_⟩
  rw [hexec, ← hval]
  exact writeBack_only rd _ s

end Rules

/-! ## Values at 64 bits -/

theorem ofInt_sub {w : Nat} (x y : Int) : BitVec.ofInt w (x - y) = BitVec.ofInt w x - BitVec.ofInt w y := by
  rw [Int.sub_eq_add_neg, BitVec.ofInt_add, BitVec.ofInt_neg, BitVec.sub_eq_add_neg]

theorem add_imm12_eq (a : Word) (imm : BitVec 12) : a + imm12 imm = BitVec.ofInt 64 (a.toInt + imm.toInt) := by
  rw [BitVec.ofInt_add, BitVec.ofInt_toInt, imm12, signExtend_eq_ofInt]

theorem sub_eq_ofInt (a b : Word) : a - b = BitVec.ofInt 64 (a.toInt - b.toInt) := by
  rw [ofInt_sub, BitVec.ofInt_toInt, BitVec.ofInt_toInt]

/-- SLTI compares with the immediate's own signed value: sign-extension keeps it (R135). -/
theorem boolWord_ltS_imm12 (a : Word) (imm : BitVec 12) : boolWord (ltS a (imm12 imm)) = oneIf (a.toInt < imm.toInt) := by
  rw [ltS, boolWord_decide, imm12, BitVec.toInt_signExtend_of_le (by decide)]

/-- SLTIU reads the sign-extended immediate as unsigned: its residue modulo 2^64 (R136). -/
theorem boolWord_ltU_imm12 (a : Word) (imm : BitVec 12) :
    boolWord (ltU a (imm12 imm)) = oneIf (a.toNat < (imm.toInt % 2 ^ 64).toNat) := by
  rw [ltU, boolWord_decide, imm12, signExtend_eq_ofInt, BitVec.toNat_ofInt]
  rfl

theorem shiftLeft_eq_ofNat (a : Word) (n : Nat) : a <<< n = BitVec.ofNat 64 (a.toNat * 2 ^ n) :=
  eq_ofNat_of_toNat (by rw [BitVec.toNat_shiftLeft, Nat.shiftLeft_eq])

theorem ushiftRight_eq_ofNat (a : Word) (n : Nat) : a >>> n = BitVec.ofNat 64 (a.toNat / 2 ^ n) := by
  apply eq_ofNat_of_toNat
  rw [BitVec.toNat_ushiftRight, Nat.shiftRight_eq_div_pow]
  exact div_eq_mod _ a.isLt

/-- The arithmetic shift is the floor quotient, toward minus infinity (R142). -/
theorem sshiftRight_eq_ofInt (a : Word) (n : Nat) : a.sshiftRight n = BitVec.ofInt 64 (a.toInt / 2 ^ n) := by
  rw [BitVec.sshiftRight, Int.shiftRight_eq_div_pow]
  norm_cast

theorem shiftLeft_shamt64 (a b : Word) : a <<< shamt64 b = BitVec.ofNat 64 (a.toNat * 2 ^ (b.toNat % 64)) := by
  rw [shamt64_eq, shiftLeft_eq_ofNat]

theorem ushiftRight_shamt64 (a b : Word) : a >>> shamt64 b = BitVec.ofNat 64 (a.toNat / 2 ^ (b.toNat % 64)) := by
  rw [shamt64_eq, ushiftRight_eq_ofNat]

theorem sshiftRight_shamt64 (a b : Word) : a.sshiftRight (shamt64 b) = BitVec.ofInt 64 (a.toInt / 2 ^ (b.toNat % 64)) := by
  rw [shamt64_eq, sshiftRight_eq_ofInt]

/-! ## Values of the W-forms (R131) -/

theorem sextW_add_imm12 (a : Word) (imm : BitVec 12) : sextW (low32 (a + imm12 imm)) = w32 (a.toInt + imm.toInt) := by
  rw [add_imm12_eq]
  exact sextW_eq (low32_ofInt _)

theorem sextW_add (a b : Word) : sextW (low32 a + low32 b) = w32 (a.toInt + b.toInt) :=
  sextW_eq (by rw [BitVec.ofInt_add, low32_eq, low32_eq])

theorem sextW_sub (a b : Word) : sextW (low32 a - low32 b) = w32 (a.toInt - b.toInt) :=
  sextW_eq (by rw [ofInt_sub, low32_eq, low32_eq])

theorem sextW_mul (a b : Word) : sextW (low32 a * low32 b) = w32 (a.toInt * b.toInt) :=
  sextW_eq (by rw [BitVec.ofInt_mul, low32_eq, low32_eq])

theorem sextW_divS (a b : Word) : sextW (divS (low32 a) (low32 b)) = w32 (quotS 32 (s32 a.toInt) (s32 b.toInt)) :=
  sextW_eq (by rw [divS_eq _ _ (by decide), low32_toInt, low32_toInt])

theorem sextW_remS (a b : Word) : sextW (remS (low32 a) (low32 b)) = w32 (remainS 32 (s32 a.toInt) (s32 b.toInt)) :=
  sextW_eq (by rw [remS_eq _ _ (by decide), low32_toInt, low32_toInt])

theorem sextW_divU (a b : Word) :
    sextW (divU (low32 a) (low32 b)) = w32 (quotU 32 (a.toNat % 2 ^ 32) (b.toNat % 2 ^ 32) : Nat) :=
  sextW_eq (by rw [divU_eq, low32_toNat, low32_toNat, BitVec.ofInt_natCast])

theorem sextW_remU (a b : Word) :
    sextW (remU (low32 a) (low32 b)) = w32 (remainU (a.toNat % 2 ^ 32) (b.toNat % 2 ^ 32) : Nat) :=
  sextW_eq (by rw [remU_eq, low32_toNat, low32_toNat, BitVec.ofInt_natCast])

theorem sextW_shiftLeft_shamt32 (a b : Word) :
    sextW (low32 a <<< shamt32 b) = w32 (a.toNat * 2 ^ (b.toNat % 32) : Nat) := by
  rw [shamt32_eq, sextW_shiftLeft]

theorem sextW_ushiftRight_shamt32 (a b : Word) :
    sextW (low32 a >>> shamt32 b) = w32 (a.toNat % 2 ^ 32 / 2 ^ (b.toNat % 32) : Nat) := by
  rw [shamt32_eq, sextW_ushiftRight]

theorem sextW_sshiftRight_shamt32 (a b : Word) :
    sextW ((low32 a).sshiftRight (shamt32 b)) = w32 (s32 a.toInt / 2 ^ (b.toNat % 32)) := by
  rw [shamt32_eq, sextW_sshiftRight]

/-! ## Shift-immediate words with other upper bits (R89) -/

section Undecodable

variable {w : BitVec 32}

theorem decode_of_opImm (hop : opcodeOf w = 0b0010011#7) : decode w = decodeOpImm w := by
  rw [decode, hop]
  rfl

theorem decode_of_opImm32 (hop : opcodeOf w = 0b0011011#7) : decode w = decodeOpImm32 w := by
  rw [decode, hop]
  rfl

theorem decode_slli_word (hm : w &&& 0x0000707F = 0x00001013) (h0 : funct6Of w ≠ 0) :
    decode w = .error (.undecodableInstruction w) := by
  obtain ⟨hop, h3⟩ := fields_of_mask_I hm
  rw [decode_of_opImm hop, decodeOpImm, h3]
  exact if_neg h0

theorem decode_srli_word (hm : w &&& 0x0000707F = 0x00005013) (h0 : funct6Of w ≠ 0) (h1 : funct6Of w ≠ 0x10) :
    decode w = .error (.undecodableInstruction w) := by
  obtain ⟨hop, h3⟩ := fields_of_mask_I hm
  rw [decode_of_opImm hop, decodeOpImm, h3]
  exact (if_neg h0).trans (if_neg h1)

theorem decode_slliw_word (hm : w &&& 0x0000707F = 0x0000101B) (h0 : funct7Of w ≠ 0) :
    decode w = .error (.undecodableInstruction w) := by
  obtain ⟨hop, h3⟩ := fields_of_mask_I hm
  rw [decode_of_opImm32 hop, decodeOpImm32, h3]
  exact if_neg h0

theorem decode_srliw_word (hm : w &&& 0x0000707F = 0x0000501B) (h0 : funct7Of w ≠ 0) (h1 : funct7Of w ≠ 0x20) :
    decode w = .error (.undecodableInstruction w) := by
  obtain ⟨hop, h3⟩ := fields_of_mask_I hm
  rw [decode_of_opImm32 hop, decodeOpImm32, h3]
  exact (if_neg h0).trans (if_neg h1)

end Undecodable

/-! ## The rules -/

/-- Settles O37: the sums and the difference as integers narrowed to 64 bits. -/
theorem addAndSubtract : Obligations.AddAndSubtract :=
  ⟨regImmRule_of_opImm (fun _ _ _ => ⟨rfl, rfl⟩) (fun _ _ _ _ => rfl) add_imm12_eq,
    regRegRule_of_opReg (fun _ _ _ => ⟨rfl, rfl⟩) (fun _ _ _ _ => rfl) BitVec.add_def,
    regRegRule_of_opReg (fun _ _ _ => ⟨rfl, rfl⟩) (fun _ _ _ _ => rfl) sub_eq_ofInt⟩

/-- Settles O38: the bitwise operations are the model's own, on the sign-extended immediate (`signExtend_eq_ofInt`). -/
theorem bitwiseLogic : Obligations.BitwiseLogic :=
  ⟨regImmRule_of_opImm (fun _ _ _ => ⟨rfl, rfl⟩) (fun _ _ _ _ => rfl) fun a imm => congrArg (a ^^^ ·) (signExtend_eq_ofInt imm),
    regImmRule_of_opImm (fun _ _ _ => ⟨rfl, rfl⟩) (fun _ _ _ _ => rfl) fun a imm => congrArg (a ||| ·) (signExtend_eq_ofInt imm),
    regImmRule_of_opImm (fun _ _ _ => ⟨rfl, rfl⟩) (fun _ _ _ _ => rfl) fun a imm => congrArg (a &&& ·) (signExtend_eq_ofInt imm),
    regRegRule_of_opReg (fun _ _ _ => ⟨rfl, rfl⟩) (fun _ _ _ _ => rfl) fun _ _ => rfl,
    regRegRule_of_opReg (fun _ _ _ => ⟨rfl, rfl⟩) (fun _ _ _ _ => rfl) fun _ _ => rfl,
    regRegRule_of_opReg (fun _ _ _ => ⟨rfl, rfl⟩) (fun _ _ _ _ => rfl) fun _ _ => rfl⟩

/-- Settles O39: the comparisons of `Flags.lean`, with the immediate's signed value or its residue modulo 2^64. -/
theorem setIfLessThan : Obligations.SetIfLessThan :=
  ⟨regImmRule_of_opImm (f := fun a b => boolWord (ltS a b)) (fun _ _ _ => ⟨rfl, rfl⟩) (fun _ _ _ _ => rfl) boolWord_ltS_imm12,
    regImmRule_of_opImm (f := fun a b => boolWord (ltU a b)) (fun _ _ _ => ⟨rfl, rfl⟩) (fun _ _ _ _ => rfl) boolWord_ltU_imm12,
    regRegRule_of_opReg (fun _ _ _ => ⟨rfl, rfl⟩) (fun _ _ _ _ => rfl) fun _ _ => boolWord_decide _,
    regRegRule_of_opReg (fun _ _ _ => ⟨rfl, rfl⟩) (fun _ _ _ _ => rfl) fun _ _ => boolWord_decide _⟩

/-- Settles O40: the three shifts as a product and two floor quotients, and the words Decode refuses. -/
theorem shiftByImmediate : Obligations.ShiftByImmediate :=
  ⟨shift64Rule_of_opShift (fun _ _ _ => ⟨rfl, rfl⟩) (fun _ _ _ _ => rfl) shiftLeft_eq_ofNat,
    shift64Rule_of_opShift (fun _ _ _ => ⟨rfl, rfl⟩) (fun _ _ _ _ => rfl) ushiftRight_eq_ofNat,
    shift64Rule_of_opShift (fun _ _ _ => ⟨rfl, rfl⟩) (fun _ _ _ _ => rfl) sshiftRight_eq_ofInt,
    fun _ => ⟨decode_slli_word, decode_srli_word⟩⟩

/-- Settles O41: the shifts of O40 by the low 6 bits (D21, `shamt64_eq`). -/
theorem shiftByRegister : Obligations.ShiftByRegister :=
  ⟨regRegRule_of_opReg (fun _ _ _ => ⟨rfl, rfl⟩) (fun _ _ _ _ => rfl) shiftLeft_shamt64,
    regRegRule_of_opReg (fun _ _ _ => ⟨rfl, rfl⟩) (fun _ _ _ _ => rfl) ushiftRight_shamt64,
    regRegRule_of_opReg (fun _ _ _ => ⟨rfl, rfl⟩) (fun _ _ _ _ => rfl) sshiftRight_shamt64⟩

/-- Settles O43: narrowing to 32 bits commutes with the sum and the difference. -/
theorem addAndSubtractWord : Obligations.AddAndSubtractWord :=
  ⟨regImmRule_of_opImm (f := fun a b => sextW (low32 (a + b))) (fun _ _ _ => ⟨rfl, rfl⟩) (fun _ _ _ _ => rfl) sextW_add_imm12,
    regRegRule_of_opReg (fun _ _ _ => ⟨rfl, rfl⟩) (fun _ _ _ _ => rfl) sextW_add,
    regRegRule_of_opReg (fun _ _ _ => ⟨rfl, rfl⟩) (fun _ _ _ _ => rfl) sextW_sub⟩

/-- Settles O44: the 32-bit shifts of the low word, and the words Decode refuses. -/
theorem shiftWordByImmediate : Obligations.ShiftWordByImmediate :=
  ⟨shift32Rule_of_opShift (fun _ _ _ => ⟨rfl, rfl⟩) (fun _ _ _ _ => rfl) sextW_shiftLeft,
    shift32Rule_of_opShift (fun _ _ _ => ⟨rfl, rfl⟩) (fun _ _ _ _ => rfl) sextW_ushiftRight,
    shift32Rule_of_opShift (fun _ _ _ => ⟨rfl, rfl⟩) (fun _ _ _ _ => rfl) sextW_sshiftRight,
    fun _ => ⟨decode_slliw_word, decode_srliw_word⟩⟩

/-- Settles O45: the shifts of O44 by the low 5 bits (D21, `shamt32_eq`). -/
theorem shiftWordByRegister : Obligations.ShiftWordByRegister :=
  ⟨regRegRule_of_opReg (fun _ _ _ => ⟨rfl, rfl⟩) (fun _ _ _ _ => rfl) sextW_shiftLeft_shamt32,
    regRegRule_of_opReg (fun _ _ _ => ⟨rfl, rfl⟩) (fun _ _ _ _ => rfl) sextW_ushiftRight_shamt32,
    regRegRule_of_opReg (fun _ _ _ => ⟨rfl, rfl⟩) (fun _ _ _ _ => rfl) sextW_sshiftRight_shamt32⟩

/-- Settles O49: the product and the divisions of R220 at width 32, on the low words. -/
theorem multiplyAndDivideWord : Obligations.MultiplyAndDivideWord :=
  ⟨regRegRule_of_opReg (fun _ _ _ => ⟨rfl, rfl⟩) (fun _ _ _ _ => rfl) sextW_mul,
    regRegRule_of_opReg (fun _ _ _ => ⟨rfl, rfl⟩) (fun _ _ _ _ => rfl) sextW_divS,
    regRegRule_of_opReg (fun _ _ _ => ⟨rfl, rfl⟩) (fun _ _ _ _ => rfl) sextW_divU,
    regRegRule_of_opReg (fun _ _ _ => ⟨rfl, rfl⟩) (fun _ _ _ _ => rfl) sextW_remS,
    regRegRule_of_opReg (fun _ _ _ => ⟨rfl, rfl⟩) (fun _ _ _ _ => rfl) sextW_remU⟩

end Sys2Proof.Machine
end

section
/-! PROOFS. Control transfer (R170 to R181): what a jump and a branch leave, and where they go. Targets are taken from the instruction's
own address (D11), JALR's from the old `x[rs1]` (D12), and no target is checked (D5). -/

namespace Sys2Proof.Machine

/-! ## Targets -/

theorem ia_add_immJ (s : State) (imm : BitVec 21) : s.ia + immJ imm = pcRelative s imm.toInt :=
  ia_add_eq_pcRelative s (signExtend_eq_ofInt imm)

theorem ia_add_immB (s : State) (imm : BitVec 13) : s.ia + immB imm = pcRelative s imm.toInt :=
  ia_add_eq_pcRelative s (signExtend_eq_ofInt imm)

/-- JALR's target is the effective address rounded down to an even one (R173). -/
theorem jalrTarget_toNat (s : State) (rs1 : RegId) (imm : BitVec 12) :
    ((s.readReg rs1 + imm12 imm) &&& ~~~1#64).toNat = 2 * ((effAddr s rs1 imm).toNat / 2) := by
  rw [clearBit0_toNat, ← ea_eq_effAddr, State.ea]

/-! ## JAL and JALR (R172, R173) -/

/-- A jump retires with the link written and the pc at the target, and changes nothing else (R170). -/
theorem linkAndJump_only (rd : RegId) (target : Word) (s : State) :
    ∃ t, linkAndJump rd target s = .next t ∧ t.outcome = .retired ∧ RegWritten s t rd s.pc ∧ t.pc = target ∧
      SameMem s t ∧ SameCsrs s t := by
  obtain ⟨-, hreg, -, hmem, hcsrs⟩ := onlyRegWritten s rd s.pc
  rw [linkAndJump, ia_add_four]
  exact ⟨_, rfl, rfl, hreg, rfl, hmem, hcsrs⟩

theorem exec_jal_eq (rd : RegId) (imm : BitVec 21) (s : State) :
    exec (.jal rd imm) s = linkAndJump rd (pcRelative s imm.toInt) s := by
  rw [← ia_add_immJ]
  rfl

theorem exec_jalr_eq (rd rs1 : RegId) (imm : BitVec 12) (s : State) :
    exec (.jalr rd rs1 imm) s = linkAndJump rd ((s.readReg rs1 + imm12 imm) &&& ~~~1#64) s := rfl

/-- Settles O51: both are `linkAndJump`, to the targets of `ia_add_immJ` and `jalrTarget_toNat`. -/
theorem jumpAndLink : Obligations.JumpAndLink := by
  refine ⟨encodes_J .jal fun _ _ => ⟨rfl, rfl⟩, encodes_I .jalr fun _ _ _ => ⟨rfl, rfl⟩, fun rd imm s => ?_,
    fun rd rs1 imm s => ?_⟩
  · rw [exec_jal_eq]
    exact linkAndJump_only rd _ s
  · rw [exec_jalr_eq, ← jalrTarget_toNat]
    obtain ⟨t, hnext, hretired, hreg, hpc, hframe⟩ := linkAndJump_only rd ((s.readReg rs1 + imm12 imm) &&& ~~~1#64) s
    exact ⟨t, hnext, hretired, hreg, congrArg BitVec.toNat hpc, hframe⟩

/-! ## The branches (R174 to R180) -/

theorem branch_taken {c : Word → Word → Bool} {rs1 rs2 : RegId} {s : State} (imm : BitVec 13)
    (h : c (s.readReg rs1) (s.readReg rs2) = true) : branch c rs1 rs2 imm s = retire (s.setPc (pcRelative s imm.toInt)) := by
  rw [branch, if_pos h, ia_add_immB]

theorem branch_not_taken {c : Word → Word → Bool} {rs1 rs2 : RegId} {s : State} (imm : BitVec 13)
    (h : ¬ c (s.readReg rs1) (s.readReg rs2) = true) : branch c rs1 rs2 imm s = retire (s.setPc s.pc) :=
  if_neg h

/-- A pc written and a retirement, and nothing else. -/
theorem retire_setPc_only (p : Word) (s : State) :
    ∃ t, retire (s.setPc p) = .next t ∧ t.outcome = .retired ∧ SameRegs s t ∧ SameMem s t ∧ SameCsrs s t ∧ t.pc = p := by
  obtain ⟨hregs, hmem, hcsrs⟩ := frame_setPc_setOutcome s p .retired
  exact ⟨_, rfl, rfl, hregs, hmem, hcsrs, rfl⟩

/-- A branch whose condition `c` decides `cond`: taken or not, it retires and only the pc can differ. -/
theorem branchRule_of_branch {p : BitVec 32} {mk : RegId → RegId → BitVec 13 → Instr} {c : Word → Word → Bool}
    {cond : Word → Word → Prop}
    (henc : ∀ rs1 rs2 imm, encode (mk rs1 rs2 imm) = encB imm rs2 rs1 (funct3Of p) (opcodeOf p) ∧
      (mk rs1 rs2 imm).wf = wfB imm)
    (hexec : ∀ rs1 rs2 imm s, exec (mk rs1 rs2 imm) s = branch c rs1 rs2 imm s) (hcond : ∀ a b, c a b = true ↔ cond a b) :
    BranchRule p mk cond := by
  refine ⟨encodes_B mk henc, fun rs1 rs2 imm s => ?_⟩
  rw [hexec]
  by_cases h : c (s.readReg rs1) (s.readReg rs2) = true
  · obtain ⟨t, hnext, hretired, hregs, hmem, hcsrs, hpc⟩ := retire_setPc_only (pcRelative s imm.toInt) s
    exact ⟨t, (branch_taken imm h).trans hnext, hretired, hregs, hmem, hcsrs, fun _ => hpc,
      fun hn => absurd ((hcond ..).1 h) hn⟩
  · obtain ⟨t, hnext, hretired, hregs, hmem, hcsrs, hpc⟩ := retire_setPc_only s.pc s
    exact ⟨t, (branch_not_taken imm h).trans hnext, hretired, hregs, hmem, hcsrs, fun ht => absurd ((hcond ..).2 ht) h,
      fun _ => hpc⟩

/-! ## The six conditions -/

section Conditions

variable (a b : Word)

theorem condEq_iff : condEq a b = true ↔ a = b := decide_eq_true_iff

theorem condNe_iff : condNe a b = true ↔ a ≠ b := by
  rw [condNe, Bool.not_eq_true', ← Bool.not_eq_true, condEq_iff]

theorem ltS_iff : ltS a b = true ↔ a.toInt < b.toInt := decide_eq_true_iff

/-- BGE is the complement of BLT (R178). -/
theorem condGeS_iff : condGeS a b = true ↔ b.toInt ≤ a.toInt := by
  rw [condGeS, Bool.not_eq_true', ← Bool.not_eq_true, ltS_iff, not_lt]

theorem ltU_iff : ltU a b = true ↔ a.toNat < b.toNat := decide_eq_true_iff

/-- BGEU is the complement of BLTU (R180). -/
theorem condGeU_iff : condGeU a b = true ↔ b.toNat ≤ a.toNat := by
  rw [condGeU, Bool.not_eq_true', ← Bool.not_eq_true, ltU_iff, not_lt]

end Conditions

/-- Settles O52: each branch is `branch` on a condition that decides its mnemonic's. -/
theorem conditionalBranches : Obligations.ConditionalBranches :=
  ⟨branchRule_of_branch (fun _ _ _ => ⟨rfl, rfl⟩) (fun _ _ _ _ => rfl) condEq_iff,
    branchRule_of_branch (fun _ _ _ => ⟨rfl, rfl⟩) (fun _ _ _ _ => rfl) condNe_iff,
    branchRule_of_branch (fun _ _ _ => ⟨rfl, rfl⟩) (fun _ _ _ _ => rfl) ltS_iff,
    branchRule_of_branch (fun _ _ _ => ⟨rfl, rfl⟩) (fun _ _ _ _ => rfl) condGeS_iff,
    branchRule_of_branch (fun _ _ _ => ⟨rfl, rfl⟩) (fun _ _ _ _ => rfl) ltU_iff,
    branchRule_of_branch (fun _ _ _ => ⟨rfl, rfl⟩) (fun _ _ _ _ => rfl) condGeU_iff⟩

end Sys2Proof.Machine
end

section
/-! PROOFS. The loads and stores (R186 to R201): one Bus access at the effective address, wholly in RAM or raised with that access. -/

namespace Sys2Proof.Machine

/-! ## Loads -/

/-- A load whose extension `f` gives `ext` of every value its `n` bytes can hold: it writes one register, or raises (R187). -/
theorem loadRule_of_load {p : BitVec 32} {mk : RegId → RegId → BitVec 12 → Instr} {n : AccessSize} {f : Word → Word}
    {ext : Nat → Word}
    (henc : ∀ rd rs1 imm, encode (mk rd rs1 imm) = encI imm rs1 (funct3Of p) rd (opcodeOf p) ∧ (mk rd rs1 imm).wf = true)
    (hexec : ∀ rd rs1 imm s, exec (mk rd rs1 imm) s = load n f rd rs1 imm s)
    (hext : ∀ k < 256 ^ n.bytes, f (BitVec.ofNat 64 k) = ext k) : LoadRule p mk n ext := by
  refine ⟨encodes_I mk henc, fun rd rs1 imm s => ⟨ea_eq_effAddr s rs1 imm, ?_⟩⟩
  obtain ⟨hin, hload⟩ | ⟨hout, hload⟩ := load_cases n f rd rs1 imm s
  · rw [hext _ (leNat_lt ..), ← leValue_eq] at hload
    exact ⟨fun _ => ⟨_, (hexec ..).trans hload, onlyRegWritten s rd _⟩, fun hout => absurd hin hout⟩
  · exact ⟨fun hin => absurd hin hout, fun _ => (hexec ..).trans hload⟩

/-- Settles O53: `sextLow` and `zextLow` are the signed and the unsigned reading of the bytes loaded (`sextLow_eq`, `zextLow_eq`);
LD takes its eight bytes as they are. -/
theorem loads : Obligations.Loads :=
  ⟨loadRule_of_load (fun _ _ _ => ⟨rfl, rfl⟩) (fun _ _ _ _ => rfl) fun k _ => sextLow_eq k (by decide),
    loadRule_of_load (fun _ _ _ => ⟨rfl, rfl⟩) (fun _ _ _ _ => rfl) fun k _ => sextLow_eq k (by decide),
    loadRule_of_load (fun _ _ _ => ⟨rfl, rfl⟩) (fun _ _ _ _ => rfl) fun k _ => sextLow_eq k (by decide),
    loadRule_of_load (fun _ _ _ => ⟨rfl, rfl⟩) (fun _ _ _ _ => rfl) fun _ _ => rfl,
    loadRule_of_load (fun _ _ _ => ⟨rfl, rfl⟩) (fun _ _ _ _ => rfl) fun _ hk => zextLow_eq (by decide) hk,
    loadRule_of_load (fun _ _ _ => ⟨rfl, rfl⟩) (fun _ _ _ _ => rfl) fun _ hk => zextLow_eq (by decide) hk,
    loadRule_of_load (fun _ _ _ => ⟨rfl, rfl⟩) (fun _ _ _ _ => rfl) fun _ hk => zextLow_eq (by decide) hk⟩

/-! ## Stores -/

/-- A store writes the bytes of its access and nothing else, or raises (R188); `byteAt_store` says what
each byte reads afterwards. -/
theorem storeRule_of_store {p : BitVec 32} {mk : RegId → RegId → BitVec 12 → Instr} {n : AccessSize}
    (henc : ∀ rs1 rs2 imm, encode (mk rs1 rs2 imm) = encS imm rs2 rs1 (funct3Of p) (opcodeOf p) ∧ (mk rs1 rs2 imm).wf = true)
    (hexec : ∀ rs1 rs2 imm s, exec (mk rs1 rs2 imm) s = store n rs1 rs2 imm s) : StoreRule p mk n := by
  refine ⟨encodes_S mk henc, fun rs1 rs2 imm s => ⟨ea_eq_effAddr s rs1 imm, ?_⟩⟩
  obtain ⟨hin, hstore⟩ | ⟨hout, hstore⟩ := store_cases n rs1 rs2 imm s
  · have hbyte := fun b => byteAt_store s (s.ea rs1 imm) b (s.readReg rs2) n.bytes hin
    exact ⟨fun _ => ⟨_, (hexec ..).trans hstore, rfl, sameRegs_of_x rfl, rfl, sameCsrs_of_csrs rfl, setLe_size ..,
      fun b hb => (hbyte b).trans (if_neg hb), fun b hb => (hbyte b).trans (if_pos hb)⟩, fun hout => absurd hin hout⟩
  · exact ⟨fun hin => absurd hin hout, fun _ => (hexec ..).trans hstore⟩

/-- Settles O54: each store is `store` at its own width. -/
theorem stores : Obligations.Stores :=
  ⟨storeRule_of_store (fun _ _ _ => ⟨rfl, rfl⟩) fun _ _ _ _ => rfl,
    storeRule_of_store (fun _ _ _ => ⟨rfl, rfl⟩) fun _ _ _ _ => rfl,
    storeRule_of_store (fun _ _ _ => ⟨rfl, rfl⟩) fun _ _ _ _ => rfl,
    storeRule_of_store (fun _ _ _ => ⟨rfl, rfl⟩) fun _ _ _ _ => rfl⟩

end Sys2Proof.Machine
end

section
/-! PROOFS. Multiply and divide at 64 bits (R205 to R214, R220), and the identities between their results (R221). -/

namespace Sys2Proof.Machine

/-! ## The halves of the product (R207 to R210) -/

section Products

variable (a b : Word)

theorem mul_eq_ofNat : a * b = BitVec.ofNat 64 (a.toNat * b.toNat) := eq_ofNat_of_toNat (BitVec.toNat_mul a b)

theorem mulHigh_eq : mulHigh a b = BitVec.ofInt 64 (a.toInt * b.toInt / 2 ^ 64) := highHalf_eq _

theorem mulHighSU_eq : mulHighSU a b = BitVec.ofInt 64 (a.toInt * b.toNat / 2 ^ 64) := highHalf_eq _

theorem mulHighU_eq : mulHighU a b = BitVec.ofNat 64 (a.toNat * b.toNat / 2 ^ 64) := by
  rw [mulHighU, highHalf_eq, ← BitVec.ofInt_natCast]
  norm_cast

theorem mulHigh_comm : mulHigh a b = mulHigh b a := congrArg highHalf (Int.mul_comm ..)

theorem mulHighU_comm : mulHighU a b = mulHighU b a := congrArg highHalf (Int.mul_comm ..)

end Products

/-! ## The rules -/

/-- Settles O46: the low half is the bit-vector product, each high half a floor quotient (`highHalf_eq`). -/
theorem multiply : Obligations.Multiply :=
  ⟨regRegRule_of_opReg (fun _ _ _ => ⟨rfl, rfl⟩) (fun _ _ _ _ => rfl) mul_eq_ofNat,
    regRegRule_of_opReg (fun _ _ _ => ⟨rfl, rfl⟩) (fun _ _ _ _ => rfl) mulHigh_eq,
    regRegRule_of_opReg (fun _ _ _ => ⟨rfl, rfl⟩) (fun _ _ _ _ => rfl) mulHighSU_eq,
    regRegRule_of_opReg (fun _ _ _ => ⟨rfl, rfl⟩) (fun _ _ _ _ => rfl) mulHighU_eq⟩

/-- Settles O47: `divS` and `remS` at width 64, the corner cases included. -/
theorem signedDivision : Obligations.SignedDivision :=
  ⟨regRegRule_of_opReg (fun _ _ _ => ⟨rfl, rfl⟩) (fun _ _ _ _ => rfl) fun a b => divS_eq a b (by decide),
    regRegRule_of_opReg (fun _ _ _ => ⟨rfl, rfl⟩) (fun _ _ _ _ => rfl) fun a b => remS_eq a b (by decide)⟩

/-- Settles O48: `divU` and `remU` at width 64. -/
theorem unsignedDivision : Obligations.UnsignedDivision :=
  ⟨regRegRule_of_opReg (fun _ _ _ => ⟨rfl, rfl⟩) (fun _ _ _ _ => rfl) divU_eq,
    regRegRule_of_opReg (fun _ _ _ => ⟨rfl, rfl⟩) (fun _ _ _ _ => rfl) remU_eq⟩

/-! ## Divisor times quotient plus remainder (R221 (a)) -/

section Identity

variable {w : Nat} (a b : BitVec w)

/-- Divisor 0 leaves the dividend as the remainder; `-1` times the quotient of the overflow case is the dividend again, because
the most negative value is its own negation. -/
theorem mul_divS_add_remS : b * divS a b + remS a b = a := by
  rw [divS, remS]
  split_ifs with hzero hover
  · rw [hzero, zero_mul, zero_add]
  · obtain ⟨rfl, rfl⟩ := hover
    rw [← BitVec.neg_one_eq_allOnes, BitVec.neg_mul, BitVec.one_mul, BitVec.neg_intMin]
    exact BitVec.add_zero _
  · rw [ofInt_sub, BitVec.ofInt_mul, BitVec.ofInt_toInt, BitVec.ofInt_toInt, BitVec.add_comm, BitVec.sub_add_cancel]

theorem mul_divU_add_remU : b * divU a b + remU a b = a := by
  rw [divU, remU]
  split_ifs with hzero
  · rw [hzero, zero_mul, zero_add]
  · calc b * BitVec.ofNat w (a.toNat / b.toNat) + BitVec.ofNat w (a.toNat % b.toNat)
        = BitVec.ofNat w (b.toNat * (a.toNat / b.toNat) + a.toNat % b.toNat) := by
          rw [BitVec.ofNat_add, BitVec.ofNat_mul, BitVec.ofNat_toNat, BitVec.setWidth_eq]
      _ = a := by rw [Nat.div_add_mod, BitVec.ofNat_toNat, BitVec.setWidth_eq]

end Identity

/-! ## Register-register instructions -/

section OpReg

variable {f : Word → Word → Word} {rd rs1 rs2 : RegId} {s t : State}

theorem readReg_of_opReg (hrd : rd ≠ 0) (h : opReg f rd rs1 rs2 s = .next t) :
    t.readReg rd = f (s.readReg rs1) (s.readReg rs2) := by
  cases h
  exact (readReg_setOutcome ..).trans (readReg_writeReg_same s _ hrd)

theorem opReg_comm (hf : ∀ a b, f a b = f b a) : opReg f rd rs1 rs2 s = opReg f rd rs2 rs1 s := by
  rw [opReg, hf, ← opReg]

end OpReg

/-- MULW is the sign-extended low word of MUL (R221 (b)): narrowing commutes with the product. -/
theorem sextW_mul_eq_low32 (a b : Word) : sextW (low32 a * low32 b) = ((a * b).setWidth 32).signExtend 64 :=
  congrArg sextW (BitVec.setWidth_mul a b (by decide)).symm

/-- Settles O50: each identity is one of the values two instructions write; a step is the same with its sources exchanged when its
operation commutes (`opReg_comm`). -/
theorem divisionIdentity : Obligations.DivisionIdentity := by
  intro rd rs1 rs2 s hrd
  refine ⟨fun q r hq hr => ?_, fun q r hq hr => ?_, fun p q hp hq => ?_, opReg_comm BitVec.mul_comm, opReg_comm mulHigh_comm,
    opReg_comm mulHighU_comm⟩
  · rw [readReg_of_opReg hrd hq, readReg_of_opReg hrd hr]
    exact mul_divS_add_remS ..
  · rw [readReg_of_opReg hrd hq, readReg_of_opReg hrd hr]
    exact mul_divU_add_remU ..
  · rw [readReg_of_opReg hrd hp, readReg_of_opReg (f := fun a b => sextW (low32 a * low32 b)) hrd hq]
    exact sextW_mul_eq_low32 ..

end Sys2Proof.Machine
end

section
/-! PROOFS. CSR access, ECALL and EBREAK (R226 to R235, R250): the effect of the two CSR operations on a state, whatever the operand,
and from it the rules of the six instructions; then the halts, as Execute answers them and as a step shows them. -/

namespace Sys2Proof.Machine

/-! ## The CSR operations (R226) -/

/-- `op`, given the operand `v`, retires with the old CSR value in `rd` and `val old v` in the CSR, and changes nothing else. -/
def UpdatesCsr (op : RegId → CsrAddr → Word → State → Result) (val : Word → Word → Word) : Prop :=
  ∀ rd csr v s, ∃ t, op rd csr v s = .next t ∧ CsrUpdated s t rd csr (val (csrRead s csr) v)

/-- When `u` is `s` with `v` in the CSR, retiring with the old CSR value written to `rd` is the whole effect. -/
theorem csrUpdated_writeReg {s u : State} {csr : CsrAddr} {v : Word} (rd : RegId) (hregs : SameRegs s u) (hpc : u.pc = s.pc)
    (hmem : u.mem = s.mem) (hcsrs : ∀ a, csrRead u a = if a = csr ∧ a ≠ misaAddr ∧ a ≠ mhartidAddr then v else csrRead s a) :
    CsrUpdated s ((u.writeReg rd (csrRead s csr)).setOutcome .retired) rd csr v := by
  obtain ⟨hretired, ⟨hzero, hreg⟩, hpc', -, hcsrs'⟩ := onlyRegWritten u rd (csrRead s csr)
  refine ⟨hretired, ⟨hzero, fun r => ?_⟩, hpc'.trans hpc, sameMem_of_mem ((writeReg_mem ..).trans hmem), fun a => ?_⟩
  · rw [hreg, hregs]
  · exact (hcsrs' a).trans (hcsrs a)

theorem csrUpdated_of_csrWrite (s : State) (rd : RegId) (csr : CsrAddr) (v : Word) :
    CsrUpdated s (((csrWrite s csr v).writeReg rd (csrRead s csr)).setOutcome .retired) rd csr v :=
  csrUpdated_writeReg rd (readReg_csrWrite s · csr v) (csrWrite_pc ..) (csrWrite_mem ..) (csrRead_csrWrite s csr · v)

/-- A write that is skipped leaves what a write of the old value would. -/
theorem csrUpdated_of_noWrite (s : State) (rd : RegId) (csr : CsrAddr) :
    CsrUpdated s ((s.writeReg rd (csrRead s csr)).setOutcome .retired) rd csr (csrRead s csr) := by
  refine csrUpdated_writeReg rd (fun _ => rfl) rfl rfl fun a => ?_
  split
  next h => rw [h.1]
  next => rfl

theorem csrSwap_updatesCsr : UpdatesCsr csrSwap (fun _ v => v) :=
  fun rd csr v s => ⟨_, csrSwap_eq rd csr v s, csrUpdated_of_csrWrite s rd csr v⟩

/-- The write skipped for operand 0 would have changed nothing, because `f` keeps the old value then. -/
theorem csrModify_updatesCsr {f : Word → Word → Word} (hf : ∀ t, f t 0 = t) : UpdatesCsr (csrModify f) f := by
  intro rd csr v s
  refine ⟨_, csrModify_eq f rd csr v s, ?_⟩
  split
  next hv =>
    rw [hv, hf]
    exact csrUpdated_of_noWrite s rd csr
  next => exact csrUpdated_of_csrWrite s rd csr _

/-- With operand 0 the CSR bank is not written at all, whatever `f` is (R228, R231, C5). -/
theorem csrModify_csrs_of_zero {f : Word → Word → Word} {rd : RegId} {csr : CsrAddr} {v : Word} {s t : State} (hv : v = 0)
    (h : csrModify f rd csr v s = .next t) : t.csrs = s.csrs := by
  rw [csrModify_eq, if_pos hv] at h
  cases h
  exact writeReg_csrs ..

theorem setBits_zero (t : Word) : setBits t 0 = t := BitVec.or_zero

theorem clearBits_zero (t : Word) : clearBits t 0 = t := BitVec.and_allOnes

/-! ## The CSR instructions (R227 to R232) -/

section Rules

variable {p : BitVec 32} {op : RegId → CsrAddr → Word → State → Result} {val : Word → Word → Word}

theorem csrRegRule_of_updatesCsr {mk : RegId → RegId → CsrAddr → Instr}
    (henc : ∀ rd rs1 csr, encode (mk rd rs1 csr) = encI csr rs1 (funct3Of p) rd (opcodeOf p) ∧ (mk rd rs1 csr).wf = true)
    (hexec : ∀ rd rs1 csr s, exec (mk rd rs1 csr) s = op rd csr (s.readReg rs1) s) (hop : UpdatesCsr op val) :
    CsrRegRule p mk val := by
  refine ⟨encodes_I mk henc, fun rd rs1 csr s => ?_⟩
  rw [hexec]
  exact hop rd csr (s.readReg rs1) s

/-- The operand stands where `rs1` does in the word, and is extended by zeros (R90). -/
theorem csrImmRule_of_updatesCsr {mk : RegId → BitVec 5 → CsrAddr → Instr}
    (henc : ∀ rd uimm csr, encode (mk rd uimm csr) = encI csr uimm (funct3Of p) rd (opcodeOf p) ∧ (mk rd uimm csr).wf = true)
    (hexec : ∀ rd uimm csr s, exec (mk rd uimm csr) s = op rd csr (zimm uimm) s) (hop : UpdatesCsr op val) :
    CsrImmRule p mk val := by
  refine ⟨encodes_I mk henc, fun rd uimm csr s => ?_⟩
  rw [hexec, ← zimm_eq]
  exact hop rd csr (zimm uimm) s

end Rules

/-- Settles O55: both are `csrSwap`, on `x[rs1]` and on `uimm`. -/
theorem csrReadWrite : Obligations.CsrReadWrite :=
  ⟨csrRegRule_of_updatesCsr (fun _ _ _ => ⟨rfl, rfl⟩) (fun _ _ _ _ => rfl) csrSwap_updatesCsr,
    csrImmRule_of_updatesCsr (fun _ _ _ => ⟨rfl, rfl⟩) (fun _ _ _ _ => rfl) csrSwap_updatesCsr⟩

/-- Settles O56: both are `csrModify`, which keeps the CSR bank when `uimm` is 0. -/
theorem csrSetClearImmediate : Obligations.CsrSetClearImmediate := by
  refine ⟨csrImmRule_of_updatesCsr (fun _ _ _ => ⟨rfl, rfl⟩) (fun _ _ _ _ => rfl) (csrModify_updatesCsr setBits_zero),
    csrImmRule_of_updatesCsr (fun _ _ _ => ⟨rfl, rfl⟩) (fun _ _ _ _ => rfl) (csrModify_updatesCsr clearBits_zero),
    fun rd csr s t h => ?_⟩
  have hzero : zimm 0 = 0 := rfl
  rcases h with hset | hclear
  · exact csrModify_csrs_of_zero hzero hset
  · exact csrModify_csrs_of_zero hzero hclear

/-- Settles O57: both are `csrModify` on the VALUE of `x[rs1]`, so the CSR bank is kept whichever register reads 0 (C5). -/
theorem csrSetClearRegister : Obligations.CsrSetClearRegister := by
  refine ⟨csrRegRule_of_updatesCsr (fun _ _ _ => ⟨rfl, rfl⟩) (fun _ _ _ _ => rfl) (csrModify_updatesCsr setBits_zero),
    csrRegRule_of_updatesCsr (fun _ _ _ => ⟨rfl, rfl⟩) (fun _ _ _ _ => rfl) (csrModify_updatesCsr clearBits_zero),
    fun rd rs1 csr s t hzero h => ?_⟩
  rcases h with hset | hclear
  · exact csrModify_csrs_of_zero hzero hset
  · exact csrModify_csrs_of_zero hzero hclear

/-! ## ECALL and EBREAK (R234, R235, R250) -/

/-- A halt notes its signal and changes nothing else. -/
theorem halt_onlyHalted (h : HaltKind) (s : State) : ∃ t, halt h s = .next t ∧ OnlyHalted s t h :=
  ⟨_, rfl, rfl, sameRegs_of_x rfl, rfl, sameMem_of_mem rfl, sameCsrs_of_csrs rfl⟩

/-- Settles O59: the two words by `encodes_ecall` and `encodes_ebreak`, the effect by `halt_onlyHalted`. -/
theorem ecallAndEbreakHalt : Obligations.EcallAndEbreakHalt :=
  ⟨encodes_ecall, encodes_ebreak, fun s => ⟨halt_onlyHalted .ecall s, halt_onlyHalted .ebreak s⟩⟩

/-- An instruction that halts is the one its signal is named after. -/
theorem ecall_or_ebreak_of_halted {i : Instr} {s t : State} {h : HaltKind} (hn : exec i s = .next t)
    (ho : t.outcome = .halt h) : (h = .ecall ∧ i = .ecall) ∨ (h = .ebreak ∧ i = .ebreak) := by
  obtain ⟨-, hfamily⟩ := exec_halted hn ho
  rcases eq_ecall_or_ebreak hfamily with rfl | rfl
  · cases hn
    cases ho
    exact .inl ⟨rfl, rfl⟩
  · cases hn
    cases ho
    exact .inr ⟨rfl, rfl⟩

/-- Settles O26: of what a step can do (`step_cases`) only Execute answers a halt; where the pc stands is `step_halted`. -/
theorem haltsComeOnlyFromEcallEbreak : Obligations.HaltsComeOnlyFromEcallEbreak := by
  intro s t h hn ho
  refine ⟨by rw [step_halted hn ho]; rfl, ?_⟩
  rcases step_cases s with ⟨-, he⟩ | ⟨-, w, hf, ⟨-, he⟩ | ⟨i, hd, he⟩⟩ <;> rw [he] at hn
  · cases hn
  · cases hn
  · refine ⟨w, hf, ?_⟩
    rcases ecall_or_ebreak_of_halted hn ho with ⟨hh, rfl⟩ | ⟨hh, rfl⟩
    · exact .inl ⟨hh, hd⟩
    · exact .inr ⟨hh, hd⟩

end Sys2Proof.Machine
end

section
/-! PROOFS. Every step is one (outcome, state after) pair (R291). -/

namespace Sys2Proof.Machine

/-- Settles O27: there is a pair because no step is refused (`stepOutcome_isSome`), and only one because `stepOutcome` is a
function. -/
theorem stepIsTotal : Obligations.StepIsTotal := by
  unfold Obligations.StepIsTotal
  intro s
  obtain ⟨o, t, hstep⟩ := stepOutcome_isSome s
  refine ⟨(o, t), hstep, fun q hq => ?_⟩
  exact Option.some.inj (hq.symm.trans hstep)

end Sys2Proof.Machine
end
